-- ==== Sys2Proof/Word.lean ====
section
/-! DEFINITION. The word types of the block (00_scope R10 to R12, R15): a byte is a symbol, a 64-bit word is a count,
a length, an address or a host register; a node index runs from 0 to 510. -/
namespace Sys2Proof

/-- A byte value, one symbol (R10, `SYM_W = 8`). -/
abbrev Byte := BitVec 8

/-- A count, a length, an address or a host register (R10, R12). -/
abbrev Word := BitVec 64

/-- A `NODE` index: "`NODE_N = 511` entries with 9-bit indices 0 to 510" (R11). -/
abbrev NodeIx := Fin 511

end Sys2Proof
end

