-- ==== Sys2Proof/Config.lean ====
section
/-! DEFINITION. What an implementation fixes and what the spec leaves open: the capacity `IN_CAP` and the values that
mid-BUSY register reads return. Both are opaque, so nothing proved about the model rests on a value of them. -/
namespace Sys2Proof

/-- DESIGN CHOICE (log 1): any natural number; `Config.inCap` folds it into the range the spec allows. -/
opaque Config.inCapSeed : Nat

/-- `IN_CAP`, the open parameter of 00_scope R13: "`2056 <= IN_CAP <= 2^56`" (every value of that range is the value for
some seed). Irreducible, so that no tactic unfolds it by the way. -/
@[irreducible] def Config.inCap : Nat := Config.inCapSeed % (2 ^ 56 - 2055) + 2056

/-- The free value a register read returns while `STATE = BUSY` (10_state R32, 93 U3: `any value`); log 8. -/
opaque Config.busyRead : Nat → Word

/-- Fixed size of the artifact's header: `HDR_BYTES = 8 + 256*8 = 2056` (00_scope R12). -/
def Config.hdrBytes : Nat := 2056

end Sys2Proof
end

