-- ==== Sys2Proof/Syntax.lean ====
section
/-! DEFINITION. The instructions (one constructor per row of opcode_table.json, 30_encoding R114), the bit patterns
that select them, and the host's actions (30_encoding R112, R113; the reset input of 70_reset R260). -/
namespace Sys2Proof

/-- The four commands (format `CTRL`) and the eleven phases (format `PHASE`). No row has an operand in its word. -/
inductive Instr where
  | nop       -- R126
  | encode    -- R127
  | decode    -- R128
  | clear     -- R129
  | fcClear   -- R141
  | fcCount   -- R142
  | tbLeaves  -- R158
  | tbMerge   -- R160, R162
  | ctWalk    -- R176
  | hdrEmit   -- R202
  | encBody   -- R203
  | bwFlush   -- R188
  | hdrParse  -- R216
  | hdrCheck  -- R217
  | decWalk   -- R220
  deriving DecidableEq, Repr

/-- What selects an instruction (30_encoding R90): the 64-bit word written to `CTRL` (R91), or the 4-bit code the
sequencer holds in `PHASE` (R93). -/
inductive Selector where
  | ctrl  (w : Word)
  | phase (p : BitVec 4)
  deriving DecidableEq, Repr

/-- One line of a host script (30_encoding R112, R113), the reset input, or a step the host leaves to the core. -/
inductive HostOp where
  /-- `wr <reg>, <value>`: RegWrite (40_commands R120). -/
  | regWrite (r : Word) (v : Word)
  /-- `rd <reg>`: RegRead (40_commands R121). -/
  | regRead (r : Word)
  /-- `inw <addr>, <byte>`: InWrite (40_commands R122). -/
  | inWrite (a : Word) (b : Byte)
  /-- `pop`: OutPop (40_commands R123). -/
  | outPop
  /-- `wait`: repeat `rd STATUS` until the value read has `STATE != 1` (30_encoding R113). -/
  | wait
  /-- `drain`: `rd OUT_LEN`, then `pop` that many times (30_encoding R113). -/
  | drain
  /-- The reset input is asserted (70_reset R260). -/
  | reset
  /-- The host does nothing for one step: the sequencer's turn (the model's own, log 7). -/
  | yield
  deriving DecidableEq, Repr

end Sys2Proof
end

