-- ==== Sys2Proof/Machine/State.lean ====
section
/-! DEFINITION. Everything the spec gives the machine (10_state R20 to R61), the model's own host script, the reasons a
step can stop, and the state after reset (70_reset R260). -/
namespace Sys2Proof.Machine

/-- `STATUS.STATE` (10_state R23). -/
inductive Proto where
  | idle | busy | done | error
  deriving DecidableEq, Repr

/-- `STATUS.OP` (10_state R23): which command runs or ran last. -/
inductive Op where
  | encode | decode
  deriving DecidableEq, Repr

/-- `COND.CODE` (10_state R24); 5 to 7 are never produced. -/
inductive CondCode where
  | ok | emptyInput | malformedArtifact | truncatedBitstream | invariantViolation
  deriving DecidableEq, Repr

/-- The condition register `COND` (10_state R24): the error kind and its sub-cause. -/
structure Cond where
  code : CondCode
  sub  : BitVec 4
  deriving DecidableEq, Repr

/-- `NODE.KIND` (10_state R45, R50); 3 is never written. -/
inductive NodeKind where
  | leaf | internal | placeholder
  deriving DecidableEq, Repr

/-- One entry of `NODE` (10_state R45). -/
structure Node where
  kind   : NodeKind
  sym    : Byte
  weight : Word
  left   : NodeIx
  right  : NodeIx
  deriving DecidableEq, Repr

/-- A path of branch bits, and an entry of `CODE` (10_state R54): `len` bits, of which `BITS[k]` is bit `k` of `bits`
(log 14). -/
structure CodeEntry where
  len  : BitVec 8
  bits : BitVec 255
  deriving DecidableEq, Repr

/-- An entry of `STACK` (10_state R56). -/
structure StackEntry where
  node : NodeIx
  path : CodeEntry
  deriving DecidableEq, Repr

/-- `FREQ[0..255]` (10_state R40). -/
abbrev Freq := Vector Word 256

/-- `NODE[0..510]` (10_state R45). -/
abbrev Arena := Vector Node 511

/-- `HEAP[0..255]` (10_state R52). -/
abbrev Heap := Vector NodeIx 256

/-- What the tree builder owns: `NODE`, `HEAP` and the registers `NEXT`, `ROOT`, `PQ_SIZE` (10_state R35, R45, R52). -/
structure TreeBuilder where
  node   : Arena
  heap   : Heap
  next   : Fin 512
  root   : NodeIx
  pqSize : Fin 257
  deriving DecidableEq, Repr

/-- What the code-table generator owns: `CODE`, `STACK` and the register `SP` (10_state R35, R54, R56). -/
structure CodeTable where
  code  : Vector CodeEntry 256
  stack : Vector StackEntry 256
  sp    : Fin 257
  deriving DecidableEq, Repr

/-- `WSTATE`, the state of the decoder's walk (10_state R35, 46_decoder R221). -/
inductive WalkState where
  | atRoot | atInternalNode
  deriving DecidableEq, Repr

/-- `IN_BUF` (10_state R58): the bytes written since reset, addresses strictly rising; an unlisted address has no value
(log 4). -/
abbrev Memory := List Host.Cell

/-- What a host transaction returned to the host (40_commands R121, R123). -/
inductive Reply where
  | reg  (r : Word) (v : Word)
  | byte (b : Byte)
  deriving DecidableEq, Repr

/-- The state of the block (10_state R20) and the model's own fields `script`, `replies`, `freeCtr`. -/
structure State where
  /-- `STATE` (R23, R33). -/
  state : Proto
  /-- `PHASE` (R23, R33): what an instruction set would call the program counter. -/
  phase : BitVec 4
  /-- `OP` (R23, R33). -/
  op : Op
  /-- `CMD_REJ` (R23, R34). -/
  cmdRej : Bool
  /-- `FATAL` (R23, R34). -/
  fatal : Bool
  /-- `COND` (R24). -/
  cond : Cond
  /-- `ERR_POS` (R25). -/
  errPos : Word
  /-- `IN_LEN` (R26). -/
  inLen : Word
  /-- `OUT_LEN` (R27). -/
  outLen : Word
  /-- `BIT_COUNT` (R28). -/
  bitCount : Word
  /-- `SYM_COUNT` (R29). -/
  symCount : BitVec 9
  /-- `ORIG_LEN` (R30). -/
  origLen : Word
  /-- `LEN` (R33). -/
  len : Word
  /-- `IN_PTR` (R33). -/
  inPtr : Word
  /-- `FREQ` (R40). -/
  freq : Freq
  /-- `NODE`, `HEAP`, `NEXT`, `ROOT`, `PQ_SIZE` (R35, R45, R52). -/
  tree : TreeBuilder
  /-- `CODE`, `STACK`, `SP` (R35, R54, R56). -/
  ct : CodeTable
  /-- `ACC` (R35). -/
  acc : Byte
  /-- `NBITS` (R35). -/
  nbits : BitVec 3
  /-- `RD_BYTE` (R35). -/
  rdByte : Byte
  /-- `RD_NBITS` (R35), 0 to 8. -/
  rdNbits : Fin 9
  /-- `CUR` (R35). -/
  cur : NodeIx
  /-- `WSTATE` (R35, R221). -/
  wstate : WalkState
  /-- `SUM` (R35). -/
  sum : BitVec 72
  /-- `IN_BUF` (R58). -/
  inBuf : Memory
  /-- `OUT` (R59): every byte emitted since the last reset or CLEAR. -/
  out : List Byte
  /-- `OUT_RD` (R59): how many of them the host has popped. -/
  outRd : Word
  /-- The host's pending actions, the first one next (log 7, 16). -/
  script : List HostOp
  /-- What transactions have returned, oldest first (log 10). -/
  replies : List Reply
  /-- How many free values have been drawn (log 8). -/
  freeCtr : Nat
  deriving DecidableEq, Repr

/-- Why the machine stops. Each is safe: the model stops where it can prove nothing more. -/
inductive Fault where
  /-- Raised by a core read of an `IN_BUF` byte that nobody wrote since reset (70_reset R264, 93 U2). Safe. -/
  | inBufUnwritten
  /-- Raised by a core read at an address `>= IN_CAP`, where `IN_BUF` has no byte (10_state R58, 20_memory R77). Safe. -/
  | inBufOutside
  /-- Raised by `PQ_REMOVE_MIN` on an empty queue (42 R154, 93 U6: "a model may refuse or fault"). Safe. -/
  | queueEmpty
  /-- Raised by `PQ_INSERT` into a full queue (42 R153, 93 U6). Safe. -/
  | queueFull
  /-- Raised by writing a node when `NEXT = 511`: `NODE[511]` does not exist (10_state R45). Safe. -/
  | arenaFull
  /-- Raised by a push when `SP = 256`: `STACK[256]` does not exist (10_state R56, R57). Safe. -/
  | stackFull
  /-- Raised by `append` on a 255-bit path: `BITS[255]` does not exist (10_state R54, 43 R178). Safe. -/
  | pathTooLong
  /-- Raised by the sequencer when it is BUSY with a `PHASE` code that no phase has (30_encoding R93, R108). Safe. -/
  | phaseNeverProduced
  /-- Raised by the host script when `OutPop` finds no unread byte and no command runs: "the transaction never
  completes" (40_commands R123, 93 U7: stuck). Safe. -/
  | popNeverCompletes
  deriving DecidableEq, Repr

/-- Why the model gives no meaning. -/
inductive Refusal where
  /-- Raised by `exec` for an instruction that has no meaning yet. Safe. No arm uses it. -/
  | notModelled (mnemonic : String)
  deriving DecidableEq, Repr

/-- The entry of `NODE` that reset leaves (DESIGN CHOICE, log 3: the spec gives none). -/
def Node.zero : Node := { kind := .leaf, sym := 0, weight := 0, left := 0, right := 0 }

/-- The empty path: `(LEN = 0, BITS = 0)` (43 R176); also the entry of `CODE` that reset leaves (log 3). -/
def CodeEntry.empty : CodeEntry := { len := 0, bits := 0 }

/-- The entry of `STACK` that reset leaves (DESIGN CHOICE, log 3). -/
def StackEntry.zero : StackEntry := { node := 0, path := CodeEntry.empty }

/-- The tree builder's storage after reset (DESIGN CHOICE, log 2, 3). -/
def TreeBuilder.zero : TreeBuilder :=
  { node := Vector.replicate 511 Node.zero, heap := Vector.replicate 256 0, next := 0, root := 0, pqSize := 0 }

/-- The code-table generator's storage after reset (DESIGN CHOICE, log 2, 3). -/
def CodeTable.zero : CodeTable :=
  { code := Vector.replicate 256 CodeEntry.empty, stack := Vector.replicate 256 StackEntry.zero, sp := 0 }

/-- The machine right after reset (70_reset R260): host registers 0, `OUT` empty, `OUT_RD` 0. What the spec calls
unspecified after reset (`U`) is zero here (DESIGN CHOICE, log 2, 3), and `IN_BUF` lists no byte (log 4). -/
def State.reset : State :=
  { state := .idle, phase := 0, op := .encode, cmdRej := false, fatal := false
    cond := { code := .ok, sub := 0 }, errPos := 0, inLen := 0, outLen := 0, bitCount := 0, symCount := 0, origLen := 0
    len := 0, inPtr := 0
    freq := Vector.replicate 256 0, tree := TreeBuilder.zero, ct := CodeTable.zero
    acc := 0, nbits := 0, rdByte := 0, rdNbits := 0, cur := 0, wstate := .atRoot, sum := 0
    inBuf := [], out := [], outRd := 0
    script := [], replies := [], freeCtr := 0 }

end Sys2Proof.Machine
end

