-- ==== Sys2Proof/Machine/Flags.lean ====
section
/-! DEFINITION. The status flags and the words the host reads them in: `STATUS` (10_state R23), `COND` (R24), the flag
`CMD_REJ` (R34, 40_commands R125) and the `done` line (60_exceptions R246). -/
namespace Sys2Proof.Machine

/-- R23: 0 IDLE, 1 BUSY, 2 DONE, 3 ERROR. -/
def Proto.code : Proto → BitVec 2
  | .idle => 0
  | .busy => 1
  | .done => 2
  | .error => 3

/-- R23: 0 ENCODE (or none), 1 DECODE. -/
def Op.code : Op → BitVec 1
  | .encode => 0
  | .decode => 1

/-- R24: 0 OK, 1 EMPTY_INPUT, 2 MALFORMED_ARTIFACT, 3 TRUNCATED_BITSTREAM, 4 INVARIANT_VIOLATION. -/
def CondCode.code : CondCode → BitVec 3
  | .ok => 0
  | .emptyInput => 1
  | .malformedArtifact => 2
  | .truncatedBitstream => 3
  | .invariantViolation => 4

/-- `STATUS` (R23): bits 1:0 `STATE`, 5:2 `PHASE`, 6 `CMD_REJ`, 7 `FATAL`, 8 `OP`, 63:9 read 0. -/
def statusWord (s : State) : Word :=
  (s.op.code ++ BitVec.ofBool s.fatal ++ BitVec.ofBool s.cmdRej ++ s.phase ++ s.state.code).setWidth 64

/-- `COND` (R24): bits 2:0 `CODE`, bit 3 reads 0, bits 7:4 `SUB`, 63:8 read 0. -/
def condWord (c : Cond) : Word :=
  (c.sub ++ (0 : BitVec 1) ++ c.code.code).setWidth 64

/-- The level output `done` (60_exceptions R246): 1 exactly when `STATE` is DONE or ERROR. -/
def doneLine (s : State) : Bool := s.state == .done || s.state == .error

/-- A rejected `CTRL` write (40_commands R125): "`CMD_REJ <- 1` and nothing else". -/
def reject (s : State) : State := { s with cmdRej := true }

end Sys2Proof.Machine
end

