-- ==== Sys2Proof/Machine/Operands.lean ====
section
/-! DEFINITION. Operand forms: bytes of `IN_BUF`, big-endian fields, bits of a byte and of a path, and the host's
register numbers (10_state R21, R54; 20_memory R71 to R73; 30_encoding R98; 00_scope R16). -/
namespace Sys2Proof.Machine

/-- `FREQ[b]` (10_state R40). -/
def freqAt (freq : Freq) (b : Byte) : Word := freq[b.toNat]

/-- `FREQ[b] <- v`. -/
def freqSet (freq : Freq) (b : Byte) (v : Word) : Freq := freq.set b.toNat v

/-- `NODE[i]` (10_state R45). -/
def nodeAt (node : Arena) (i : NodeIx) : Node := node[i.val]

/-- `NODE[i] <- n`. -/
def nodeSet (node : Arena) (i : NodeIx) (n : Node) : Arena := node.set i.val n

/-- `HEAP[k]` (10_state R52). -/
def heapAt (h : Heap) (k : Fin 256) : NodeIx := h[k.val]

/-- `HEAP[k] <- i`. -/
def heapSet (h : Heap) (k : Fin 256) (i : NodeIx) : Heap := h.set k.val i

/-- `swap HEAP[j] and HEAP[k]` (42 R153, R154). -/
def heapSwap (h : Heap) (j k : Fin 256) : Heap := h.swap j.val k.val

/-- `CODE[b]` (10_state R54). -/
def codeAt (code : Vector CodeEntry 256) (b : Byte) : CodeEntry := code[b.toNat]

/-- `CODE[b] <- p`. -/
def codeSet (code : Vector CodeEntry 256) (b : Byte) (p : CodeEntry) : Vector CodeEntry 256 := code.set b.toNat p

/-- `IN_BUF[a]`: no value when the address is not listed (log 4). -/
def Memory.read : Memory → Nat → Option Byte
  | [], _ => none
  | c :: m, a => if c.1 = a then some c.2 else Memory.read m a

/-- `IN_BUF[a] <- b`, keeping addresses strictly rising. -/
def Memory.write : Memory → Nat → Byte → Memory
  | [], a, b => [(a, b)]
  | c :: m, a, b =>
    if a < c.1 then (a, b) :: c :: m
    else if a = c.1 then (a, b) :: m
    else c :: Memory.write m a b

/-- The canonical form: addresses strictly rising (an unlisted address has no value, so no entry equals one). -/
def Memory.wf : Memory → Bool
  | [] => true
  | [_] => true
  | c :: d :: m => c.1 < d.1 && Memory.wf (d :: m)

/-- One core read of `IN_BUF` (20_memory R73, R75): a byte nobody wrote has no value (70_reset R264). -/
def readByte (m : Memory) (a : Nat) : Except Fault Byte :=
  match m.read a with
  | some b => .ok b
  | none => if a < Config.inCap then .error .inBufUnwritten else .error .inBufOutside

/-- The `n` one-byte reads at `a, a+1, ..., a+n-1`, in ascending address order (20_memory R73). -/
def readBytes (m : Memory) (a : Nat) : Nat → Except Fault (List Byte)
  | 0 => .ok []
  | n + 1 => do
    let b ← readByte m a
    let bs ← readBytes m (a + 1) n
    .ok (b :: bs)

/-- The assembly of a 64-bit field from its bytes, the first one most significant (20_memory R72, 30_encoding R98). -/
def be64 (bs : List Byte) : Word := bs.foldl (fun v b => v <<< 8 ||| b.setWidth 64) 0

/-- `v[63:56], v[55:48], ..., v[7:0]` (30_encoding R98). -/
def bytesBE64 (v : Word) : List Byte :=
  [v.extractLsb' 56 8, v.extractLsb' 48 8, v.extractLsb' 40 8, v.extractLsb' 32 8,
   v.extractLsb' 24 8, v.extractLsb' 16 8, v.extractLsb' 8 8, v.extractLsb' 0 8]

/-- The 64-bit field at byte offset `o` of a header (30_encoding R97, R98). -/
def fieldAt (hdr : List Byte) (o : Nat) : Word := be64 ((hdr.drop o).take 8)

/-- `v` with bit `k` set to `x`. -/
def setBitTo {w : Nat} (v : BitVec w) (k : Nat) (x : Bool) : BitVec w :=
  if x then v ||| (1#w <<< k) else v &&& ~~~(1#w <<< k)

/-- `append(path, v)` of 43 R176: `(len + 1, bits with bits[len] = v)`. A 255-bit path has no room (10_state R54). -/
def CodeEntry.append (p : CodeEntry) (x : Bool) : Except Fault CodeEntry :=
  if p.len.toNat < 255 then .ok { len := p.len + 1, bits := setBitTo p.bits p.len.toNat x }
  else .error .pathTooLong

/-- The bits of a code in transmission order, `BITS[0], ..., BITS[LEN-1]` (10_state R54). -/
def CodeEntry.toBits (c : CodeEntry) : List Bool := (List.range c.len.toNat).map fun k => c.bits.getLsbD k

/-- The register map (10_state R21 to R31): the value a host register has outside BUSY; `CTRL` and unmapped numbers
read 0. -/
def regValue (s : State) (r : Word) : Word :=
  match r.toNat with
  | 1 => statusWord s
  | 2 => condWord s.cond
  | 3 => s.errPos
  | 4 => s.inLen
  | 5 => s.outLen
  | 6 => s.bitCount
  | 7 => s.symCount.setWidth 64
  | 8 => s.origLen
  | _ => 0

/-- Whether a register number is a readable register, 1 to 8 (10_state R21). -/
def regReadable (r : Word) : Bool := 1 ≤ r.toNat && r.toNat ≤ 8

/-- What a read returns while BUSY (10_state R32): `STATUS.STATE` reads 1, every other readable field is the free value
`x`; `CTRL` and unmapped numbers still read 0 (log 8). -/
def busyValue (r x : Word) : Word :=
  if regReadable r then
    if r.toNat = 1 then (x.extractLsb' 2 62 ++ Proto.busy.code).setWidth 64 else x
  else 0

end Sys2Proof.Machine
end

