-- ==== Sys2Proof/Machine/Ops.lean ====
section
/-! DEFINITION. The named operations the phases share: `Emit`, `raise` (taking an error), `finish`, `start`, and the
acknowledge that leaves DONE and ERROR (00_scope R16; 40_commands R129 to R131; 60_exceptions R240, R245). -/
namespace Sys2Proof.Machine

/-- How a phase ends early: an error was raised (the command is over, the state is final), or the model stops. -/
inductive Stop where
  | raised (s : State)
  | fault (f : Fault)
  deriving DecidableEq, Repr

/-- A piece of a phase's pseudocode: it gives a value, or it ends the phase early. -/
abbrev Run (α : Type) := Except Stop α

/-- A read or a table access inside a phase; a fault of it stops the model. -/
def lift {α : Type} : Except Fault α → Run α
  | .ok a => .ok a
  | .error f => .error (.fault f)

/-- The outcome of a phase: both its normal end and a raised error are next states (60_exceptions R240). -/
def outcome : Run State → Host.Outcome State Fault Refusal
  | .ok s => .next s
  | .error (.raised s) => .next s
  | .error (.fault f) => .fault f

/-- `raise Kind(sub)` (60_exceptions R240): `COND`, `ERR_POS <- IN_PTR`, `FATAL` for InvariantViolation, `STATE <- ERROR`;
nothing else changes. -/
def raiseState (kind : CondCode) (sub : BitVec 4) (s : State) : State :=
  { s with cond := { code := kind, sub := sub }, errPos := s.inPtr
           fatal := s.fatal || kind == .invariantViolation, state := .error }

/-- `raise` as the end of a phase: "no later statement of the phase and no later phase runs" (R240). -/
def raise {α : Type} (kind : CondCode) (sub : BitVec 4) (s : State) : Run α :=
  .error (.raised (raiseState kind sub s))

/-- `finish(code)` (40_commands R131). -/
def finish (code : CondCode) (s : State) : State :=
  { s with cond := { code := code, sub := 0 }, errPos := 0, state := .done }

/-- `start(op)` (40_commands R130). -/
def start (op : Op) (s : State) : State :=
  { s with state := .busy, op := op, len := s.inLen
           cond := { code := .ok, sub := 0 }, errPos := 0, outLen := 0, bitCount := 0, symCount := 0, origLen := 0
           phase := 1 }

/-- An accepted CLEAR (40_commands R129): the only way from DONE or ERROR back to IDLE (60_exceptions R245). -/
def acknowledge (s : State) : State :=
  { s with state := .idle, phase := 0, op := .encode, cmdRej := false
           cond := { code := .ok, sub := 0 }, errPos := 0, outLen := 0, bitCount := 0, symCount := 0, origLen := 0
           out := [], outRd := 0 }

/-- `PHASE <- p` (00_scope R16). -/
def setPhase (p : BitVec 4) (s : State) : State := { s with phase := p }

/-- `Emit(b)` (00_scope R16): append to `OUT`, `OUT_LEN <- OUT_LEN + 1`. -/
def emit (b : Byte) (s : State) : State := { s with out := s.out ++ [b], outLen := s.outLen + 1 }

/-- One `Emit` per byte, in order (`Laws.emitAll_eq_foldl`). -/
def emitAll (bs : List Byte) (s : State) : State :=
  { s with out := s.out ++ bs, outLen := s.outLen + BitVec.ofNat 64 bs.length }

end Sys2Proof.Machine
end

