-- ==== Sys2Proof/Machine/CodeTable.lean ====
section
/-! DEFINITION. Phase CT_WALK (43 R175 to R180): the depth-first walk with an explicit stack that fills `CODE`. -/
namespace Sys2Proof.Machine

/-- `push x` (R176): `STACK[SP] <- x; SP <- SP + 1`. -/
def ctPush (e : StackEntry) (c : CodeTable) : Except Fault CodeTable :=
  if h : c.sp.val < 256 then
    .ok { c with stack := c.stack.set c.sp.val e, sp := ⟨c.sp.val + 1, by omega⟩ }
  else .error .stackFull

/-- One round of R176 on a non-empty stack: pop an entry and visit its node. -/
def ctVisit (node : Arena) (c : CodeTable) (h : 0 < c.sp.val) : Except Fault CodeTable :=
  let e := c.stack[c.sp.val - 1]
  let c1 : CodeTable := { c with sp := ⟨c.sp.val - 1, by omega⟩ }
  let n := nodeAt node e.node
  match n.kind with
  | .leaf => .ok { c1 with code := codeSet c1.code n.sym e.path }
  | .internal => do
    let p1 ← e.path.append true
    let c2 ← ctPush { node := n.right, path := p1 } c1
    let p0 ← e.path.append false
    ctPush { node := n.left, path := p0 } c2
  | .placeholder => .ok c1

/-- The loop of R176, `while SP > 0`. -/
def ctLoop (node : Arena) : (fuel : Nat) → CodeTable → Except Fault CodeTable
  | 0, c => .ok c
  | fuel + 1, c =>
    if h : 0 < c.sp.val then do
      let c1 ← ctVisit node c h
      ctLoop node fuel c1
    else .ok c

/-- Rounds enough for every walk: an entry of the stack with a path of `l` bits stands for at most `2^(256 - l) - 1`
visits, since a longer path than 255 bits stops the walk (log 18). -/
def ctFuel : Nat := 2 ^ 256

/-- The walk from the root (R176): clear `CODE`, `SP <- 0`, push the root with the empty path, run the loop. -/
def ctWalk (node : Arena) (root : NodeIx) (c : CodeTable) : Except Fault CodeTable := do
  let c1 ← ctPush { node := root, path := CodeEntry.empty }
    { c with code := Vector.replicate 256 CodeEntry.empty, sp := 0 }
  ctLoop node ctFuel c1

/-- CT_WALK (R176). -/
def execCtWalk (s : State) : Host.Outcome State Fault Refusal :=
  outcome do
    let c ← lift (ctWalk s.tree.node s.tree.root s.ct)
    .ok (setPhase 6 { s with ct := c })

end Sys2Proof.Machine
end

