-- ==== Sys2Proof/Machine/Commands.lean ====
section
/-! DEFINITION. The four commands (40_commands R124 to R130): acceptance, rejection, effect. Reserved bits of the word
are refused by the decoder before (R107). -/
namespace Sys2Proof.Machine

/-- When ENCODE and DECODE are accepted (R124): `FATAL = 0`, `STATE = IDLE`, `IN_LEN <= IN_CAP`. -/
def startAccepted (s : State) : Bool := !s.fatal && s.state == .idle && !decide (Config.inCap < s.inLen.toNat)

/-- When CLEAR is accepted (R124, R129): `FATAL = 0` and not BUSY. -/
def clearAccepted (s : State) : Bool := !s.fatal && s.state != .busy

/-- NOP (R126): "Pseudocode: nothing", accepted in every state. -/
def execNop (s : State) : Host.Outcome State Fault Refusal := .next s

/-- ENCODE (R127): `start(OP = 0)`; the phases of 45_encoder R200 follow as later steps (log 6). -/
def execEncode (s : State) : Host.Outcome State Fault Refusal :=
  .next (if startAccepted s then start .encode s else reject s)

/-- DECODE (R128): `start(OP = 1)`; the phases of 46_decoder R215 follow as later steps (log 6). -/
def execDecode (s : State) : Host.Outcome State Fault Refusal :=
  .next (if startAccepted s then start .decode s else reject s)

/-- CLEAR (R129). -/
def execClear (s : State) : Host.Outcome State Fault Refusal :=
  .next (if clearAccepted s then acknowledge s else reject s)

end Sys2Proof.Machine
end

