-- ==== Sys2Proof/Machine/BitIO.lean ====
section
/-! DEFINITION. The bit writer and the bit reader (44 R185 to R192): `BW_PUT_BIT`, `BW_PUT_CODE`, phase BW_FLUSH,
`BR_GET_BIT`. -/
namespace Sys2Proof.Machine

/-- `BW_PUT_BIT(v)` (R186). -/
def bwPutBit (v : Bool) (s : State) : State :=
  let acc := setBitTo s.acc (7 - s.nbits.toNat) v
  let s1 : State := { s with bitCount := s.bitCount + 1 }
  if s.nbits = 7 then { emit acc s1 with acc := 0, nbits := 0 }
  else { s1 with acc := acc, nbits := s.nbits + 1 }

/-- One `BW_PUT_BIT` per bit, the first bit first (R187). -/
def bwPutBits (bits : List Bool) (s : State) : State := bits.foldl (fun s v => bwPutBit v s) s

/-- `BW_PUT_CODE(c)` (R187). -/
def bwPutCode (c : CodeEntry) (s : State) : State := bwPutBits c.toBits s

/-- BW_FLUSH (R188): emit the partial byte, if any, and finish. -/
def execBwFlush (s : State) : Host.Outcome State Fault Refusal :=
  .next (finish .ok (if s.nbits = 0 then s else { emit s.acc s with acc := 0, nbits := 0 }))

/-- The fetch of `BR_GET_BIT` (R190): a new byte when none of the current one is left. -/
def brFill (s : State) : Run State :=
  if s.rdNbits.val = 0 then
    if s.len ≤ s.inPtr then raise .truncatedBitstream 0 s
    else do
      let b ← lift (readByte s.inBuf s.inPtr.toNat)
      .ok { s with rdByte := b, inPtr := s.inPtr + 1, rdNbits := 8 }
  else .ok s

/-- The delivery of `BR_GET_BIT` (R190): bit 7 out, the rest moved up. -/
def brShift (s : State) : State :=
  { s with rdByte := s.rdByte <<< 1, rdNbits := ⟨s.rdNbits.val - 1, by omega⟩, bitCount := s.bitCount + 1 }

/-- `BR_GET_BIT()` (R190): the bit and the state after it. -/
def brGetBit (s : State) : Run (Bool × State) := do
  let s1 ← brFill s
  .ok (s1.rdByte.msb, brShift s1)

end Sys2Proof.Machine
end

