-- ==== Sys2Proof/Machine/Decoder.lean ====
section
/-! DEFINITION. The decoder's own phases HDR_PARSE, HDR_CHECK and DEC_WALK (46 R215 to R227). -/
namespace Sys2Proof.Machine

/-- The 256 counts of a header (30_encoding R97): `FREQ[s]` at offset `8 + 8s`. -/
def headerFreq (hdr : List Byte) : Freq := Vector.ofFn fun s : Fin 256 => fieldAt hdr (8 + 8 * s.val)

/-- HDR_PARSE (R216). The header's one-byte reads are in ascending address order, 0 to 2055 (20_memory R73; log 20). -/
def execHdrParse (s : State) : Host.Outcome State Fault Refusal :=
  outcome do
    if s.len.toNat < Config.hdrBytes then raise .malformedArtifact 1 s
    else
      let hdr ← lift (readBytes s.inBuf 0 Config.hdrBytes)
      .ok (setPhase 10 { s with origLen := fieldAt hdr 0, freq := headerFreq hdr
                                inPtr := BitVec.ofNat 64 Config.hdrBytes })

/-- The number of byte values with a non-zero count (10_state R41). -/
def symbolCount (freq : Freq) : Nat := freq.toList.countP (· != 0)

/-- The exact 72-bit sum of the 256 counts (R217). -/
def exactSum (freq : Freq) : BitVec 72 := freq.toList.foldl (fun a c => a + c.setWidth 72) 0

/-- HDR_CHECK (R217): the two header checks in their order, then the empty artifact (R218). -/
def execHdrCheck (s : State) : Host.Outcome State Fault Refusal :=
  let n := symbolCount s.freq
  let s1 : State := { s with symCount := BitVec.ofNat 9 n, sum := exactSum s.freq }
  outcome <|
    if n = 0 ∧ s1.origLen ≠ 0 then raise .malformedArtifact 2 s1
    else if s1.sum ≠ s1.origLen.setWidth 72 then raise .malformedArtifact 3 s1
    else if s1.origLen = 0 then .ok (finish .emptyInput s1)
    else .ok (setPhase 3 s1)

/-- What a step of the walk does at the node it has moved to (R220). -/
def walkArrive (s : State) : Run State :=
  let n := nodeAt s.tree.node s.cur
  match n.kind with
  | .leaf => .ok { emit n.sym s with cur := s.tree.root, wstate := .atRoot }
  | .internal => .ok { s with wstate := .atInternalNode }
  | .placeholder => raise .malformedArtifact 4 s

/-- One round of the loop of R220: take a bit, step to a child, act on it. -/
def walkRound (s : State) : Run State := do
  let (v, s1) ← brGetBit s
  let n := nodeAt s1.tree.node s1.cur
  walkArrive { s1 with cur := if v then n.right else n.left }

/-- How many bits the reader can still deliver: those left in `RD_BYTE` and the bytes of the body not yet read. -/
def bitsLeft (s : State) : Nat := s.rdNbits.val + 8 * (s.len.toNat - s.inPtr.toNat)

/-- The loop of R220, `while OUT_LEN < ORIG_LEN`. Every round uses up one bit, so `fuel = bitsLeft` bounds it exactly:
with no bit left the next `BR_GET_BIT` raises TruncatedBitstream (R224; log 18). -/
def walkLoop : (fuel : Nat) → State → Run State
  | 0, s => if s.outLen < s.origLen then raise .truncatedBitstream 0 s else .ok s
  | fuel + 1, s =>
    if s.outLen < s.origLen then do
      let s1 ← walkRound s
      walkLoop fuel s1
    else .ok s

/-- DEC_WALK (R220). -/
def execDecWalk (s : State) : Host.Outcome State Fault Refusal :=
  outcome do
    let s1 ← walkLoop (bitsLeft s) { s with cur := s.tree.root, wstate := .atRoot }
    .ok (finish .ok s1)

end Sys2Proof.Machine
end

