-- ==== Sys2Proof/Machine/Encoder.lean ====
section
/-! DEFINITION. The encoder's own phases HDR_EMIT and ENC_BODY (45 R200 to R207). -/
namespace Sys2Proof.Machine

/-- The header of the artifact (30_encoding R97): the original length, then the 256 counts, all big-endian. -/
def headerBytes (origLen : Word) (freq : Freq) : List Byte :=
  bytesBE64 origLen ++ freq.toList.flatMap bytesBE64

/-- HDR_EMIT (R202); an empty input ends here with EMPTY_INPUT (R201). -/
def execHdrEmit (s : State) : Host.Outcome State Fault Refusal :=
  let s1 := emitAll (headerBytes s.origLen s.freq) s
  .next (if s.len = 0 then finish .emptyInput s1 else setPhase 7 { s1 with inPtr := 0 })

/-- The loop of R203: `n` bytes still to encode, the next one at address `i`. -/
def bodyLoop : (n i : Nat) → State → Run State
  | 0, _, s => .ok s
  | n + 1, i, s => do
    let s1 : State := { s with inPtr := BitVec.ofNat 64 i }
    let b ← lift (readByte s1.inBuf i)
    let c := codeAt s1.ct.code b
    if c.len = 0 then raise .invariantViolation 1 s1
    else bodyLoop n (i + 1) { bwPutCode c s1 with inPtr := BitVec.ofNat 64 (i + 1) }

/-- ENC_BODY (R203): the code of every input byte, in order; an absent code is CODE_ABSENT (R204). -/
def execEncBody (s : State) : Host.Outcome State Fault Refusal :=
  outcome do
    let s1 ← bodyLoop s.len.toNat 0 s
    .ok (setPhase 8 s1)

end Sys2Proof.Machine
end

