-- ==== Sys2Proof/Machine/FrequencyCounter.lean ====
section
/-! DEFINITION. Phases FC_CLEAR and FC_COUNT (41_frequency_counter R140 to R146). -/
namespace Sys2Proof.Machine

/-- FC_CLEAR (R141). -/
def execFcClear (s : State) : Host.Outcome State Fault Refusal :=
  let s1 : State := { s with freq := Vector.replicate 256 0, inPtr := 0, acc := 0, nbits := 0, rdNbits := 0 }
  match s.op with
  | .encode => .next (setPhase 2 { s1 with origLen := s.len })
  | .decode => .next (setPhase 9 s1)

/-- `FREQ[b] <- FREQ[b] + 1` (R142, R144). -/
def bump (freq : Freq) (b : Byte) : Freq := freqSet freq b (freqAt freq b + 1)

/-- The loop of R142: `n` bytes still to count, the next one at address `i`. -/
def countLoop : (n i : Nat) → State → Run State
  | 0, _, s => .ok s
  | n + 1, i, s => do
    let b ← lift (readByte s.inBuf i)
    countLoop n (i + 1) { s with inPtr := BitVec.ofNat 64 (i + 1), freq := bump s.freq b }

/-- FC_COUNT (R142): one pass over the input; empty input goes to HDR_EMIT (R143). -/
def execFcCount (s : State) : Host.Outcome State Fault Refusal :=
  outcome do
    let s1 ← countLoop s.len.toNat 0 s
    .ok (setPhase (if s.len = 0 then 6 else 3) s1)

end Sys2Proof.Machine
end

