-- ==== Sys2Proof/Machine/PriorityQueue.lean ====
section
/-! DEFINITION. The priority queue (42 R150 to R156): the order `Less`, and the binary heap of R153 and R154 in `HEAP`. -/
namespace Sys2Proof.Machine

/-- `Less(i, j)` (R151): by weight, ties by index. -/
def less (node : Arena) (i j : NodeIx) : Bool :=
  decide ((nodeAt node i).weight < (nodeAt node j).weight) ||
    ((nodeAt node i).weight == (nodeAt node j).weight && decide (i < j))

/-- `(k - 1) div 2` (R153). -/
def parent (k : Fin 256) : Fin 256 := ⟨(k.val - 1) / 2, by omega⟩

/-- Sift up (R153): `while k > 0 and Less(HEAP[k], HEAP[(k-1) div 2])`. `fuel` starts at `k` and bounds the rounds
exactly: it is 0 only when `k` is 0 (log 18). -/
def siftUp (node : Arena) : (fuel : Nat) → Fin 256 → Heap → Heap
  | 0, _, h => h
  | fuel + 1, k, h =>
    if 0 < k.val ∧ less node (heapAt h k) (heapAt h (parent k)) = true then
      siftUp node fuel (parent k) (heapSwap h k (parent k))
    else h

/-- `PQ_INSERT(i)` (R153). -/
def pqInsert (i : NodeIx) (t : TreeBuilder) : Except Fault TreeBuilder :=
  if hk : t.pqSize.val < 256 then
    let k : Fin 256 := ⟨t.pqSize.val, hk⟩
    .ok { t with heap := siftUp t.node k.val k (heapSet t.heap k i), pqSize := ⟨k.val + 1, by omega⟩ }
  else .error .queueFull

/-- The `m` of R154: the least of `k` and its children that are in the queue, the left child first. -/
def leastChild (node : Arena) (size : Fin 257) (h : Heap) (k : Fin 256) : Fin 256 :=
  let m : Fin 256 :=
    if hl : 2 * k.val + 1 < size.val then
      let l : Fin 256 := ⟨2 * k.val + 1, by omega⟩
      if less node (heapAt h l) (heapAt h k) then l else k
    else k
  if hr : 2 * k.val + 2 < size.val then
    let r : Fin 256 := ⟨2 * k.val + 2, by omega⟩
    if less node (heapAt h r) (heapAt h m) then r else m
  else m

/-- Sift down (R154). `fuel` starts at the size of the queue and bounds the rounds exactly (log 18). -/
def siftDown (node : Arena) (size : Fin 257) : (fuel : Nat) → Fin 256 → Heap → Heap
  | 0, _, h => h
  | fuel + 1, k, h =>
    let m := leastChild node size h k
    if m = k then h else siftDown node size fuel m (heapSwap h k m)

/-- `PQ_REMOVE_MIN()` (R154): the removed member and the queue without it. -/
def pqRemoveMin (t : TreeBuilder) : Except Fault (NodeIx × TreeBuilder) :=
  if hs : 0 < t.pqSize.val then
    let last : Fin 256 := ⟨t.pqSize.val - 1, by omega⟩
    let size : Fin 257 := ⟨t.pqSize.val - 1, by omega⟩
    let heap := if 0 < size.val then siftDown t.node size size.val 0 (heapSet t.heap 0 (heapAt t.heap last)) else t.heap
    .ok (heapAt t.heap 0, { t with heap := heap, pqSize := size })
  else .error .queueEmpty

end Sys2Proof.Machine
end

