-- ==== Sys2Proof/Machine/TreeBuilder.lean ====
section
/-! DEFINITION. Phases TB_LEAVES and TB_MERGE (42 R157 to R165). -/
namespace Sys2Proof.Machine

/-- `NODE[NEXT] <- n; PQ_INSERT(NEXT); NEXT <- NEXT + 1` (R158, R160). -/
def addNode (n : Node) (t : TreeBuilder) : Except Fault TreeBuilder :=
  if hn : t.next.val < 511 then do
    let i : NodeIx := ⟨t.next.val, hn⟩
    let t1 ← pqInsert i { t with node := nodeSet t.node i n }
    .ok { t1 with next := ⟨i.val + 1, by omega⟩ }
  else .error .arenaFull

/-- The loop of R158: `n` byte values still to look at, from `256 - n` up. -/
def leafLoop (freq : Freq) : (n : Nat) → TreeBuilder → Except Fault TreeBuilder
  | 0, t => .ok t
  | n + 1, t =>
    let s : Byte := BitVec.ofNat 8 (255 - n)
    if freqAt freq s = 0 then leafLoop freq n t
    else do
      let t1 ← addNode { kind := .leaf, sym := s, weight := freqAt freq s, left := 0, right := 0 } t
      leafLoop freq n t1

/-- TB_LEAVES (R158): leaves in ascending byte value; `SYM_COUNT <- NEXT`. -/
def execTbLeaves (s : State) : Host.Outcome State Fault Refusal :=
  outcome do
    let t ← lift (leafLoop s.freq 256 { s.tree with next := 0, pqSize := 0 })
    .ok (setPhase 4 { s with tree := t, symCount := BitVec.ofNat 9 t.next.val })

/-- One round of R160: the first removed node becomes the RIGHT child, the second the LEFT child (R161). -/
def mergeRound (t : TreeBuilder) : Except Fault TreeBuilder := do
  let (a, t1) ← pqRemoveMin t
  let (b, t2) ← pqRemoveMin t1
  addNode { kind := .internal, sym := 0, weight := (nodeAt t2.node a).weight + (nodeAt t2.node b).weight, left := b, right := a } t2

/-- The loop of R160, `while PQ_SIZE > 1`. Each round takes two members and adds one, so `fuel = PQ_SIZE` bounds it
exactly (log 18). -/
def mergeLoop : (fuel : Nat) → TreeBuilder → Except Fault TreeBuilder
  | 0, t => .ok t
  | fuel + 1, t =>
    if 1 < t.pqSize.val then do
      let t1 ← mergeRound t
      mergeLoop fuel t1
    else .ok t

/-- The three nodes of the degenerate tree (R162): the only leaf 0 as LEFT child, a placeholder 1 as RIGHT child of 2. -/
def topOverLeaf (t : TreeBuilder) : TreeBuilder :=
  let ph : Node := { kind := .placeholder, sym := 0, weight := 0, left := 0, right := 0 }
  let top : Node := { kind := .internal, sym := 0, weight := (nodeAt t.node 0).weight, left := 0, right := 1 }
  { t with node := nodeSet (nodeSet t.node 1 ph) 2 top, next := 3, root := 2 }

/-- The degenerate tree of R162, for exactly one distinct byte value; the placeholder is not queued. -/
def degenerateTree (t : TreeBuilder) : Except Fault TreeBuilder := do
  let (_, t1) ← pqRemoveMin t
  .ok (topOverLeaf t1)

/-- The tree of R160: merge until one member remains, which is the root. -/
def mergedTree (t : TreeBuilder) : Except Fault TreeBuilder := do
  let t1 ← mergeLoop t.pqSize.val t
  let (r, t2) ← pqRemoveMin t1
  .ok { t2 with root := r }

/-- TB_MERGE (R160, R162). -/
def execTbMerge (s : State) : Host.Outcome State Fault Refusal :=
  outcome do
    let t ← lift (if s.symCount = 1 then degenerateTree s.tree else mergedTree s.tree)
    let p : BitVec 4 := match s.op with
      | .encode => 5
      | .decode => 11
    .ok (setPhase p { s with tree := t })

end Sys2Proof.Machine
end

