-- ==== Sys2Proof/Machine/Dispatch.lean ====
section
/-! DEFINITION. The dispatch: one arm per instruction, each a direct call of its meaning. -/
namespace Sys2Proof.Machine

def exec (i : Instr) (s : State) : Host.Outcome State Fault Refusal :=
  match i with
  | .nop => Sys2Proof.Machine.execNop s
  | .encode => Sys2Proof.Machine.execEncode s
  | .decode => Sys2Proof.Machine.execDecode s
  | .clear => Sys2Proof.Machine.execClear s
  | .fcClear => Sys2Proof.Machine.execFcClear s
  | .fcCount => Sys2Proof.Machine.execFcCount s
  | .tbLeaves => Sys2Proof.Machine.execTbLeaves s
  | .tbMerge => Sys2Proof.Machine.execTbMerge s
  | .ctWalk => Sys2Proof.Machine.execCtWalk s
  | .hdrEmit => Sys2Proof.Machine.execHdrEmit s
  | .encBody => Sys2Proof.Machine.execEncBody s
  | .bwFlush => Sys2Proof.Machine.execBwFlush s
  | .hdrParse => Sys2Proof.Machine.execHdrParse s
  | .hdrCheck => Sys2Proof.Machine.execHdrCheck s
  | .decWalk => Sys2Proof.Machine.execDecWalk s

end Sys2Proof.Machine
end

