-- ==== Sys2Proof/WellFormed.lean ====
section
/-! DEFINITION. Which bit patterns select an instruction (30_encoding R91, R93, R107, R108). The rows have no operands,
so an instruction is well formed whenever it is one of the fifteen; the checks are on the selectors. -/
namespace Sys2Proof

/-- R91, R107: bits 63:2 of a command word must be 0. -/
def ctrlWordOk (w : Word) : Bool := w.extractLsb' 2 62 == 0

/-- R93, R108: the codes of phases are 1 to 11; 0 is "none" and 12 to 15 are never produced. -/
def phaseCodeOk (p : BitVec 4) : Bool := 1 ≤ p.toNat && p.toNat ≤ 11

/-- The selector selects an instruction. -/
def Selector.wf : Selector → Bool
  | .ctrl w => ctrlWordOk w
  | .phase p => phaseCodeOk p

end Sys2Proof
end

