-- ==== Sys2Proof/Decode.lean ====
section
/-! DEFINITION. The decoder (total on any selector, rejecting by name) and, after it, the encoder, both written from
30_encoding R91 and R93. -/
namespace Sys2Proof

/-- Why a selector selects nothing. -/
inductive DecodeError where
  /-- R107: "any word with a bit of 63:2 set is illegal". -/
  | reservedBits
  /-- R93: code 0, "none", after reset or CLEAR. -/
  | noPhase
  /-- R93, R108: codes 12 to 15, "never produced". -/
  | phaseNeverProduced
  deriving DecidableEq, Repr

/-- R91, R114: "reject when any of bits 63:2 of the word is set, else select the row" by bits 1:0. -/
def decodeCtrl (w : Word) : Except DecodeError Instr :=
  if w.extractLsb' 2 62 = 0 then
    match (w.extractLsb' 0 2).toNat with
    | 0 => .ok .nop
    | 1 => .ok .encode
    | 2 => .ok .decode
    | _ => .ok .clear
  else .error .reservedBits

/-- R93: the phase selected by the 4-bit code in `STATUS.PHASE`. -/
def decodePhase (p : BitVec 4) : Except DecodeError Instr :=
  match p.toNat with
  | 0 => .error .noPhase
  | 1 => .ok .fcClear
  | 2 => .ok .fcCount
  | 3 => .ok .tbLeaves
  | 4 => .ok .tbMerge
  | 5 => .ok .ctWalk
  | 6 => .ok .hdrEmit
  | 7 => .ok .encBody
  | 8 => .ok .bwFlush
  | 9 => .ok .hdrParse
  | 10 => .ok .hdrCheck
  | 11 => .ok .decWalk
  | _ => .error .phaseNeverProduced

/-- The decoder on either kind of selector. -/
def decode : Selector → Except DecodeError Instr
  | .ctrl w => decodeCtrl w
  | .phase p => decodePhase p

/-- The encoder: the selector of an instruction (the rows of R91 and R93). -/
def encode : Instr → Selector
  | .nop => .ctrl 0x0000000000000000
  | .encode => .ctrl 0x0000000000000001
  | .decode => .ctrl 0x0000000000000002
  | .clear => .ctrl 0x0000000000000003
  | .fcClear => .phase 0b0001
  | .fcCount => .phase 0b0010
  | .tbLeaves => .phase 0b0011
  | .tbMerge => .phase 0b0100
  | .ctWalk => .phase 0b0101
  | .hdrEmit => .phase 0b0110
  | .encBody => .phase 0b0111
  | .bwFlush => .phase 0b1000
  | .hdrParse => .phase 0b1001
  | .hdrCheck => .phase 0b1010
  | .decWalk => .phase 0b1011

/-- The selector that a row of opcode_table.json names: a 64-bit row is a `CTRL` word, a narrower one (4 bits, one byte
when rounded up) a `PHASE` code (R114). A pattern too large for a phase code selects none. -/
def tableSelector (nbits w : Nat) : Option Selector :=
  if 64 ≤ nbits then some (.ctrl (BitVec.ofNat 64 w))
  else if w < 16 then some (.phase (BitVec.ofNat 4 w))
  else none

/-- The instruction the decoder reads from a pattern numbered as opcode_table.json numbers it. -/
def decodeTableWord (nbits w : Nat) : Option Instr :=
  match tableSelector nbits w with
  | some sel =>
    match decode sel with
    | .ok i => some i
    | .error _ => none
  | none => none

end Sys2Proof
end

