-- ==== Sys2Proof/Machine/Transactions.lean ====
section
/-! DEFINITION. The host transactions (40_commands R120 to R123), the pseudo-instructions of a host script (30_encoding
R113) and the reset input (70_reset R260). The `CTRL` write, which runs a command, is dispatched by the sequencer. -/
namespace Sys2Proof.Machine

/-- `RegWrite(r, v)` to a register other than `CTRL` (R120): `IN_LEN` takes the value, every other number has no effect. -/
def regWrite (r v : Word) (s : State) : State := if r.toNat = 4 then { s with inLen := v } else s

/-- The value `RegRead(r)` returns (R121): outside BUSY the register's value; while BUSY only `STATUS.STATE` is defined
(10_state R32) and the rest is a free value (log 8). -/
def readValue (r : Word) (s : State) : Word :=
  if s.state = .busy then busyValue r (Config.busyRead s.freeCtr) else regValue s r

/-- `RegRead(r)` (R121): the value goes to the host; no register changes. A read while BUSY draws a free value. -/
def regRead (r : Word) (s : State) : State :=
  { s with replies := s.replies ++ [.reg r (readValue r s)]
           freeCtr := if s.state = .busy then s.freeCtr + 1 else s.freeCtr }

/-- `InWrite(a, b)` (R122): no effect at or past `IN_CAP`. -/
def inWrite (a : Word) (b : Byte) (s : State) : State :=
  if a.toNat < Config.inCap then { s with inBuf := s.inBuf.write a.toNat b } else s

/-- `OutPop()` (R123) when an unread byte exists. -/
def outPop (s : State) (h : s.outRd.toNat < s.out.length) : State :=
  { s with replies := s.replies ++ [.byte s.out[s.outRd.toNat]], outRd := s.outRd + 1 }

/-- The reset input (70_reset R260): every piece of state at its reset value; the script and what the host already
received are the host's, and the counter of free values goes on (log 5). -/
def resetInput (s : State) : State :=
  { State.reset with script := s.script, replies := s.replies, freeCtr := s.freeCtr }

/-- Whether a host action can complete now (R120, R122, R123; 20_memory R80). -/
def opEnabled (s : State) : HostOp → Bool
  | .regWrite r _ => r.toNat != 4 || s.state != .busy
  | .regRead _ => true
  | .inWrite _ _ => s.state != .busy
  | .outPop => s.outRd.toNat < s.out.length
  | .wait => s.state != .busy
  | .drain => true
  | .reset => true
  | .yield => true

/-- `load <b0 ... b(k-1)>` (R113): the bytes from address 0 up, then `wr IN_LEN, k`. -/
def Script.load (bs : List Byte) : List HostOp :=
  bs.mapIdx (fun k b => .inWrite (BitVec.ofNat 64 k) b) ++ [.regWrite 4 (BitVec.ofNat 64 bs.length)]

/-- `nop` (R113): `wr CTRL, 0`. -/
def Script.nop : HostOp := .regWrite 0 0

/-- `encode` (R113): `wr CTRL, 1`. -/
def Script.encode : HostOp := .regWrite 0 1

/-- `decode` (R113): `wr CTRL, 2`. -/
def Script.decode : HostOp := .regWrite 0 2

/-- `clear` (R113): `wr CTRL, 3`. -/
def Script.clear : HostOp := .regWrite 0 3

end Sys2Proof.Machine
end

