-- ==== Sys2Proof/Machine/Sequencer.lean ====
section
/-! DEFINITION. Who moves next and what it does: the head of the host's script, or the core's current phase (00_scope
R17; 10_state R33; 40_commands R120 to R124). -/
namespace Sys2Proof.Machine

/-- What the next step does: run an instruction on a state, or answer at once. -/
inductive Action where
  | run (i : Instr) (s : State)
  | answer (o : Host.Outcome State Fault Refusal)

/-- The core's turn (R33, 60_exceptions R249): while BUSY the phase in `PHASE` runs; otherwise "the sequencer simply does
nothing". -/
def coreTurn (s : State) : Action :=
  if s.state = .busy then
    match decodePhase s.phase with
    | .ok i => .run i s
    | .error _ => .answer (.fault .phaseNeverProduced)
  else .answer (.next s)

/-- `RegWrite(0, v)` (R120, R124): a legal word runs its command, a word with reserved bits set is rejected (R125). -/
def ctrlWrite (v : Word) (s : State) : Action :=
  match decodeCtrl v with
  | .ok i => .run i s
  | .error _ => .answer (.next (reject s))

/-- An enabled host action, already taken off the script of `s`. -/
def hostTurn (t : HostOp) (s : State) : Action :=
  match t with
  | .regWrite r v => if r.toNat = 0 then ctrlWrite v s else .answer (.next (regWrite r v s))
  | .regRead r => .answer (.next (regRead r s))
  | .inWrite a b => .answer (.next (inWrite a b s))
  | .outPop =>
    if h : s.outRd.toNat < s.out.length then .answer (.next (outPop s h)) else .answer (.fault .popNeverCompletes)
  | .wait => .answer (.next (regRead 1 s))
  | .drain =>
    .answer (.next { regRead 5 s with script := List.replicate (readValue 5 s).toNat .outPop ++ s.script })
  | .reset => .answer (.next (resetInput s))
  | .yield => coreTurn s

/-- The next action (log 7): an enabled host action at the head of the script goes first; one that must wait leaves the
step to the core while BUSY; one that can never complete is stuck (93 U7). -/
def nextAction (s : State) : Action :=
  match s.script with
  | [] => coreTurn s
  | t :: rest =>
    if opEnabled s t then hostTurn t { s with script := rest }
    else if s.state = .busy then coreTurn s
    else .answer (.fault .popNeverCompletes)

/-- `s` with the selector of an instruction placed where the next step takes it from (log 16): a command word as a
`CTRL` write at the head of the script, a phase code in `PHASE` with the sequencer BUSY and the host yielding. -/
def placeSelector (s : State) : Selector → State
  | .ctrl w => { s with script := .regWrite 0 w :: s.script }
  | .phase p => { s with state := .busy, phase := p, script := .yield :: s.script }

end Sys2Proof.Machine
end

