-- ==== Sys2Proof/Machine/Step.lean ====
section
/-! DEFINITION. One step of the machine, and the placement of an instruction where the next step takes it from. -/
namespace Sys2Proof.Machine

/-- One step: the next action, run. -/
def step (s : State) : Host.Outcome State Fault Refusal :=
  match nextAction s with
  | .run i s1 => exec i s1
  | .answer o => o

/-- `s` with the instruction of an opcode-table pattern placed so that the next step runs it (log 16); a pattern that
selects nothing leaves `s` as it is. -/
def State.withFetchWord (s : State) (nbits w : Nat) : State :=
  match tableSelector nbits w with
  | some sel => placeSelector s sel
  | none => s

end Sys2Proof.Machine
end

