-- ==== Sys2Proof/Safety.lean ====
section
/-! DEFINITION. The terms claims are made in: the invariant of every step, the shape of the queue and of the tree, the
bit order of the body, the reference walk of the decoder, and what it means that the input is present. -/
namespace Sys2Proof.Machine

/-! ### The invariant of every step -/

/-- The phases a command can be in (30_encoding R93, 45 R200, 46 R215). -/
def Op.phases : Op → List (BitVec 4)
  | .encode => [1, 2, 3, 4, 5, 6, 7, 8]
  | .decode => [1, 9, 10, 3, 4, 11]

/-- The rows of 60_exceptions R236 that end in ERROR, by the command that can raise them. -/
def Op.errors : Op → List Cond
  | .encode => [{ code := .invariantViolation, sub := 1 }]
  | .decode =>
    [{ code := .malformedArtifact, sub := 1 }, { code := .malformedArtifact, sub := 2 },
     { code := .malformedArtifact, sub := 3 }, { code := .malformedArtifact, sub := 4 },
     { code := .truncatedBitstream, sub := 0 }]

/-- What holds of the block between any two steps. -/
structure State.Inv (s : State) : Prop where
  /-- `IN_BUF` is in canonical form. -/
  memWf : s.inBuf.wf = true
  /-- Only addresses below `IN_CAP` are listed (10_state R58). -/
  memInside : ∀ c ∈ s.inBuf, c.1 < Config.inCap
  /-- `OUT_LEN` counts the bytes of `OUT` (R27; `OUT` is empty when a command starts, R130). -/
  outLen : s.outLen = BitVec.ofNat 64 s.out.length
  /-- The host has popped at most what was emitted (R59). -/
  outRd : s.outRd.toNat ≤ s.out.length
  /-- IDLE: everything CLEAR and reset clear is clear (R129, R130, R260). -/
  idle : s.state = .idle → s.phase = 0 ∧ s.op = .encode ∧ s.fatal = false ∧ s.cond = { code := .ok, sub := 0 } ∧
    s.errPos = 0 ∧ s.bitCount = 0 ∧ s.symCount = 0 ∧ s.origLen = 0 ∧ s.out = [] ∧ s.outRd = 0
  /-- BUSY: a phase of the command, the latched length, no error yet (R26, R33, R124, R130). -/
  busy : s.state = .busy → s.phase ∈ s.op.phases ∧ s.fatal = false ∧ s.cond = { code := .ok, sub := 0 } ∧
    s.errPos = 0 ∧ s.len = s.inLen ∧ s.len.toNat ≤ Config.inCap
  /-- BUSY after FC_CLEAR: `IN_PTR` never exceeds `LEN` (R33). -/
  inPtr : s.state = .busy → s.phase ≠ 1 → s.inPtr ≤ s.len
  /-- BUSY before ENC_BODY: nothing emitted, no body bit written or read (45 R200, 46 R220). -/
  fresh : s.state = .busy → s.phase ≠ 7 → s.phase ≠ 8 → s.out = [] ∧ s.bitCount = 0
  /-- An ENCODE after FC_CLEAR: `ORIG_LEN` is the input length (R30). -/
  encodes : s.state = .busy → s.op = .encode → s.phase ≠ 1 → s.origLen = s.len
  /-- A DECODE after FC_CLEAR: no bit of the body is held, and `IN_PTR` is where the next phase starts (46 R216, R220). -/
  decodes : s.state = .busy → s.op = .decode → s.phase ≠ 1 →
    s.rdNbits = 0 ∧ (s.phase = 9 → s.inPtr = 0) ∧ (s.phase ≠ 9 → s.inPtr = 2056)
  /-- DONE: OK or EMPTY_INPUT, `ERR_POS = 0` (R25, R131). -/
  done : s.state = .done → s.fatal = false ∧ s.errPos = 0 ∧
    (s.cond = { code := .ok, sub := 0 } ∨ s.cond = { code := .emptyInput, sub := 0 })
  /-- ERROR: a row of R236 that the command can raise; `FATAL` exactly for InvariantViolation (R240). -/
  error : s.state = .error → s.cond ∈ s.op.errors ∧ (s.fatal = true ↔ s.cond.code = .invariantViolation)

/-- A `CTRL` write of `v` that is rejected: the rejecting rows of 40_commands R124, the reasons of R125. -/
def Rejected (s : State) (v : Word) : Prop :=
  v.extractLsb' 2 62 ≠ 0 ∨
  (v ≠ 0 ∧ s.fatal = true) ∨
  (v = 3 ∧ s.state = .busy) ∨
  ((v = 1 ∨ v = 2) ∧ (s.state ≠ .idle ∨ Config.inCap < s.inLen.toNat))

/-! ### Input present, sums, symbols -/

/-- The bytes `IN_BUF[a], ..., IN_BUF[a + bs.length - 1]` are `bs`. -/
def Memory.holds (m : Memory) (a : Nat) (bs : List Byte) : Prop :=
  ∀ k (h : k < bs.length), m.read (a + k) = some bs[k]

/-- The exact sum of the 256 counts (30_encoding R109). -/
def countSum (freq : Freq) : Nat := (freq.toList.map BitVec.toNat).sum

/-- The byte values 0 to 255 in ascending order. -/
def allBytes : List Byte := (List.range 256).map (BitVec.ofNat 8)

/-- The byte values with a non-zero count, ascending (10_state R41, 42 R158). -/
def symbolsOf (freq : Freq) : List Byte := allBytes.filter fun b => freqAt freq b != 0

/-- The frequency map of an input (41 R140): how often each byte value occurs. -/
def freqOf (bs : List Byte) : Freq := Vector.ofFn fun x : Fin 256 => BitVec.ofNat 64 (bs.count (BitVec.ofNat 8 x.val))

/-! ### The priority queue -/

/-- The members of the queue, `HEAP[0..PQ_SIZE-1]` (42 R152). -/
def TreeBuilder.members (t : TreeBuilder) : List NodeIx := t.heap.toList.take t.pqSize.val

/-- The heap invariant (42 R155): no member is less than its parent. -/
def TreeBuilder.HeapOk (t : TreeBuilder) : Prop :=
  ∀ k : Fin 256, 1 ≤ k.val → k.val < t.pqSize.val → less t.node (heapAt t.heap k) (heapAt t.heap (parent k)) = false

/-- The queue of the tree builder between rounds: members are distinct written nodes (42 R152). -/
structure TreeBuilder.QueueOk (t : TreeBuilder) : Prop where
  heap : t.HeapOk
  nodup : t.members.Nodup
  written : ∀ i ∈ t.members, i.val < t.next.val

/-- The member a linear scan for the least finds (42 R156, 93 G1). -/
def scanMin (node : Arena) : NodeIx → List NodeIx → NodeIx
  | m, [] => m
  | m, i :: q => if less node i m then scanMin node i q else scanMin node m q

/-- The merge loop over a plain list of members, the least found by a scan (42 R156, R160): the arena, the next free
index and the root. -/
def scanMerge : (rounds : Nat) → List NodeIx → Arena → Nat → Option (Arena × Nat × NodeIx)
  | _, [], _, _ => none
  | _, [r], node, next => some (node, next, r)
  | 0, _, _, _ => none
  | rounds + 1, m :: q, node, next =>
    let a := scanMin node m q
    let q1 := (m :: q).erase a
    match q1 with
    | [] => none
    | m1 :: q' =>
      let b := scanMin node m1 q'
      if h : next < 511 then
        let n : Node := { kind := .internal, sym := 0, weight := (nodeAt node a).weight + (nodeAt node b).weight
                          left := b, right := a }
        scanMerge rounds (⟨next, h⟩ :: q1.erase b) (nodeSet node ⟨next, h⟩ n) (next + 1)
      else none

/-! ### The tree -/

/-- The node at the end of a path of branch bits, 0 for LEFT and 1 for RIGHT (30_encoding R103, 43 R175); only an INTERNAL
node has children (10_state R45). -/
def follow (node : Arena) : NodeIx → List Bool → Option NodeIx
  | i, [] => some i
  | i, v :: p =>
    if (nodeAt node i).kind = .internal then follow node (if v then (nodeAt node i).right else (nodeAt node i).left) p else none

/-- The path from `root` ends at the leaf of byte value `x`. -/
def LeafPath (node : Arena) (root : NodeIx) (p : List Bool) (x : Byte) : Prop :=
  ∃ i, follow node root p = some i ∧ (nodeAt node i).kind = .leaf ∧ (nodeAt node i).sym = x

/-- The tree invariants that the code walk and the decoder rest on (10_state R46, 00_scope R11). -/
structure TreeOk (node : Arena) (root : NodeIx) : Prop where
  /-- The root is INTERNAL: "a single leaf cannot be the root alone". -/
  rootInternal : (nodeAt node root).kind = .internal
  /-- No path is longer than 255 bits. -/
  short : ∀ p i, follow node root p = some i → p.length ≤ 255
  /-- Each byte value is at the end of at most one path. -/
  onePath : ∀ p q x, LeafPath node root p x → LeafPath node root q x → p = q

/-- "Bits `BITS[LEN..254]` are 0" (10_state R54). -/
def CodeEntry.Clean (c : CodeEntry) : Prop := ∀ k, c.len.toNat ≤ k → c.bits.getLsbD k = false

/-! ### Bits of the body -/

/-- The bits of a byte, bit 7 first (20_memory R71). -/
def byteBits (b : Byte) : List Bool := (List.range 8).map fun k => b.getLsbD (7 - k)

/-- The bit string of a sequence of bytes (20_memory R71). -/
def bytesBits (bs : List Byte) : List Bool := bs.flatMap byteBits

/-- The code bits of an input under a code table, in input order (30_encoding R99). -/
def bodyBits (c : CodeTable) (bs : List Byte) : List Bool := bs.flatMap fun b => (codeAt c.code b).toBits

/-- A body: the bytes that hold the bits `w` MSB-first, the last byte zero-padded (30_encoding R99). -/
def IsBody (w : List Bool) (body : List Byte) : Prop :=
  bytesBits body = w ++ List.replicate ((8 - w.length % 8) % 8) false

/-- The bits the writer still holds, `ACC[7], ..., ACC[8 - NBITS]` (44 R189). -/
def pendingBits (s : State) : List Bool := (byteBits s.acc).take s.nbits.toNat

/-- "`ACC[7 - NBITS : 0] = 0`" (44 R189). -/
def AccClean (s : State) : Prop := ∀ k, k < 8 - s.nbits.toNat → s.acc.getLsbD k = false

/-- The bits the reader still holds, the top `RD_NBITS` bits of `RD_BYTE` (10_state R35, 44 R190). -/
def heldBits (s : State) : List Bool := (byteBits s.rdByte).take s.rdNbits.val

/-- The bytes of `IN_BUF` from `IN_PTR` up to `LEN` are `rest`: what the reader has not fetched yet (44 R190). -/
structure Unread (s : State) (rest : List Byte) : Prop where
  present : s.inBuf.holds s.inPtr.toNat rest
  length : s.inPtr.toNat + rest.length = s.len.toNat

/-- `n` calls of `BR_GET_BIT`: the bits delivered and the state after them (44 R190). -/
def brGetBits : Nat → State → Run (List Bool × State)
  | 0, s => .ok ([], s)
  | n + 1, s => do
    let (v, s1) ← brGetBit s
    let (vs, s2) ← brGetBits n s1
    .ok (v :: vs, s2)

/-! ### Runs -/

/-- `k` steps in a row, none of which stops. -/
def steps : Nat → State → Option State
  | 0, s => some s
  | k + 1, s =>
    match step s with
    | .next t => steps k t
    | .fault _ => none
    | .refused _ => none

/-- An idle block in which the host has loaded `bs` and written one command word: what 70_reset R264 asks for, and
nothing else pending. -/
structure Loaded (s : State) (cmd : Word) (bs : List Byte) : Prop where
  inv : s.Inv
  idle : s.state = .idle
  script : s.script = [.regWrite 0 cmd]
  length : s.inLen.toNat = bs.length
  fits : bs.length ≤ Config.inCap
  present : s.inBuf.holds 0 bs

/-! ### The decoder's walk -/

/-- How the walk of 46 R220 ends. -/
inductive WalkEnd where
  | finished | truncated | placeholder
  deriving DecidableEq, Repr

/-- What the walk leaves: the bytes emitted, the bits consumed, where it stands, how it ended. -/
structure WalkResult where
  bytes : List Byte
  used  : Nat
  cur   : NodeIx
  at_   : WalkState
  how   : WalkEnd
  deriving DecidableEq, Repr

/-- The walk of 46 R220 and R221 over a plain list of bits, standing on `cur`, `need` symbols still to come. -/
def refWalk (node : Arena) (root : NodeIx) : NodeIx → WalkState → Nat → List Bool → WalkResult
  | cur, w, 0, _ => { bytes := [], used := 0, cur := cur, at_ := w, how := .finished }
  | cur, w, _ + 1, [] => { bytes := [], used := 0, cur := cur, at_ := w, how := .truncated }
  | cur, w, need + 1, v :: bits =>
    let c := if v then (nodeAt node cur).right else (nodeAt node cur).left
    match (nodeAt node c).kind with
    | .leaf =>
      let r := refWalk node root root .atRoot need bits
      { r with bytes := (nodeAt node c).sym :: r.bytes, used := r.used + 1 }
    | .internal =>
      let r := refWalk node root c .atInternalNode (need + 1) bits
      { r with used := r.used + 1 }
    | .placeholder => { bytes := [], used := 1, cur := c, at_ := w, how := .placeholder }

end Sys2Proof.Machine
end

