-- ==== Sys2Proof/Certificates/Slice0/Obligations.lean ====
section
/-! DEFINITION. The statements about the model, in the order of OBLIGATIONS.json. -/

open Sys2Proof Sys2Proof.Machine

/-! ### Parameter, reset, invariant -/

/-- The range of `IN_CAP` and the two bounds on it that 00_scope R13 names (the model's constant, log 1). That the counters
stay below those bounds is no part of this statement. -/
def Obligations.InputCapacityIsInRange : Prop :=
  2056 ≤ Config.inCap ∧ Config.inCap ≤ 2 ^ 56 ∧ 255 * Config.inCap < 2 ^ 64 ∧ 2056 + 32 * Config.inCap < 2 ^ 64

/-- 70_reset R260: the reset input, in any state, and the machine right after reset. -/
def Obligations.ResetClearsEveryHostRegister : Prop :=
  ∀ (s : State) (rest : List HostOp), s.script = .reset :: rest →
    ∃ t, step s = .next t ∧ ∀ u ∈ [t, State.reset],
      u.state = .idle ∧ u.phase = 0 ∧ u.op = .encode ∧ u.cmdRej = false ∧ u.fatal = false ∧
      u.cond = { code := .ok, sub := 0 } ∧ u.errPos = 0 ∧ u.inLen = 0 ∧ u.outLen = 0 ∧ u.bitCount = 0 ∧
      u.symCount = 0 ∧ u.origLen = 0 ∧ u.out = [] ∧ u.outRd = 0 ∧ doneLine u = false ∧ ∀ r, regValue u r = 0

/-- The machine after reset has the invariant (70_reset R260; the canonical form of the memory is the model's, log 4). -/
def Obligations.ResetHasTheInvariant : Prop := State.reset.Inv

/-- Every step keeps the invariant of Safety.lean, from every state that has it. -/
def Obligations.EveryStepKeepsTheInvariant : Prop := ∀ s t : State, s.Inv → step s = .next t → t.Inv

/-- A memory in canonical form is determined by what its bytes read as; a write keeps the form, is read back, and leaves
every other byte alone (log 4). -/
def Obligations.InputBufferIsCanonical : Prop :=
  (∀ m m' : Memory, m.wf = true → m'.wf = true → (∀ a, m.read a = m'.read a) → m = m') ∧
  ∀ (m : Memory) (a : Nat) (b : Byte), m.wf = true →
    (m.write a b).wf = true ∧ (m.write a b).read a = some b ∧ ∀ a', a' ≠ a → (m.write a b).read a' = m.read a'

/-! ### Selection and dispatch -/

/-- Sanity of the decoder on the rows of 30_encoding R91 and R93 and on patterns they exclude. -/
def Obligations.TableRowsDecode : Prop :=
  decode (.ctrl 0x0000000000000000) = .ok .nop ∧ decode (.ctrl 0x0000000000000001) = .ok .encode ∧
  decode (.ctrl 0x0000000000000002) = .ok .decode ∧ decode (.ctrl 0x0000000000000003) = .ok .clear ∧
  decode (.ctrl 0x0000000000000004) = .error .reservedBits ∧ decode (.ctrl 0x8000000000000001) = .error .reservedBits ∧
  decode (.phase 0b0000) = .error .noPhase ∧ decode (.phase 0b0001) = .ok .fcClear ∧
  decode (.phase 0b0011) = .ok .tbLeaves ∧ decode (.phase 0b0101) = .ok .ctWalk ∧
  decode (.phase 0b1000) = .ok .bwFlush ∧ decode (.phase 0b1011) = .ok .decWalk ∧
  decode (.phase 0b1100) = .error .phaseNeverProduced ∧ decode (.phase 0b1111) = .error .phaseNeverProduced

/-- 30_encoding R91: a command word selects an instruction exactly when it is one of the four legal words; with the phase
codes, decoding and encoding are inverse on every bit pattern. -/
def Obligations.DecodeAndEncodeAgree : Prop :=
  (∀ (sel : Selector) (i : Instr), decode sel = .ok i ↔ sel = encode i) ∧
  (∀ (w : Word) (i : Instr), decode (.ctrl w) = .ok i ↔
    (w = 0x0 ∧ i = .nop) ∨ (w = 0x1 ∧ i = .encode) ∨ (w = 0x2 ∧ i = .decode) ∨ (w = 0x3 ∧ i = .clear)) ∧
  (∀ w : Word, decode (.ctrl w) = .error .reservedBits ↔ w.extractLsb' 2 62 ≠ 0) ∧
  ∀ sel : Selector, sel.wf = true ↔ ∃ i, decode sel = .ok i

/-- A step runs the selected instruction: of a `CTRL` write, or of `PHASE` while BUSY when the host has nothing to do,
yields or must wait; without a command and a host action it changes nothing (log 6, 7). That BUSY with a `PHASE` code of no
phase is the fault `phaseNeverProduced` is the model's own choice (DESIGN CHOICE, log 13): the spec says only that such a code
never occurs (30_encoding R108, 93 U5). -/
def Obligations.StepRunsTheSelectedInstruction : Prop :=
  (∀ (s : State) (r v : Word) (rest : List HostOp) (i : Instr), s.script = .regWrite r v :: rest → r.toNat = 0 →
    decodeCtrl v = .ok i → step s = exec i { s with script := rest }) ∧
  (∀ (s : State) (i : Instr), s.state = .busy → decodePhase s.phase = .ok i →
    (s.script = [] → step s = exec i s) ∧
    (∀ rest, s.script = .yield :: rest → step s = exec i { s with script := rest }) ∧
    (∀ op rest, s.script = op :: rest → opEnabled s op = false → step s = exec i s)) ∧
  (∀ s : State, s.state ≠ .busy → s.script = [] → step s = .next s) ∧
  (∀ (s : State) (e : DecodeError), s.state = .busy → s.script = [] → decodePhase s.phase = .error e →
    step s = .fault .phaseNeverProduced)

/-- The placement of an opcode-table pattern is what the next step runs (log 16). -/
def Obligations.PlacedPatternIsRunNext : Prop :=
  ∀ (s : State) (i : Instr),
    (∀ w : Word, decodeCtrl w = .ok i →
      decodeTableWord 64 w.toNat = some i ∧ step (s.withFetchWord 64 w.toNat) = exec i s) ∧
    ∀ p : BitVec 4, decodePhase p = .ok i →
      decodeTableWord 8 p.toNat = some i ∧
        step (s.withFetchWord 8 p.toNat) = exec i { s with state := .busy, phase := p }

/-- 40_commands R126: NOP has no effect at all, in every state. -/
def Obligations.NopChangesNothing : Prop :=
  ∀ s : State, exec .nop s = .next s ∧
    ∀ rest, s.script = .regWrite 0 0 :: rest → step s = .next { s with script := rest }

/-- 40_commands R130: the start of an accepted ENCODE or DECODE. -/
def Obligations.AcceptedCommandStarts : Prop :=
  ∀ s : State, s.fatal = false → s.state = .idle → s.inLen.toNat ≤ Config.inCap →
    exec .encode s = .next
      { s with state := .busy, op := .encode, len := s.inLen, cond := { code := .ok, sub := 0 }, errPos := 0
               outLen := 0, bitCount := 0, symCount := 0, origLen := 0, phase := 1 } ∧
    exec .decode s = .next
      { s with state := .busy, op := .decode, len := s.inLen, cond := { code := .ok, sub := 0 }, errPos := 0
               outLen := 0, bitCount := 0, symCount := 0, origLen := 0, phase := 1 } ∧
    (s.Inv → s.out = [] ∧ s.outRd = 0)

/-- 40_commands R129: CLEAR when it is accepted, and that in IDLE it only clears `CMD_REJ`. -/
def Obligations.ClearRestoresIdle : Prop :=
  ∀ s : State, s.fatal = false → s.state ≠ .busy →
    exec .clear s = .next
      { s with state := .idle, phase := 0, op := .encode, cmdRej := false, cond := { code := .ok, sub := 0 }
               errPos := 0, outLen := 0, bitCount := 0, symCount := 0, origLen := 0, out := [], outRd := 0 } ∧
    (s.Inv → s.state = .idle → exec .clear s = .next { s with cmdRej := false })

/-- 40_commands R124 and R125: the dispatch table of a `CTRL` write, its rows in their order, and that a rejected write
does `CMD_REJ <- 1` and nothing else. -/
def Obligations.CtrlWriteFollowsTheDispatchTable : Prop :=
  ∀ (s : State) (v : Word) (rest : List HostOp), s.script = .regWrite 0 v :: rest →
    let s0 : State := { s with script := rest }
    let rejected : State := { s0 with cmdRej := true }
    if v.extractLsb' 2 62 ≠ 0 then step s = .next rejected
    else if v = 0 then step s = .next s0
    else if s.fatal = true then step s = .next rejected
    else if v = 3 ∧ s.state = .busy then step s = .next rejected
    else if v = 3 then step s = .next (acknowledge s0)
    else if s.state ≠ .idle then step s = .next rejected
    else if Config.inCap < s.inLen.toNat then step s = .next rejected
    else if v = 1 then step s = .next (start .encode s0)
    else v = 2 ∧ step s = .next (start .decode s0)

/-- 60_exceptions R241: `FATAL = 1` makes the dispatcher reject every command except NOP; only reset clears it. -/
def Obligations.FatalIsLeftOnlyByReset : Prop :=
  ∀ s : State, s.fatal = true →
    (∀ i ∈ [Instr.encode, Instr.decode, Instr.clear], exec i s = .next { s with cmdRej := true }) ∧
    exec .nop s = .next s ∧
    ∀ t, step s = .next t → s.script.head? ≠ some .reset → t.fatal = true

/-- The flags `CMD_REJ` and `FATAL` change only where 10_state R34 says so: `CMD_REJ` is set by a REJECTED `CTRL` write
(40_commands R124, R125) and cleared by an accepted CLEAR or by reset; `FATAL` is set by a raised InvariantViolation and
cleared by reset. -/
def Obligations.FlagsChangeOnlyWhereStated : Prop :=
  ∀ s t : State, step s = .next t →
    (t.cmdRej ≠ s.cmdRej →
      (t.cmdRej = true ∧ ∃ r v rest, s.script = .regWrite r v :: rest ∧ r.toNat = 0 ∧ Rejected s v) ∨
      (t.cmdRej = false ∧ s.fatal = false ∧ s.state ≠ .busy ∧ ∃ r rest, s.script = .regWrite r 3 :: rest ∧ r.toNat = 0) ∨
      (t.cmdRej = false ∧ ∃ rest, s.script = .reset :: rest)) ∧
    (t.fatal ≠ s.fatal →
      (t.fatal = true ∧ s.state = .busy ∧ s.phase = 7 ∧ t.state = .error ∧
        t.cond = { code := .invariantViolation, sub := 1 }) ∨
      (t.fatal = false ∧ ∃ rest, s.script = .reset :: rest))

/-- 40_commands R133: the transitions of `STATE` and what causes each; `PHASE` changes only with them or by the phase that
runs. -/
def Obligations.ProtocolTransitionsAreTheStatedOnes : Prop :=
  ∀ s t : State, step s = .next t →
    (t.state ≠ s.state →
      (s.state = .idle ∧ t.state = .busy ∧ s.fatal = false ∧ s.inLen.toNat ≤ Config.inCap ∧
        ∃ r v rest, s.script = .regWrite r v :: rest ∧ r.toNat = 0 ∧ (v = 1 ∨ v = 2)) ∨
      (s.state = .busy ∧ t.state = .done ∧ t.errPos = 0 ∧ t.phase = s.phase ∧
        (t.cond = { code := .ok, sub := 0 } ∨ t.cond = { code := .emptyInput, sub := 0 })) ∨
      (s.state = .busy ∧ t.state = .error ∧ t.errPos = t.inPtr ∧ t.phase = s.phase) ∨
      ((s.state = .done ∨ s.state = .error) ∧ t.state = .idle ∧ s.fatal = false ∧
        ∃ r rest, s.script = .regWrite r 3 :: rest ∧ r.toNat = 0) ∨
      (t.state = .idle ∧ ∃ rest, s.script = .reset :: rest)) ∧
    (t.phase ≠ s.phase →
      (s.state = .idle ∧ t.state = .busy ∧ t.phase = 1) ∨ (s.state = .busy ∧ t.state = .busy ∧ t.op = s.op) ∨
      (t.state = .idle ∧ t.phase = 0))

/-- 45_encoder R200 and 46_decoder R215: the phase that follows each phase, and where the command ends. -/
def Obligations.PhasesFollowTheirSequence : Prop :=
  ∀ (i : Instr) (s t : State), exec i s = .next t →
    let goesTo (p : BitVec 4) : Prop := t.phase = p ∧ t.state = s.state ∧ t.cond = s.cond
    let finishes (c : CondCode) : Prop := t.phase = s.phase ∧ t.state = .done ∧ t.cond = { code := c, sub := 0 }
    let raises (c : Cond) : Prop := t.phase = s.phase ∧ t.state = .error ∧ t.cond = c
    (i = .fcClear → goesTo (if s.op = .encode then 2 else 9)) ∧
    (i = .fcCount → goesTo (if s.len = 0 then 6 else 3)) ∧
    (i = .tbLeaves → goesTo 4) ∧
    (i = .tbMerge → goesTo (if s.op = .encode then 5 else 11)) ∧
    (i = .ctWalk → goesTo 6) ∧
    (i = .hdrEmit → if s.len = 0 then finishes .emptyInput else goesTo 7) ∧
    (i = .encBody → goesTo 8 ∨ raises { code := .invariantViolation, sub := 1 }) ∧
    (i = .bwFlush → finishes .ok) ∧
    (i = .hdrParse → goesTo 10 ∨ raises { code := .malformedArtifact, sub := 1 }) ∧
    (i = .hdrCheck → (if s.origLen = 0 then finishes .emptyInput else goesTo 3) ∨
      raises { code := .malformedArtifact, sub := 2 } ∨ raises { code := .malformedArtifact, sub := 3 }) ∧
    (i = .decWalk → finishes .ok ∨ raises { code := .truncatedBitstream, sub := 0 } ∨
      raises { code := .malformedArtifact, sub := 4 })

/-- 60_exceptions R246: `done` is 1 exactly in DONE and ERROR, and falls only with an accepted CLEAR or reset. -/
def Obligations.DoneLineFollowsState : Prop :=
  ∀ s : State, (doneLine s = true ↔ s.state = .done ∨ s.state = .error) ∧
    ∀ t, step s = .next t → doneLine s = true → doneLine t = false →
      (∃ rest, s.script = .reset :: rest) ∨
      (s.fatal = false ∧ ∃ r rest, s.script = .regWrite r 3 :: rest ∧ r.toNat = 0)

/-! ### Host transactions -/

/-- 40_commands R120: `RegWrite`. -/
def Obligations.RegWriteActsByRegisterNumber : Prop :=
  ∀ (s : State) (r v : Word) (rest : List HostOp), s.script = .regWrite r v :: rest →
    let s0 : State := { s with script := rest }
    (r.toNat = 0 → (∀ i, decodeCtrl v = .ok i → step s = exec i s0) ∧
      (∀ e, decodeCtrl v = .error e → step s = .next { s0 with cmdRej := true })) ∧
    (r.toNat = 4 → s.state ≠ .busy → step s = .next { s0 with inLen := v }) ∧
    (r.toNat = 4 → s.state = .busy → ∀ i, decodePhase s.phase = .ok i → step s = exec i s) ∧
    (r.toNat ≠ 0 → r.toNat ≠ 4 → step s = .next s0)

/-- 40_commands R121: `RegRead`, with the words of `STATUS` and `COND` (10_state R23, R24). The list of
replies and the counter of free values are the model's own fields (log 8, 10). -/
def Obligations.RegReadReturnsTheRegister : Prop :=
  ∀ (s : State) (r : Word) (rest : List HostOp), s.script = .regRead r :: rest →
    ∃ v : Word, step s = .next
        { s with script := rest, replies := s.replies ++ [.reg r v]
                 freeCtr := if s.state = .busy then s.freeCtr + 1 else s.freeCtr } ∧
      (r.toNat = 0 ∨ 9 ≤ r.toNat → v = 0) ∧
      (s.state = .busy → r.toNat = 1 → v.toNat % 4 = 1) ∧
      (s.state ≠ .busy →
        (r.toNat = 1 → v.toNat =
          (match s.state with
            | .idle => 0
            | .busy => 1
            | .done => 2
            | .error => 3) + 4 * s.phase.toNat + 64 * s.cmdRej.toNat + 128 * s.fatal.toNat +
          256 * (match s.op with
            | .encode => 0
            | .decode => 1)) ∧
        (r.toNat = 2 → v.toNat =
          (match s.cond.code with
            | .ok => 0
            | .emptyInput => 1
            | .malformedArtifact => 2
            | .truncatedBitstream => 3
            | .invariantViolation => 4) + 16 * s.cond.sub.toNat) ∧
        (r.toNat = 3 → v = s.errPos) ∧ (r.toNat = 4 → v = s.inLen) ∧ (r.toNat = 5 → v = s.outLen) ∧
        (r.toNat = 6 → v = s.bitCount) ∧ (r.toNat = 7 → v.toNat = s.symCount.toNat) ∧ (r.toNat = 8 → v = s.origLen))

/-- 40_commands R122: `InWrite`. -/
def Obligations.InWriteStoresBelowCapacity : Prop :=
  ∀ (s : State) (a : Word) (b : Byte) (rest : List HostOp), s.script = .inWrite a b :: rest →
    (s.state ≠ .busy → a.toNat < Config.inCap →
      ∃ m, step s = .next { s with script := rest, inBuf := m } ∧ m.read a.toNat = some b ∧
        ∀ a', a' ≠ a.toNat → m.read a' = s.inBuf.read a') ∧
    (s.state ≠ .busy → Config.inCap ≤ a.toNat → step s = .next { s with script := rest }) ∧
    (s.state = .busy → ∀ i, decodePhase s.phase = .ok i → step s = exec i s)

/-- `OutPop` (40_commands R123); that it never completes without an unread byte and a running command is the stop
`popNeverCompletes` (93 U7, log 9). -/
def Obligations.OutPopDeliversInOrder : Prop :=
  ∀ (s : State) (rest : List HostOp), s.script = .outPop :: rest →
    (∀ h : s.outRd.toNat < s.out.length, step s = .next
      { s with script := rest, replies := s.replies ++ [.byte s.out[s.outRd.toNat]], outRd := s.outRd + 1 }) ∧
    (s.out.length ≤ s.outRd.toNat → s.state ≠ .busy → step s = .fault .popNeverCompletes) ∧
    (s.out.length ≤ s.outRd.toNat → s.state = .busy → ∀ i, decodePhase s.phase = .ok i → step s = exec i s)

/-- 20_memory R80: while BUSY no step of the host changes `IN_BUF` or `IN_LEN` (short of the reset input, 70_reset R260);
the transactions that would are still pending after it. -/
def Obligations.HostCannotChangeTheInputWhileBusy : Prop :=
  ∀ s t : State, s.state = .busy → step s = .next t → s.script.head? ≠ some .reset →
    t.inBuf = s.inBuf ∧ t.inLen = s.inLen ∧
    ∀ op rest, s.script = op :: rest → ((∃ a b, op = .inWrite a b) ∨ ∃ r v, op = .regWrite r v ∧ r.toNat = 4) →
      t.script = s.script

/-- 20_memory R81: `OUT` grows only by appending (until an accepted CLEAR or reset empties it), and pops deliver it in
order. -/
def Obligations.OutputGrowsOnlyByAppending : Prop :=
  ∀ s t : State, step s = .next t →
    ((∃ rest, s.script = .reset :: rest) ∨
      (s.fatal = false ∧ s.state ≠ .busy ∧ ∃ r rest, s.script = .regWrite r 3 :: rest ∧ r.toNat = 0)) ∨
    ((∃ bs, t.out = s.out ++ bs) ∧
      (t.outRd = s.outRd ∨
        t.outRd = s.outRd + 1 ∧ ∃ h : s.outRd.toNat < s.out.length, t.replies = s.replies ++ [.byte s.out[s.outRd.toNat]]))

/-- The pseudo-instructions `wait` and `drain` (30_encoding R113), and that a `wait` lets the core run while BUSY; the polls
made meanwhile are not recorded (log 11). -/
def Obligations.WaitAndDrainExpand : Prop :=
  ∀ (s : State) (rest : List HostOp),
    (s.script = .wait :: rest → s.state ≠ .busy →
      step s = .next { s with script := rest, replies := s.replies ++ [.reg 1 (statusWord s)] }) ∧
    (s.script = .wait :: rest → s.state = .busy → ∀ i, decodePhase s.phase = .ok i → step s = exec i s) ∧
    (s.script = .drain :: rest → s.state ≠ .busy → step s = .next
      { s with script := List.replicate s.outLen.toNat .outPop ++ rest, replies := s.replies ++ [.reg 5 s.outLen] })

/-! ### The frequency counter -/

/-- 41 R141: FC_CLEAR. -/
def Obligations.FcClearResult : Prop :=
  ∀ s : State, exec .fcClear s = .next
    { s with freq := Vector.replicate 256 0, inPtr := 0, acc := 0, nbits := 0, rdNbits := 0
             origLen := if s.op = .encode then s.len else s.origLen
             phase := if s.op = .encode then 2 else 9 }

/-- 41 R142: FC_COUNT adds to each count how often its byte value occurs in the input. -/
def Obligations.FcCountCountsTheInput : Prop :=
  ∀ (s : State) (bs : List Byte), bs.length = s.len.toNat → s.inBuf.holds 0 bs →
    ∃ freq : Freq, exec .fcCount s = .next
        { s with inPtr := if s.len = 0 then s.inPtr else s.len, freq := freq, phase := if s.len = 0 then 6 else 3 } ∧
      ∀ x, freqAt freq x = freqAt s.freq x + BitVec.ofNat 64 (bs.count x)

/-- 41 R145: from a cleared table, every count is exact and the counts sum to the length; no later phase of an ENCODE
writes `FREQ`. -/
def Obligations.CountsAreExactAndSumToLength : Prop :=
  (∀ (s t : State) (bs : List Byte), bs.length = s.len.toNat → s.inBuf.holds 0 bs →
    s.freq = Vector.replicate 256 0 → exec .fcCount s = .next t →
    (∀ x, (freqAt t.freq x).toNat = bs.count x) ∧ countSum t.freq = s.len.toNat) ∧
  ∀ (i : Instr) (s t : State), i ∈ [Instr.tbLeaves, .tbMerge, .ctWalk, .hdrEmit, .encBody, .bwFlush] →
    exec i s = .next t → t.freq = s.freq

/-- A byte below `LEN` that nobody wrote since reset is a fault of the model where the core first needs it, and only there
(70_reset R264, 93 U2; log 4): in FC_COUNT and ENC_BODY, in HDR_PARSE, and in `BR_GET_BIT`, so in DEC_WALK exactly when the
walk over the bits of the bytes before it ends for want of a bit (44 R190, 46 R220). -/
def Obligations.UnwrittenInputByteFaults : Prop :=
  (∀ (s : State) (a : Nat), a < s.len.toNat → a < Config.inCap → s.inBuf.read a = none →
    (∀ k, k < a → s.inBuf.read k ≠ none) →
    exec .fcCount s = .fault .inBufUnwritten ∧
    (2056 ≤ s.len.toNat → a < 2056 → exec .hdrParse s = .fault .inBufUnwritten)) ∧
  (∀ (s : State) (bs : List Byte), s.inBuf.holds 0 bs → (∀ b ∈ bs, (codeAt s.ct.code b).len ≠ 0) →
    bs.length < s.len.toNat → bs.length < Config.inCap → s.inBuf.read bs.length = none →
    exec .encBody s = .fault .inBufUnwritten) ∧
  (∀ s : State, s.rdNbits = 0 → s.inPtr < s.len → s.inPtr.toNat < Config.inCap → s.inBuf.read s.inPtr.toNat = none →
    brGetBit s = .error (.fault .inBufUnwritten)) ∧
  ∀ (s : State) (body : List Byte), s.rdNbits = 0 → s.inBuf.holds s.inPtr.toNat body →
    let a := s.inPtr.toNat + body.length
    a < s.len.toNat → a < Config.inCap → s.inBuf.read a = none →
    let r := refWalk s.tree.node s.tree.root s.tree.root .atRoot (s.origLen.toNat - s.outLen.toNat) (bytesBits body)
    (r.how = .truncated → exec .decWalk s = .fault .inBufUnwritten) ∧
    (r.how ≠ .truncated → ∃ t, exec .decWalk s = .next t)

/-! ### The priority queue and the tree builder -/

/-- 42 R151: `Less` compares by weight, then by index, and is a strict total order on distinct indices. -/
def Obligations.LessIsAStrictTotalOrder : Prop :=
  ∀ node : Arena,
    (∀ i j, less node i j = true ↔ (nodeAt node i).weight < (nodeAt node j).weight ∨
      (nodeAt node i).weight = (nodeAt node j).weight ∧ i < j) ∧
    (∀ i, less node i i = false) ∧
    (∀ i j k, less node i j = true → less node j k = true → less node i k = true) ∧
    ∀ i j, i ≠ j → (less node i j = true ∧ less node j i = false) ∨ (less node j i = true ∧ less node i j = false)

/-- 42 R150: the contract of the queue; that `PQ_INSERT` into a full queue and `PQ_REMOVE_MIN` on an empty one stop the model
is its reading of 93 U6. -/
def Obligations.QueueKeepsItsContract : Prop :=
  ∀ t : TreeBuilder, t.HeapOk →
    (∀ i, t.pqSize.val < 256 → ∃ (h : Heap) (n : Fin 257), pqInsert i t = .ok { t with heap := h, pqSize := n } ∧
      ({ t with heap := h, pqSize := n } : TreeBuilder).members.Perm (i :: t.members) ∧
      ({ t with heap := h, pqSize := n } : TreeBuilder).HeapOk) ∧
    (1 ≤ t.pqSize.val → ∃ (r : NodeIx) (h : Heap) (n : Fin 257), pqRemoveMin t = .ok (r, { t with heap := h, pqSize := n }) ∧
      t.members.Perm (r :: ({ t with heap := h, pqSize := n } : TreeBuilder).members) ∧
      (∀ i ∈ t.members, i ≠ r → less t.node r i = true) ∧
      ({ t with heap := h, pqSize := n } : TreeBuilder).HeapOk) ∧
    (t.pqSize.val = 256 → ∀ i, pqInsert i t = .error .queueFull) ∧
    (t.pqSize.val = 0 → pqRemoveMin t = .error .queueEmpty)

/-- 42 R158: TB_LEAVES makes one leaf per byte value with a non-zero count, in ascending byte value, and queues it. -/
def Obligations.TbLeavesBuildsTheLeaves : Prop :=
  ∀ s : State, ∃ u : TreeBuilder, exec .tbLeaves s = .next
      { s with tree := u, symCount := BitVec.ofNat 9 (symbolsOf s.freq).length, phase := 4 } ∧
    u.next.val = (symbolsOf s.freq).length ∧ u.pqSize.val = (symbolsOf s.freq).length ∧ u.root = s.tree.root ∧
    (∀ (i : NodeIx) (h : i.val < (symbolsOf s.freq).length), nodeAt u.node i =
      { kind := .leaf, sym := (symbolsOf s.freq)[i.val], weight := freqAt s.freq (symbolsOf s.freq)[i.val]
        left := 0, right := 0 }) ∧
    (∀ i : NodeIx, (symbolsOf s.freq).length ≤ i.val → nodeAt u.node i = nodeAt s.tree.node i) ∧
    (∀ i : NodeIx, i ∈ u.members ↔ i.val < (symbolsOf s.freq).length) ∧ u.QueueOk

/-- 42 R160, R162 and R156: TB_MERGE. With one symbol it makes the degenerate tree; otherwise it makes, whatever the layout of
`HEAP`, the tree that the same rounds make over any list of the members scanned for the least. -/
def Obligations.TbMergeMergesTheLeastTwo : Prop :=
  ∀ s : State,
    (s.symCount = 1 → s.tree.pqSize = 1 → exec .tbMerge s = .next
      { s with
        tree :=
          { node := nodeSet (nodeSet s.tree.node 1 { kind := .placeholder, sym := 0, weight := 0, left := 0, right := 0 }) 2
              { kind := .internal, sym := 0, weight := (nodeAt s.tree.node 0).weight, left := 0, right := 1 }
            heap := s.tree.heap, next := 3, root := 2, pqSize := 0 }
        phase := if s.op = .encode then 5 else 11 }) ∧
    (s.symCount ≠ 1 → s.tree.QueueOk → 1 ≤ s.tree.pqSize.val → s.tree.next.val + s.tree.pqSize.val ≤ 512 →
      ∀ q : List NodeIx, q.Perm s.tree.members →
      ∃ u : TreeBuilder, exec .tbMerge s = .next { s with tree := u, phase := if s.op = .encode then 5 else 11 } ∧
        scanMerge q.length q s.tree.node s.tree.next.val = some (u.node, u.next.val, u.root) ∧ u.pqSize = 0)

/-- The arena after TB_LEAVES and TB_MERGE, as 42 R164 derives it (the tree invariants are the next statement). -/
def Obligations.BuiltTreeHasTheStatedShape : Prop :=
  ∀ s a : State, exec .tbLeaves s = .next a → symbolsOf s.freq ≠ [] →
    ∃ b, exec .tbMerge a = .next b ∧
      let n := (symbolsOf s.freq).length
      b.tree.pqSize = 0 ∧
      (nodeAt b.tree.node b.tree.root).weight = ((symbolsOf s.freq).map (freqAt s.freq)).sum ∧
      (n = 1 → b.tree.next = 3 ∧ b.tree.root = 2) ∧
      (2 ≤ n → b.tree.next.val = 2 * n - 1 ∧ b.tree.root.val = 2 * n - 2 ∧
        (∀ (i : NodeIx) (h : i.val < n), nodeAt b.tree.node i =
          { kind := .leaf, sym := (symbolsOf s.freq)[i.val], weight := freqAt s.freq (symbolsOf s.freq)[i.val]
            left := 0, right := 0 }) ∧
        (∀ i : NodeIx, n ≤ i.val → i.val ≤ 2 * n - 2 → (nodeAt b.tree.node i).kind = .internal ∧
          (nodeAt b.tree.node i).left.val < i.val ∧ (nodeAt b.tree.node i).right.val < i.val ∧
          (nodeAt b.tree.node i).left ≠ (nodeAt b.tree.node i).right) ∧
        ∀ i : NodeIx, i.val < 2 * n - 2 → ∃ j : NodeIx, (j.val ≤ 2 * n - 2 ∧ (nodeAt b.tree.node j).kind = .internal ∧
            ((nodeAt b.tree.node j).left = i ∨ (nodeAt b.tree.node j).right = i)) ∧
          ∀ k : NodeIx, k.val ≤ 2 * n - 2 → (nodeAt b.tree.node k).kind = .internal →
            ((nodeAt b.tree.node k).left = i ∨ (nodeAt b.tree.node k).right = i) → k = j)

/-- 10_state R46: the tree invariants after TB_MERGE, when the counts sum to `ORIG_LEN`; no later phase changes the tree. -/
def Obligations.BuiltTreeHasTheTreeInvariants : Prop :=
  (∀ s a : State, exec .tbLeaves s = .next a → symbolsOf s.freq ≠ [] → countSum s.freq = s.origLen.toNat →
    ∃ b, exec .tbMerge a = .next b ∧
      (nodeAt b.tree.node b.tree.root).kind = .internal ∧
      (∀ i : NodeIx, i.val < b.tree.next.val → (nodeAt b.tree.node i).kind = .leaf →
        ∃ p, follow b.tree.node b.tree.root p = some i ∧ 1 ≤ p.length ∧
          ∀ q, follow b.tree.node b.tree.root q = some i → q = p) ∧
      (∀ x, freqAt s.freq x ≠ 0 → ∃ i : NodeIx, (i.val < b.tree.next.val ∧ (nodeAt b.tree.node i).kind = .leaf ∧
          (nodeAt b.tree.node i).sym = x) ∧
        ∀ j : NodeIx, j.val < b.tree.next.val → (nodeAt b.tree.node j).kind = .leaf →
          (nodeAt b.tree.node j).sym = x → j = i) ∧
      (nodeAt b.tree.node b.tree.root).weight = s.origLen ∧ TreeOk b.tree.node b.tree.root ∧
      ∀ x, (∃ p, LeafPath b.tree.node b.tree.root p x) ↔ freqAt s.freq x ≠ 0) ∧
  ∀ (i : Instr) (s t : State), i ∈ [Instr.ctWalk, .hdrEmit, .encBody, .bwFlush, .decWalk] → exec i s = .next t →
    t.tree = s.tree

/-- 42 R165: the tree is a function of the counts alone, whatever the arena, the heap and the rest of the state held. -/
def Obligations.TreeDependsOnCountsAlone : Prop :=
  ∀ s1 s2 a1 a2 : State, s1.freq = s2.freq → symbolsOf s1.freq ≠ [] →
    exec .tbLeaves s1 = .next a1 → exec .tbLeaves s2 = .next a2 →
    ∃ b1 b2, exec .tbMerge a1 = .next b1 ∧ exec .tbMerge a2 = .next b2 ∧
      b1.tree.next = b2.tree.next ∧ b1.tree.root = b2.tree.root ∧
      ∀ i : NodeIx, i.val < b1.tree.next.val → nodeAt b1.tree.node i = nodeAt b2.tree.node i

/-! ### The code table -/

/-- 43 R177: after CT_WALK the code of every leaf is the path to it, and every other byte value has no code. -/
def Obligations.CtWalkRecordsThePaths : Prop :=
  ∀ s : State, TreeOk s.tree.node s.tree.root →
    ∃ c : CodeTable, exec .ctWalk s = .next { s with ct := c, phase := 6 } ∧ c.sp = 0 ∧
      (∀ p x, LeafPath s.tree.node s.tree.root p x → (codeAt c.code x).toBits = p ∧ (codeAt c.code x).Clean) ∧
      ∀ x, (¬ ∃ p, LeafPath s.tree.node s.tree.root p x) → codeAt c.code x = { len := 0, bits := 0 }

/-- 43 R178: every code is non-empty, none is a prefix of another, and they are unique per byte. -/
def Obligations.CodesFormAPrefixCode : Prop :=
  ∀ s t : State, TreeOk s.tree.node s.tree.root → exec .ctWalk s = .next t →
    (∀ p x, LeafPath s.tree.node s.tree.root p x →
      1 ≤ (codeAt t.ct.code x).len.toNat ∧ (codeAt t.ct.code x).len.toNat ≤ 255) ∧
    ∀ x y, (codeAt t.ct.code x).len ≠ 0 → (codeAt t.ct.code y).len ≠ 0 →
      (codeAt t.ct.code x).toBits <+: (codeAt t.ct.code y).toBits → x = y

/-- 43 R179: after TB_LEAVES, TB_MERGE and CT_WALK exactly the byte values with a non-zero count have a code. -/
def Obligations.ExactlyTheCountedBytesHaveCodes : Prop :=
  ∀ s a b : State, s.op = .encode → symbolsOf s.freq ≠ [] → exec .tbLeaves s = .next a → exec .tbMerge a = .next b →
    ∃ t, exec .ctWalk b = .next t ∧ ∀ x, 1 ≤ (codeAt t.ct.code x).len.toNat ↔ freqAt s.freq x ≠ 0

/-! ### The bit writer and the encoder's phases -/

/-- 45 R202 with 20_memory R72: HDR_EMIT emits 2056 bytes, the length and the 256 counts, each big-endian. -/
def Obligations.HdrEmitWritesTheHeader : Prop :=
  ∀ s : State, ∃ hdr : List Byte, hdr.length = 2056 ∧
    (∀ k, k < 8 → hdr[k]? = some (s.origLen.extractLsb' (56 - 8 * k) 8)) ∧
    (∀ (x : Byte) (k : Nat), k < 8 →
      hdr[8 + 8 * x.toNat + k]? = some ((freqAt s.freq x).extractLsb' (56 - 8 * k) 8)) ∧
    (s.len ≠ 0 → exec .hdrEmit s = .next
      { s with out := s.out ++ hdr, outLen := s.outLen + 2056, inPtr := 0, phase := 7 }) ∧
    (s.len = 0 → exec .hdrEmit s = .next
      { s with out := s.out ++ hdr, outLen := s.outLen + 2056, cond := { code := .emptyInput, sub := 0 }
               errPos := 0, state := .done })

/-- 45 R203: ENC_BODY writes the code of every input byte, in order; at the first byte without a code it raises
InvariantViolation with `ERR_POS` that byte's index, after the codes before it. -/
def Obligations.EncBodyWritesTheCodes : Prop :=
  ∀ (s : State) (bs : List Byte), s.inBuf.holds 0 bs →
    (bs.length = s.len.toNat → (∀ b ∈ bs, (codeAt s.ct.code b).len ≠ 0) → exec .encBody s = .next
      { bwPutBits (bodyBits s.ct bs) s with inPtr := if s.len = 0 then s.inPtr else s.len, phase := 8 }) ∧
    ∀ (bs1 bs2 : List Byte) (b : Byte), bs = bs1 ++ b :: bs2 → bs.length = s.len.toNat →
      (∀ x ∈ bs1, (codeAt s.ct.code x).len ≠ 0) → (codeAt s.ct.code b).len = 0 →
      exec .encBody s = .next
        { bwPutBits (bodyBits s.ct bs1) s with
          inPtr := BitVec.ofNat 64 bs1.length, errPos := BitVec.ofNat 64 bs1.length
          cond := { code := .invariantViolation, sub := 1 }, fatal := true, state := .error }

/-- 44 R186: `BW_PUT_BIT`. -/
def Obligations.BwPutBitFillsFromTheTop : Prop :=
  ∀ (s : State) (v : Bool),
    ∃ acc : Byte, (∀ k, acc.getLsbD k = if k = 7 - s.nbits.toNat then v else s.acc.getLsbD k) ∧
      (s.nbits = 7 → bwPutBit v s =
        { s with bitCount := s.bitCount + 1, out := s.out ++ [acc], outLen := s.outLen + 1, acc := 0, nbits := 0 }) ∧
      (s.nbits ≠ 7 → bwPutBit v s = { s with bitCount := s.bitCount + 1, acc := acc, nbits := s.nbits + 1 } ∧
        (s.nbits + 1).toNat = s.nbits.toNat + 1)

/-- 44 R189: the writer's invariant, for every sequence of bits put one by one into an empty writer, and the number of bytes
after BW_FLUSH. -/
def Obligations.WriterDropsNoBit : Prop :=
  ∀ (s : State) (w : List Bool), s.nbits = 0 → s.acc = 0 →
    ∃ (body : List Byte) (acc : Byte) (n : BitVec 3),
      bwPutBits w s = { s with out := s.out ++ body, outLen := s.outLen + BitVec.ofNat 64 body.length
                               bitCount := s.bitCount + BitVec.ofNat 64 w.length, acc := acc, nbits := n } ∧
      w = bytesBits body ++ (byteBits acc).take n.toNat ∧ w.length = 8 * body.length + n.toNat ∧
      (∀ k, k ≤ 7 - n.toNat → acc.getLsbD k = false) ∧
      ∃ t padded, exec .bwFlush (bwPutBits w s) = .next t ∧ t.out = s.out ++ padded ∧
        padded.length = (w.length + 7) / 8 ∧ IsBody w padded

/-- 44 R188: BW_FLUSH. -/
def Obligations.BwFlushPadsAndFinishes : Prop :=
  ∀ s : State,
    (s.nbits = 0 → exec .bwFlush s = .next
      { s with cond := { code := .ok, sub := 0 }, errPos := 0, state := .done }) ∧
    (s.nbits ≠ 0 → exec .bwFlush s = .next
      { s with out := s.out ++ [s.acc], outLen := s.outLen + 1, acc := 0, nbits := 0
               cond := { code := .ok, sub := 0 }, errPos := 0, state := .done })

/-- 44 R192: a reader run over the bytes that the writer emitted for `w` and flushed returns `w`. -/
def Obligations.ReaderReturnsWhatTheWriterWrote : Prop :=
  ∀ (s t r : State) (w : List Bool) (body more : List Byte), s.nbits = 0 → s.acc = 0 →
    exec .bwFlush (bwPutBits w s) = .next t → t.out = s.out ++ body →
    r.rdNbits = 0 → Unread r (body ++ more) → ∃ r', brGetBits w.length r = .ok (w, r')

/-! ### The bit reader and the decoder's phases -/

/-- 44 R190: `BR_GET_BIT`. -/
def Obligations.BrGetBitDeliversTheTopBit : Prop :=
  ∀ s : State,
    (s.rdNbits = 0 → s.len ≤ s.inPtr → brGetBit s = .error (.raised
      { s with cond := { code := .truncatedBitstream, sub := 0 }, errPos := s.inPtr, state := .error })) ∧
    (∀ b, s.rdNbits = 0 → s.inPtr < s.len → s.inBuf.read s.inPtr.toNat = some b → brGetBit s = .ok (b.getLsbD 7,
      { s with rdByte := b <<< 1, rdNbits := 7, inPtr := s.inPtr + 1, bitCount := s.bitCount + 1 })) ∧
    ∀ n : Fin 9, s.rdNbits.val = n.val + 1 → brGetBit s = .ok (s.rdByte.getLsbD 7,
      { s with rdByte := s.rdByte <<< 1, rdNbits := n, bitCount := s.bitCount + 1 })

/-- 46 R216: HDR_PARSE reads the length and the 256 counts, or raises HEADER_SHORT. -/
def Obligations.HdrParseReadsTheHeader : Prop :=
  ∀ s : State,
    (s.len.toNat < 2056 → exec .hdrParse s = .next
      { s with cond := { code := .malformedArtifact, sub := 1 }, errPos := s.inPtr, state := .error }) ∧
    ∀ hdr : List Byte, 2056 ≤ s.len.toNat → hdr.length = 2056 → s.inBuf.holds 0 hdr →
      ∃ (v : Word) (freq : Freq), exec .hdrParse s = .next
          { s with origLen := v, freq := freq, inPtr := 2056, phase := 10 } ∧
        (∀ k, k < 8 → hdr[k]? = some (v.extractLsb' (56 - 8 * k) 8)) ∧
        ∀ (x : Byte) (k : Nat), k < 8 → hdr[8 + 8 * x.toNat + k]? = some ((freqAt freq x).extractLsb' (56 - 8 * k) 8)

/-- 46 R217 and R218: HDR_CHECK, its checks in their order, with the exact sum. -/
def Obligations.HdrCheckChecksCountsAgainstLength : Prop :=
  ∀ s : State,
    let s1 : State := { s with symCount := BitVec.ofNat 9 (symbolsOf s.freq).length, sum := BitVec.ofNat 72 (countSum s.freq) }
    countSum s.freq < 2 ^ 72 ∧
    (symbolsOf s.freq = [] → s.origLen ≠ 0 → exec .hdrCheck s = .next
      { s1 with cond := { code := .malformedArtifact, sub := 2 }, errPos := s.inPtr, state := .error }) ∧
    (symbolsOf s.freq ≠ [] → countSum s.freq ≠ s.origLen.toNat → exec .hdrCheck s = .next
      { s1 with cond := { code := .malformedArtifact, sub := 3 }, errPos := s.inPtr, state := .error }) ∧
    (countSum s.freq = s.origLen.toNat → s.origLen = 0 → symbolsOf s.freq = [] ∧ exec .hdrCheck s = .next
      { s1 with cond := { code := .emptyInput, sub := 0 }, errPos := 0, state := .done }) ∧
    (countSum s.freq = s.origLen.toNat → s.origLen ≠ 0 → symbolsOf s.freq ≠ [] ∧ exec .hdrCheck s = .next
      { s1 with phase := 3 })

/-- 46 R220: DEC_WALK is the walk over the body's bits from the root: the symbols it emits, the bits it consumes, where it
stands at its end, and how it ends (finished, TruncatedBitstream or PLACEHOLDER_PATH). -/
def Obligations.DecWalkFollowsTheBits : Prop :=
  ∀ (s : State) (body : List Byte), s.rdNbits = 0 → Unread s body →
    let r := refWalk s.tree.node s.tree.root s.tree.root .atRoot (s.origLen.toNat - s.outLen.toNat) (bytesBits body)
    ∃ (rb : Byte) (rn : Fin 9) (p : Word),
      let t : State :=
        { s with out := s.out ++ r.bytes, outLen := s.outLen + BitVec.ofNat 64 r.bytes.length
                 bitCount := s.bitCount + BitVec.ofNat 64 r.used, cur := r.cur, wstate := r.at_
                 rdByte := rb, rdNbits := rn, inPtr := p }
      exec .decWalk s = .next
        (match r.how with
          | .finished => { t with cond := { code := .ok, sub := 0 }, errPos := 0, state := .done }
          | .truncated => { t with cond := { code := .truncatedBitstream, sub := 0 }, errPos := p, state := .error }
          | .placeholder => { t with cond := { code := .malformedArtifact, sub := 4 }, errPos := p, state := .error }) ∧
      p.toNat = s.inPtr.toNat + (r.used + 7) / 8 ∧ r.used + rn.val = 8 * ((r.used + 7) / 8) ∧
      (byteBits rb).take rn.val = ((bytesBits body).drop r.used).take rn.val

/-- 46 R223: the input from the address after the last byte used is never read: with any other bytes there, and any other
`LEN` that still covers the bytes used, a walk that finishes is the same. -/
def Obligations.DecWalkIgnoresSurplusInput : Prop :=
  ∀ (s t : State) (m : Memory) (n : Word), exec .decWalk s = .next t → t.state = .done →
    (∀ a, a < t.inPtr.toNat → m.read a = s.inBuf.read a) → t.inPtr ≤ n →
    exec .decWalk { s with inBuf := m, len := n } = .next { t with inBuf := m, len := n }

/-! ### Frames and errors -/

/-- What each phase leaves unchanged when it answers a next state: everything but the fields named for it. No phase stores to
`IN_BUF`. -/
def Obligations.PhasesKeepTheirFrames : Prop :=
  ∀ s t : State,
    (exec .fcClear s = .next t → t =
      { s with freq := t.freq, inPtr := t.inPtr, acc := t.acc, nbits := t.nbits, rdNbits := t.rdNbits
               origLen := t.origLen, phase := t.phase }) ∧
    (exec .fcCount s = .next t → t = { s with freq := t.freq, inPtr := t.inPtr, phase := t.phase }) ∧
    (exec .tbLeaves s = .next t → t = { s with tree := t.tree, symCount := t.symCount, phase := t.phase } ∧
      t.tree.root = s.tree.root) ∧
    (exec .tbMerge s = .next t → t = { s with tree := t.tree, phase := t.phase }) ∧
    (exec .ctWalk s = .next t → t = { s with ct := t.ct, phase := t.phase }) ∧
    (exec .hdrEmit s = .next t → t =
      { s with out := t.out, outLen := t.outLen, inPtr := t.inPtr, phase := t.phase, cond := t.cond
               errPos := t.errPos, state := t.state }) ∧
    (exec .encBody s = .next t → t =
      { s with out := t.out, outLen := t.outLen, bitCount := t.bitCount, acc := t.acc, nbits := t.nbits
               inPtr := t.inPtr, phase := t.phase, cond := t.cond, errPos := t.errPos, fatal := t.fatal
               state := t.state }) ∧
    (exec .bwFlush s = .next t → t =
      { s with out := t.out, outLen := t.outLen, acc := t.acc, nbits := t.nbits, cond := t.cond
               errPos := t.errPos, state := t.state }) ∧
    (exec .hdrParse s = .next t → t =
      { s with origLen := t.origLen, freq := t.freq, inPtr := t.inPtr, phase := t.phase, cond := t.cond
               errPos := t.errPos, state := t.state }) ∧
    (exec .hdrCheck s = .next t → t =
      { s with symCount := t.symCount, sum := t.sum, phase := t.phase, cond := t.cond, errPos := t.errPos
               state := t.state }) ∧
    (exec .decWalk s = .next t → t =
      { s with out := t.out, outLen := t.outLen, bitCount := t.bitCount, cur := t.cur, wstate := t.wstate
               rdByte := t.rdByte, rdNbits := t.rdNbits, inPtr := t.inPtr, cond := t.cond, errPos := t.errPos
               state := t.state }) ∧
    ∀ i : Instr, exec i s = .next t → ∀ a, t.inBuf.read a = s.inBuf.read a

/-- 60_exceptions R240: what a raise changes, and that the sequencer runs nothing after it. -/
def Obligations.RaiseStopsTheCommand : Prop :=
  ∀ (kind : CondCode) (sub : BitVec 4) (s : State),
    raiseState kind sub s =
      { s with cond := { code := kind, sub := sub }, errPos := s.inPtr
               fatal := if kind = .invariantViolation then true else s.fatal, state := .error } ∧
    (s.script = [] → step (raiseState kind sub s) = .next (raiseState kind sub s))

/-- 60_exceptions R236: every end of a command is a row of the table, with its cause and its `ERR_POS`, and which command
can raise which code. -/
def Obligations.CommandEndsAreRowsOfTheErrorTable : Prop :=
  ∀ s t : State, s.Inv → s.state = .busy → step s = .next t → t.state = .done ∨ t.state = .error →
    t.op = s.op ∧ t.phase = s.phase ∧
    ((t.state = .done ∧ t.cond = { code := .ok, sub := 0 } ∧ t.errPos = 0 ∧ (s.phase = 8 ∨ s.phase = 11)) ∨
     (t.state = .done ∧ t.cond = { code := .emptyInput, sub := 0 } ∧ t.errPos = 0 ∧
       (s.phase = 6 ∧ s.len = 0 ∨ s.phase = 10 ∧ s.origLen = 0 ∧ symbolsOf s.freq = [])) ∨
     (t.state = .error ∧ t.cond = { code := .malformedArtifact, sub := 1 } ∧ t.errPos = 0 ∧ s.phase = 9 ∧
       s.len.toNat < 2056) ∨
     (t.state = .error ∧ t.cond = { code := .malformedArtifact, sub := 2 } ∧ t.errPos = 2056 ∧ s.phase = 10 ∧
       symbolsOf s.freq = [] ∧ s.origLen ≠ 0) ∨
     (t.state = .error ∧ t.cond = { code := .malformedArtifact, sub := 3 } ∧ t.errPos = 2056 ∧ s.phase = 10 ∧
       countSum s.freq ≠ s.origLen.toNat) ∨
     (t.state = .error ∧ t.cond = { code := .malformedArtifact, sub := 4 } ∧ t.errPos = t.inPtr ∧ s.phase = 11 ∧
       (nodeAt t.tree.node t.cur).kind = .placeholder) ∨
     (t.state = .error ∧ t.cond = { code := .truncatedBitstream, sub := 0 } ∧ t.errPos = s.len ∧ s.phase = 11 ∧
       t.outLen < t.origLen) ∨
     (t.state = .error ∧ t.cond = { code := .invariantViolation, sub := 1 } ∧ t.fatal = true ∧ s.phase = 7 ∧
       t.errPos < s.len ∧ ∃ b, s.inBuf.read t.errPos.toNat = some b ∧ (codeAt s.ct.code b).len = 0)) ∧
    (t.cond.code ≠ .invariantViolation → t.fatal = false) ∧
    (t.state = .error → (t.cond.code = .invariantViolation ↔ t.op = .encode))

/-! ### Whole commands -/

/-- 45 R205: the end state of a non-empty ENCODE, and the artifact of 30_encoding R97 on `OUT`. -/
def Obligations.EncodeProducesTheArtifact : Prop :=
  ∀ (s : State) (bs : List Byte), Loaded s 1 bs → bs ≠ [] →
    ∃ (t : State) (body : List Byte), steps 9 s = some t ∧
      t.state = .done ∧ t.cond = { code := .ok, sub := 0 } ∧ t.errPos = 0 ∧ t.phase = 8 ∧ t.op = .encode ∧
      t.origLen = s.inLen ∧ t.freq = freqOf bs ∧ t.symCount.toNat = (symbolsOf (freqOf bs)).length ∧
      t.bitCount.toNat = (allBytes.map fun x => bs.count x * (codeAt t.ct.code x).len.toNat).sum ∧
      t.outLen.toNat = 2056 + (t.bitCount.toNat + 7) / 8 ∧ t.inPtr = s.inLen ∧ t.acc = 0 ∧ t.nbits = 0 ∧
      t.out = headerBytes s.inLen (freqOf bs) ++ body ∧ IsBody (bodyBits t.ct bs) body ∧
      body.length = (t.bitCount.toNat + 7) / 8 ∧ t.inBuf = s.inBuf ∧ t.inLen = s.inLen

/-- 45 R201 and 30_encoding R100: the ENCODE of the empty input. -/
def Obligations.EncodeOfEmptyInput : Prop :=
  ∀ s : State, Loaded s 1 [] →
    ∃ t : State, steps 4 s = some t ∧ t.state = .done ∧ t.cond = { code := .emptyInput, sub := 0 } ∧ t.errPos = 0 ∧
      t.phase = 6 ∧ t.outLen = 2056 ∧ t.bitCount = 0 ∧ t.symCount = 0 ∧ t.origLen = 0 ∧
      t.out = List.replicate 2056 0

/-- 30_encoding R109: which artifacts a DECODE accepts, and the error it ends with otherwise, in the order of
60_exceptions R244. -/
def Obligations.DecodeAcceptsExactlyTheLegalArtifacts : Prop :=
  ∀ (s : State) (bs : List Byte), Loaded s 2 bs →
    ∃ (k : Nat) (t : State), k ≤ 7 ∧ steps k s = some t ∧
      let hdr := bs.take 2056
      let bits := bytesBits (bs.drop 2056)
      let len := (fieldAt hdr 0).toNat
      let counts := headerFreq hdr
      let ends (st : Proto) (c : CondCode) (sub : BitVec 4) : Prop := t.state = st ∧ t.cond = { code := c, sub := sub }
      if bs.length < 2056 then ends .error .malformedArtifact 1
      else if symbolsOf counts = [] ∧ len ≠ 0 then ends .error .malformedArtifact 2
      else if countSum counts ≠ len then ends .error .malformedArtifact 3
      else if len = 0 then ends .done .emptyInput 0 ∧ t.out = []
      else
        let r := refWalk t.tree.node t.tree.root t.tree.root .atRoot len bits
        t.out = r.bytes ∧ t.bitCount.toNat = r.used ∧
        (match r.how with
          | .finished => ends .done .ok 0 ∧ t.out.length = len
          | .truncated => ends .error .truncatedBitstream 0 ∧ t.out.length < len
          | .placeholder => ends .error .malformedArtifact 4 ∧ t.out.length < len) ∧
        (2 ≤ (symbolsOf counts).length → r.how ≠ .placeholder) ∧
        ((symbolsOf counts).length = 1 → (r.how = .placeholder ↔ true ∈ bits.take len))

/-- 46 R226: the round trip. -/
def Obligations.DecodeInvertsEncode : Prop :=
  ∀ (s1 : State) (bs : List Byte), Loaded s1 1 bs →
    ∃ (k1 : Nat) (t1 : State), k1 ≤ 9 ∧ steps k1 s1 = some t1 ∧ t1.state = .done ∧
      t1.cond = { code := if bs = [] then .emptyInput else .ok, sub := 0 } ∧
      ∀ s2 : State, Loaded s2 2 t1.out →
        ∃ (k2 : Nat) (t2 : State), k2 ≤ 7 ∧ steps k2 s2 = some t2 ∧ t2.state = .done ∧
          t2.cond = { code := if bs = [] then .emptyInput else .ok, sub := 0 } ∧ t2.out = bs ∧ t2.bitCount = t1.bitCount

/-- 70_reset R268: the result of a command depends on its input and its length alone, never on history. -/
def Obligations.ResultDoesNotDependOnHistory : Prop :=
  ∀ (s1 s2 : State) (cmd : Word) (bs : List Byte), cmd = 1 ∨ cmd = 2 → Loaded s1 cmd bs → Loaded s2 cmd bs →
    ∃ (k : Nat) (t1 t2 : State), steps k s1 = some t1 ∧ steps k s2 = some t2 ∧ (t1.state = .done ∨ t1.state = .error) ∧
      t1.state = t2.state ∧ t1.phase = t2.phase ∧ t1.op = t2.op ∧ t1.fatal = t2.fatal ∧ t1.cond = t2.cond ∧
      t1.errPos = t2.errPos ∧ t1.inLen = t2.inLen ∧ t1.outLen = t2.outLen ∧ t1.bitCount = t2.bitCount ∧
      t1.symCount = t2.symCount ∧ t1.origLen = t2.origLen ∧ t1.out = t2.out

/-- 40_commands R132: every accepted ENCODE or DECODE ends in DONE or ERROR, after at most nine steps of the model. -/
def Obligations.EveryAcceptedCommandEnds : Prop :=
  ∀ (s : State) (cmd : Word) (bs : List Byte), cmd = 1 ∨ cmd = 2 → Loaded s cmd bs →
    ∃ (k : Nat) (t : State), k ≤ 9 ∧ steps k s = some t ∧ (t.state = .done ∨ t.state = .error) ∧ t.script = []
end

