-- ==== Sys2Proof/Laws/State.lean ====
section
/-! SUPPORT. The fields of the state after each shared operation, one lemma per field, and the ways a phase's pseudocode
ends. -/
namespace Sys2Proof.Machine

@[simp] theorem setPhase_state (p : BitVec 4) (s : State) : (setPhase p s).state = s.state := rfl
@[simp] theorem setPhase_phase (p : BitVec 4) (s : State) : (setPhase p s).phase = p := rfl
@[simp] theorem setPhase_op (p : BitVec 4) (s : State) : (setPhase p s).op = s.op := rfl
@[simp] theorem setPhase_cmdRej (p : BitVec 4) (s : State) : (setPhase p s).cmdRej = s.cmdRej := rfl
@[simp] theorem setPhase_fatal (p : BitVec 4) (s : State) : (setPhase p s).fatal = s.fatal := rfl
@[simp] theorem setPhase_cond (p : BitVec 4) (s : State) : (setPhase p s).cond = s.cond := rfl
@[simp] theorem setPhase_errPos (p : BitVec 4) (s : State) : (setPhase p s).errPos = s.errPos := rfl
@[simp] theorem setPhase_inLen (p : BitVec 4) (s : State) : (setPhase p s).inLen = s.inLen := rfl
@[simp] theorem setPhase_outLen (p : BitVec 4) (s : State) : (setPhase p s).outLen = s.outLen := rfl
@[simp] theorem setPhase_bitCount (p : BitVec 4) (s : State) : (setPhase p s).bitCount = s.bitCount := rfl
@[simp] theorem setPhase_symCount (p : BitVec 4) (s : State) : (setPhase p s).symCount = s.symCount := rfl
@[simp] theorem setPhase_origLen (p : BitVec 4) (s : State) : (setPhase p s).origLen = s.origLen := rfl
@[simp] theorem setPhase_len (p : BitVec 4) (s : State) : (setPhase p s).len = s.len := rfl
@[simp] theorem setPhase_inPtr (p : BitVec 4) (s : State) : (setPhase p s).inPtr = s.inPtr := rfl
@[simp] theorem setPhase_freq (p : BitVec 4) (s : State) : (setPhase p s).freq = s.freq := rfl
@[simp] theorem setPhase_tree (p : BitVec 4) (s : State) : (setPhase p s).tree = s.tree := rfl
@[simp] theorem setPhase_ct (p : BitVec 4) (s : State) : (setPhase p s).ct = s.ct := rfl
@[simp] theorem setPhase_acc (p : BitVec 4) (s : State) : (setPhase p s).acc = s.acc := rfl
@[simp] theorem setPhase_nbits (p : BitVec 4) (s : State) : (setPhase p s).nbits = s.nbits := rfl
@[simp] theorem setPhase_rdByte (p : BitVec 4) (s : State) : (setPhase p s).rdByte = s.rdByte := rfl
@[simp] theorem setPhase_rdNbits (p : BitVec 4) (s : State) : (setPhase p s).rdNbits = s.rdNbits := rfl
@[simp] theorem setPhase_cur (p : BitVec 4) (s : State) : (setPhase p s).cur = s.cur := rfl
@[simp] theorem setPhase_wstate (p : BitVec 4) (s : State) : (setPhase p s).wstate = s.wstate := rfl
@[simp] theorem setPhase_sum (p : BitVec 4) (s : State) : (setPhase p s).sum = s.sum := rfl
@[simp] theorem setPhase_inBuf (p : BitVec 4) (s : State) : (setPhase p s).inBuf = s.inBuf := rfl
@[simp] theorem setPhase_out (p : BitVec 4) (s : State) : (setPhase p s).out = s.out := rfl
@[simp] theorem setPhase_outRd (p : BitVec 4) (s : State) : (setPhase p s).outRd = s.outRd := rfl
@[simp] theorem setPhase_script (p : BitVec 4) (s : State) : (setPhase p s).script = s.script := rfl
@[simp] theorem setPhase_replies (p : BitVec 4) (s : State) : (setPhase p s).replies = s.replies := rfl
@[simp] theorem setPhase_freeCtr (p : BitVec 4) (s : State) : (setPhase p s).freeCtr = s.freeCtr := rfl

@[simp] theorem emit_state (b : Byte) (s : State) : (emit b s).state = s.state := rfl
@[simp] theorem emit_phase (b : Byte) (s : State) : (emit b s).phase = s.phase := rfl
@[simp] theorem emit_op (b : Byte) (s : State) : (emit b s).op = s.op := rfl
@[simp] theorem emit_cmdRej (b : Byte) (s : State) : (emit b s).cmdRej = s.cmdRej := rfl
@[simp] theorem emit_fatal (b : Byte) (s : State) : (emit b s).fatal = s.fatal := rfl
@[simp] theorem emit_cond (b : Byte) (s : State) : (emit b s).cond = s.cond := rfl
@[simp] theorem emit_errPos (b : Byte) (s : State) : (emit b s).errPos = s.errPos := rfl
@[simp] theorem emit_inLen (b : Byte) (s : State) : (emit b s).inLen = s.inLen := rfl
@[simp] theorem emit_outLen (b : Byte) (s : State) : (emit b s).outLen = s.outLen + 1 := rfl
@[simp] theorem emit_bitCount (b : Byte) (s : State) : (emit b s).bitCount = s.bitCount := rfl
@[simp] theorem emit_symCount (b : Byte) (s : State) : (emit b s).symCount = s.symCount := rfl
@[simp] theorem emit_origLen (b : Byte) (s : State) : (emit b s).origLen = s.origLen := rfl
@[simp] theorem emit_len (b : Byte) (s : State) : (emit b s).len = s.len := rfl
@[simp] theorem emit_inPtr (b : Byte) (s : State) : (emit b s).inPtr = s.inPtr := rfl
@[simp] theorem emit_freq (b : Byte) (s : State) : (emit b s).freq = s.freq := rfl
@[simp] theorem emit_tree (b : Byte) (s : State) : (emit b s).tree = s.tree := rfl
@[simp] theorem emit_ct (b : Byte) (s : State) : (emit b s).ct = s.ct := rfl
@[simp] theorem emit_acc (b : Byte) (s : State) : (emit b s).acc = s.acc := rfl
@[simp] theorem emit_nbits (b : Byte) (s : State) : (emit b s).nbits = s.nbits := rfl
@[simp] theorem emit_rdByte (b : Byte) (s : State) : (emit b s).rdByte = s.rdByte := rfl
@[simp] theorem emit_rdNbits (b : Byte) (s : State) : (emit b s).rdNbits = s.rdNbits := rfl
@[simp] theorem emit_cur (b : Byte) (s : State) : (emit b s).cur = s.cur := rfl
@[simp] theorem emit_wstate (b : Byte) (s : State) : (emit b s).wstate = s.wstate := rfl
@[simp] theorem emit_sum (b : Byte) (s : State) : (emit b s).sum = s.sum := rfl
@[simp] theorem emit_inBuf (b : Byte) (s : State) : (emit b s).inBuf = s.inBuf := rfl
@[simp] theorem emit_out (b : Byte) (s : State) : (emit b s).out = s.out ++ [b] := rfl
@[simp] theorem emit_outRd (b : Byte) (s : State) : (emit b s).outRd = s.outRd := rfl
@[simp] theorem emit_script (b : Byte) (s : State) : (emit b s).script = s.script := rfl
@[simp] theorem emit_replies (b : Byte) (s : State) : (emit b s).replies = s.replies := rfl
@[simp] theorem emit_freeCtr (b : Byte) (s : State) : (emit b s).freeCtr = s.freeCtr := rfl

@[simp] theorem emitAll_state (bs : List Byte) (s : State) : (emitAll bs s).state = s.state := rfl
@[simp] theorem emitAll_phase (bs : List Byte) (s : State) : (emitAll bs s).phase = s.phase := rfl
@[simp] theorem emitAll_op (bs : List Byte) (s : State) : (emitAll bs s).op = s.op := rfl
@[simp] theorem emitAll_cmdRej (bs : List Byte) (s : State) : (emitAll bs s).cmdRej = s.cmdRej := rfl
@[simp] theorem emitAll_fatal (bs : List Byte) (s : State) : (emitAll bs s).fatal = s.fatal := rfl
@[simp] theorem emitAll_cond (bs : List Byte) (s : State) : (emitAll bs s).cond = s.cond := rfl
@[simp] theorem emitAll_errPos (bs : List Byte) (s : State) : (emitAll bs s).errPos = s.errPos := rfl
@[simp] theorem emitAll_inLen (bs : List Byte) (s : State) : (emitAll bs s).inLen = s.inLen := rfl
@[simp] theorem emitAll_outLen (bs : List Byte) (s : State) : (emitAll bs s).outLen = s.outLen + BitVec.ofNat 64 bs.length := rfl
@[simp] theorem emitAll_bitCount (bs : List Byte) (s : State) : (emitAll bs s).bitCount = s.bitCount := rfl
@[simp] theorem emitAll_symCount (bs : List Byte) (s : State) : (emitAll bs s).symCount = s.symCount := rfl
@[simp] theorem emitAll_origLen (bs : List Byte) (s : State) : (emitAll bs s).origLen = s.origLen := rfl
@[simp] theorem emitAll_len (bs : List Byte) (s : State) : (emitAll bs s).len = s.len := rfl
@[simp] theorem emitAll_inPtr (bs : List Byte) (s : State) : (emitAll bs s).inPtr = s.inPtr := rfl
@[simp] theorem emitAll_freq (bs : List Byte) (s : State) : (emitAll bs s).freq = s.freq := rfl
@[simp] theorem emitAll_tree (bs : List Byte) (s : State) : (emitAll bs s).tree = s.tree := rfl
@[simp] theorem emitAll_ct (bs : List Byte) (s : State) : (emitAll bs s).ct = s.ct := rfl
@[simp] theorem emitAll_acc (bs : List Byte) (s : State) : (emitAll bs s).acc = s.acc := rfl
@[simp] theorem emitAll_nbits (bs : List Byte) (s : State) : (emitAll bs s).nbits = s.nbits := rfl
@[simp] theorem emitAll_rdByte (bs : List Byte) (s : State) : (emitAll bs s).rdByte = s.rdByte := rfl
@[simp] theorem emitAll_rdNbits (bs : List Byte) (s : State) : (emitAll bs s).rdNbits = s.rdNbits := rfl
@[simp] theorem emitAll_cur (bs : List Byte) (s : State) : (emitAll bs s).cur = s.cur := rfl
@[simp] theorem emitAll_wstate (bs : List Byte) (s : State) : (emitAll bs s).wstate = s.wstate := rfl
@[simp] theorem emitAll_sum (bs : List Byte) (s : State) : (emitAll bs s).sum = s.sum := rfl
@[simp] theorem emitAll_inBuf (bs : List Byte) (s : State) : (emitAll bs s).inBuf = s.inBuf := rfl
@[simp] theorem emitAll_out (bs : List Byte) (s : State) : (emitAll bs s).out = s.out ++ bs := rfl
@[simp] theorem emitAll_outRd (bs : List Byte) (s : State) : (emitAll bs s).outRd = s.outRd := rfl
@[simp] theorem emitAll_script (bs : List Byte) (s : State) : (emitAll bs s).script = s.script := rfl
@[simp] theorem emitAll_replies (bs : List Byte) (s : State) : (emitAll bs s).replies = s.replies := rfl
@[simp] theorem emitAll_freeCtr (bs : List Byte) (s : State) : (emitAll bs s).freeCtr = s.freeCtr := rfl

@[simp] theorem finish_state (c : CondCode) (s : State) : (finish c s).state = .done := rfl
@[simp] theorem finish_phase (c : CondCode) (s : State) : (finish c s).phase = s.phase := rfl
@[simp] theorem finish_op (c : CondCode) (s : State) : (finish c s).op = s.op := rfl
@[simp] theorem finish_cmdRej (c : CondCode) (s : State) : (finish c s).cmdRej = s.cmdRej := rfl
@[simp] theorem finish_fatal (c : CondCode) (s : State) : (finish c s).fatal = s.fatal := rfl
@[simp] theorem finish_cond (c : CondCode) (s : State) : (finish c s).cond = { code := c, sub := 0 } := rfl
@[simp] theorem finish_errPos (c : CondCode) (s : State) : (finish c s).errPos = 0 := rfl
@[simp] theorem finish_inLen (c : CondCode) (s : State) : (finish c s).inLen = s.inLen := rfl
@[simp] theorem finish_outLen (c : CondCode) (s : State) : (finish c s).outLen = s.outLen := rfl
@[simp] theorem finish_bitCount (c : CondCode) (s : State) : (finish c s).bitCount = s.bitCount := rfl
@[simp] theorem finish_symCount (c : CondCode) (s : State) : (finish c s).symCount = s.symCount := rfl
@[simp] theorem finish_origLen (c : CondCode) (s : State) : (finish c s).origLen = s.origLen := rfl
@[simp] theorem finish_len (c : CondCode) (s : State) : (finish c s).len = s.len := rfl
@[simp] theorem finish_inPtr (c : CondCode) (s : State) : (finish c s).inPtr = s.inPtr := rfl
@[simp] theorem finish_freq (c : CondCode) (s : State) : (finish c s).freq = s.freq := rfl
@[simp] theorem finish_tree (c : CondCode) (s : State) : (finish c s).tree = s.tree := rfl
@[simp] theorem finish_ct (c : CondCode) (s : State) : (finish c s).ct = s.ct := rfl
@[simp] theorem finish_acc (c : CondCode) (s : State) : (finish c s).acc = s.acc := rfl
@[simp] theorem finish_nbits (c : CondCode) (s : State) : (finish c s).nbits = s.nbits := rfl
@[simp] theorem finish_rdByte (c : CondCode) (s : State) : (finish c s).rdByte = s.rdByte := rfl
@[simp] theorem finish_rdNbits (c : CondCode) (s : State) : (finish c s).rdNbits = s.rdNbits := rfl
@[simp] theorem finish_cur (c : CondCode) (s : State) : (finish c s).cur = s.cur := rfl
@[simp] theorem finish_wstate (c : CondCode) (s : State) : (finish c s).wstate = s.wstate := rfl
@[simp] theorem finish_sum (c : CondCode) (s : State) : (finish c s).sum = s.sum := rfl
@[simp] theorem finish_inBuf (c : CondCode) (s : State) : (finish c s).inBuf = s.inBuf := rfl
@[simp] theorem finish_out (c : CondCode) (s : State) : (finish c s).out = s.out := rfl
@[simp] theorem finish_outRd (c : CondCode) (s : State) : (finish c s).outRd = s.outRd := rfl
@[simp] theorem finish_script (c : CondCode) (s : State) : (finish c s).script = s.script := rfl
@[simp] theorem finish_replies (c : CondCode) (s : State) : (finish c s).replies = s.replies := rfl
@[simp] theorem finish_freeCtr (c : CondCode) (s : State) : (finish c s).freeCtr = s.freeCtr := rfl

@[simp] theorem raiseState_state (c : CondCode) (b : BitVec 4) (s : State) : (raiseState c b s).state = .error := rfl
@[simp] theorem raiseState_phase (c : CondCode) (b : BitVec 4) (s : State) : (raiseState c b s).phase = s.phase := rfl
@[simp] theorem raiseState_op (c : CondCode) (b : BitVec 4) (s : State) : (raiseState c b s).op = s.op := rfl
@[simp] theorem raiseState_cmdRej (c : CondCode) (b : BitVec 4) (s : State) : (raiseState c b s).cmdRej = s.cmdRej := rfl
@[simp] theorem raiseState_fatal (c : CondCode) (b : BitVec 4) (s : State) : (raiseState c b s).fatal = (s.fatal || c == .invariantViolation) := rfl
@[simp] theorem raiseState_cond (c : CondCode) (b : BitVec 4) (s : State) : (raiseState c b s).cond = { code := c, sub := b } := rfl
@[simp] theorem raiseState_errPos (c : CondCode) (b : BitVec 4) (s : State) : (raiseState c b s).errPos = s.inPtr := rfl
@[simp] theorem raiseState_inLen (c : CondCode) (b : BitVec 4) (s : State) : (raiseState c b s).inLen = s.inLen := rfl
@[simp] theorem raiseState_outLen (c : CondCode) (b : BitVec 4) (s : State) : (raiseState c b s).outLen = s.outLen := rfl
@[simp] theorem raiseState_bitCount (c : CondCode) (b : BitVec 4) (s : State) : (raiseState c b s).bitCount = s.bitCount := rfl
@[simp] theorem raiseState_symCount (c : CondCode) (b : BitVec 4) (s : State) : (raiseState c b s).symCount = s.symCount := rfl
@[simp] theorem raiseState_origLen (c : CondCode) (b : BitVec 4) (s : State) : (raiseState c b s).origLen = s.origLen := rfl
@[simp] theorem raiseState_len (c : CondCode) (b : BitVec 4) (s : State) : (raiseState c b s).len = s.len := rfl
@[simp] theorem raiseState_inPtr (c : CondCode) (b : BitVec 4) (s : State) : (raiseState c b s).inPtr = s.inPtr := rfl
@[simp] theorem raiseState_freq (c : CondCode) (b : BitVec 4) (s : State) : (raiseState c b s).freq = s.freq := rfl
@[simp] theorem raiseState_tree (c : CondCode) (b : BitVec 4) (s : State) : (raiseState c b s).tree = s.tree := rfl
@[simp] theorem raiseState_ct (c : CondCode) (b : BitVec 4) (s : State) : (raiseState c b s).ct = s.ct := rfl
@[simp] theorem raiseState_acc (c : CondCode) (b : BitVec 4) (s : State) : (raiseState c b s).acc = s.acc := rfl
@[simp] theorem raiseState_nbits (c : CondCode) (b : BitVec 4) (s : State) : (raiseState c b s).nbits = s.nbits := rfl
@[simp] theorem raiseState_rdByte (c : CondCode) (b : BitVec 4) (s : State) : (raiseState c b s).rdByte = s.rdByte := rfl
@[simp] theorem raiseState_rdNbits (c : CondCode) (b : BitVec 4) (s : State) : (raiseState c b s).rdNbits = s.rdNbits := rfl
@[simp] theorem raiseState_cur (c : CondCode) (b : BitVec 4) (s : State) : (raiseState c b s).cur = s.cur := rfl
@[simp] theorem raiseState_wstate (c : CondCode) (b : BitVec 4) (s : State) : (raiseState c b s).wstate = s.wstate := rfl
@[simp] theorem raiseState_sum (c : CondCode) (b : BitVec 4) (s : State) : (raiseState c b s).sum = s.sum := rfl
@[simp] theorem raiseState_inBuf (c : CondCode) (b : BitVec 4) (s : State) : (raiseState c b s).inBuf = s.inBuf := rfl
@[simp] theorem raiseState_out (c : CondCode) (b : BitVec 4) (s : State) : (raiseState c b s).out = s.out := rfl
@[simp] theorem raiseState_outRd (c : CondCode) (b : BitVec 4) (s : State) : (raiseState c b s).outRd = s.outRd := rfl
@[simp] theorem raiseState_script (c : CondCode) (b : BitVec 4) (s : State) : (raiseState c b s).script = s.script := rfl
@[simp] theorem raiseState_replies (c : CondCode) (b : BitVec 4) (s : State) : (raiseState c b s).replies = s.replies := rfl
@[simp] theorem raiseState_freeCtr (c : CondCode) (b : BitVec 4) (s : State) : (raiseState c b s).freeCtr = s.freeCtr := rfl

@[simp] theorem start_state (o : Op) (s : State) : (start o s).state = .busy := rfl
@[simp] theorem start_phase (o : Op) (s : State) : (start o s).phase = 1 := rfl
@[simp] theorem start_op (o : Op) (s : State) : (start o s).op = o := rfl
@[simp] theorem start_cmdRej (o : Op) (s : State) : (start o s).cmdRej = s.cmdRej := rfl
@[simp] theorem start_fatal (o : Op) (s : State) : (start o s).fatal = s.fatal := rfl
@[simp] theorem start_cond (o : Op) (s : State) : (start o s).cond = { code := .ok, sub := 0 } := rfl
@[simp] theorem start_errPos (o : Op) (s : State) : (start o s).errPos = 0 := rfl
@[simp] theorem start_inLen (o : Op) (s : State) : (start o s).inLen = s.inLen := rfl
@[simp] theorem start_outLen (o : Op) (s : State) : (start o s).outLen = 0 := rfl
@[simp] theorem start_bitCount (o : Op) (s : State) : (start o s).bitCount = 0 := rfl
@[simp] theorem start_symCount (o : Op) (s : State) : (start o s).symCount = 0 := rfl
@[simp] theorem start_origLen (o : Op) (s : State) : (start o s).origLen = 0 := rfl
@[simp] theorem start_len (o : Op) (s : State) : (start o s).len = s.inLen := rfl
@[simp] theorem start_inPtr (o : Op) (s : State) : (start o s).inPtr = s.inPtr := rfl
@[simp] theorem start_freq (o : Op) (s : State) : (start o s).freq = s.freq := rfl
@[simp] theorem start_tree (o : Op) (s : State) : (start o s).tree = s.tree := rfl
@[simp] theorem start_ct (o : Op) (s : State) : (start o s).ct = s.ct := rfl
@[simp] theorem start_acc (o : Op) (s : State) : (start o s).acc = s.acc := rfl
@[simp] theorem start_nbits (o : Op) (s : State) : (start o s).nbits = s.nbits := rfl
@[simp] theorem start_rdByte (o : Op) (s : State) : (start o s).rdByte = s.rdByte := rfl
@[simp] theorem start_rdNbits (o : Op) (s : State) : (start o s).rdNbits = s.rdNbits := rfl
@[simp] theorem start_cur (o : Op) (s : State) : (start o s).cur = s.cur := rfl
@[simp] theorem start_wstate (o : Op) (s : State) : (start o s).wstate = s.wstate := rfl
@[simp] theorem start_sum (o : Op) (s : State) : (start o s).sum = s.sum := rfl
@[simp] theorem start_inBuf (o : Op) (s : State) : (start o s).inBuf = s.inBuf := rfl
@[simp] theorem start_out (o : Op) (s : State) : (start o s).out = s.out := rfl
@[simp] theorem start_outRd (o : Op) (s : State) : (start o s).outRd = s.outRd := rfl
@[simp] theorem start_script (o : Op) (s : State) : (start o s).script = s.script := rfl
@[simp] theorem start_replies (o : Op) (s : State) : (start o s).replies = s.replies := rfl
@[simp] theorem start_freeCtr (o : Op) (s : State) : (start o s).freeCtr = s.freeCtr := rfl

@[simp] theorem acknowledge_state (s : State) : (acknowledge s).state = .idle := rfl
@[simp] theorem acknowledge_phase (s : State) : (acknowledge s).phase = 0 := rfl
@[simp] theorem acknowledge_op (s : State) : (acknowledge s).op = .encode := rfl
@[simp] theorem acknowledge_cmdRej (s : State) : (acknowledge s).cmdRej = false := rfl
@[simp] theorem acknowledge_fatal (s : State) : (acknowledge s).fatal = s.fatal := rfl
@[simp] theorem acknowledge_cond (s : State) : (acknowledge s).cond = { code := .ok, sub := 0 } := rfl
@[simp] theorem acknowledge_errPos (s : State) : (acknowledge s).errPos = 0 := rfl
@[simp] theorem acknowledge_inLen (s : State) : (acknowledge s).inLen = s.inLen := rfl
@[simp] theorem acknowledge_outLen (s : State) : (acknowledge s).outLen = 0 := rfl
@[simp] theorem acknowledge_bitCount (s : State) : (acknowledge s).bitCount = 0 := rfl
@[simp] theorem acknowledge_symCount (s : State) : (acknowledge s).symCount = 0 := rfl
@[simp] theorem acknowledge_origLen (s : State) : (acknowledge s).origLen = 0 := rfl
@[simp] theorem acknowledge_len (s : State) : (acknowledge s).len = s.len := rfl
@[simp] theorem acknowledge_inPtr (s : State) : (acknowledge s).inPtr = s.inPtr := rfl
@[simp] theorem acknowledge_freq (s : State) : (acknowledge s).freq = s.freq := rfl
@[simp] theorem acknowledge_tree (s : State) : (acknowledge s).tree = s.tree := rfl
@[simp] theorem acknowledge_ct (s : State) : (acknowledge s).ct = s.ct := rfl
@[simp] theorem acknowledge_acc (s : State) : (acknowledge s).acc = s.acc := rfl
@[simp] theorem acknowledge_nbits (s : State) : (acknowledge s).nbits = s.nbits := rfl
@[simp] theorem acknowledge_rdByte (s : State) : (acknowledge s).rdByte = s.rdByte := rfl
@[simp] theorem acknowledge_rdNbits (s : State) : (acknowledge s).rdNbits = s.rdNbits := rfl
@[simp] theorem acknowledge_cur (s : State) : (acknowledge s).cur = s.cur := rfl
@[simp] theorem acknowledge_wstate (s : State) : (acknowledge s).wstate = s.wstate := rfl
@[simp] theorem acknowledge_sum (s : State) : (acknowledge s).sum = s.sum := rfl
@[simp] theorem acknowledge_inBuf (s : State) : (acknowledge s).inBuf = s.inBuf := rfl
@[simp] theorem acknowledge_out (s : State) : (acknowledge s).out = [] := rfl
@[simp] theorem acknowledge_outRd (s : State) : (acknowledge s).outRd = 0 := rfl
@[simp] theorem acknowledge_script (s : State) : (acknowledge s).script = s.script := rfl
@[simp] theorem acknowledge_replies (s : State) : (acknowledge s).replies = s.replies := rfl
@[simp] theorem acknowledge_freeCtr (s : State) : (acknowledge s).freeCtr = s.freeCtr := rfl

@[simp] theorem reject_state (s : State) : (reject s).state = s.state := rfl
@[simp] theorem reject_phase (s : State) : (reject s).phase = s.phase := rfl
@[simp] theorem reject_op (s : State) : (reject s).op = s.op := rfl
@[simp] theorem reject_cmdRej (s : State) : (reject s).cmdRej = true := rfl
@[simp] theorem reject_fatal (s : State) : (reject s).fatal = s.fatal := rfl
@[simp] theorem reject_cond (s : State) : (reject s).cond = s.cond := rfl
@[simp] theorem reject_errPos (s : State) : (reject s).errPos = s.errPos := rfl
@[simp] theorem reject_inLen (s : State) : (reject s).inLen = s.inLen := rfl
@[simp] theorem reject_outLen (s : State) : (reject s).outLen = s.outLen := rfl
@[simp] theorem reject_bitCount (s : State) : (reject s).bitCount = s.bitCount := rfl
@[simp] theorem reject_symCount (s : State) : (reject s).symCount = s.symCount := rfl
@[simp] theorem reject_origLen (s : State) : (reject s).origLen = s.origLen := rfl
@[simp] theorem reject_len (s : State) : (reject s).len = s.len := rfl
@[simp] theorem reject_inPtr (s : State) : (reject s).inPtr = s.inPtr := rfl
@[simp] theorem reject_freq (s : State) : (reject s).freq = s.freq := rfl
@[simp] theorem reject_tree (s : State) : (reject s).tree = s.tree := rfl
@[simp] theorem reject_ct (s : State) : (reject s).ct = s.ct := rfl
@[simp] theorem reject_acc (s : State) : (reject s).acc = s.acc := rfl
@[simp] theorem reject_nbits (s : State) : (reject s).nbits = s.nbits := rfl
@[simp] theorem reject_rdByte (s : State) : (reject s).rdByte = s.rdByte := rfl
@[simp] theorem reject_rdNbits (s : State) : (reject s).rdNbits = s.rdNbits := rfl
@[simp] theorem reject_cur (s : State) : (reject s).cur = s.cur := rfl
@[simp] theorem reject_wstate (s : State) : (reject s).wstate = s.wstate := rfl
@[simp] theorem reject_sum (s : State) : (reject s).sum = s.sum := rfl
@[simp] theorem reject_inBuf (s : State) : (reject s).inBuf = s.inBuf := rfl
@[simp] theorem reject_out (s : State) : (reject s).out = s.out := rfl
@[simp] theorem reject_outRd (s : State) : (reject s).outRd = s.outRd := rfl
@[simp] theorem reject_script (s : State) : (reject s).script = s.script := rfl
@[simp] theorem reject_replies (s : State) : (reject s).replies = s.replies := rfl
@[simp] theorem reject_freeCtr (s : State) : (reject s).freeCtr = s.freeCtr := rfl

@[simp] theorem outcome_ok (s : State) : outcome (.ok s) = .next s := rfl
@[simp] theorem outcome_raised (s : State) : outcome (.error (.raised s)) = .next s := rfl
@[simp] theorem outcome_fault (f : Fault) : outcome (.error (.fault f)) = .fault f := rfl
@[simp] theorem lift_ok {α : Type} (a : α) : lift (.ok a) = .ok a := rfl
@[simp] theorem lift_error {α : Type} (f : Fault) : lift (.error f : Except Fault α) = .error (.fault f) := rfl

theorem raise_eq {α : Type} (k : CondCode) (b : BitVec 4) (s : State) :
    (raise k b s : Run α) = .error (.raised (raiseState k b s)) := rfl

/-- A sequence of two pieces succeeds exactly when both do. -/
theorem bind_eq_ok {ε α β : Type} {x : Except ε α} {f : α → Except ε β} {b : β} :
    (x >>= f) = .ok b ↔ ∃ a, x = .ok a ∧ f a = .ok b := by
  cases x <;> simp [bind, Except.bind]

/-- A sequence of two pieces fails exactly when the first fails or the second does after it. -/
theorem bind_eq_error {ε α β : Type} {x : Except ε α} {f : α → Except ε β} {e : ε} :
    (x >>= f) = .error e ↔ x = .error e ∨ ∃ a, x = .ok a ∧ f a = .error e := by
  cases x <;> simp [bind, Except.bind]

@[simp] theorem ok_bind {ε α β : Type} (a : α) (f : α → Except ε β) : ((Except.ok a : Except ε α) >>= f) = f a := rfl
@[simp] theorem error_bind {ε α β : Type} (e : ε) (f : α → Except ε β) :
    ((Except.error e : Except ε α) >>= f) = .error e := rfl

theorem lift_eq_ok {α : Type} {x : Except Fault α} {a : α} : lift x = .ok a ↔ x = .ok a := by
  cases x <;> simp [lift]

theorem lift_eq_raised {α : Type} {x : Except Fault α} {s : State} : lift x ≠ .error (.raised s) := by
  cases x <;> simp [lift]

/-- A phase answers a next state exactly when its pseudocode ends normally or raises. -/
theorem outcome_eq_next {r : Run State} {t : State} :
    outcome r = .next t ↔ r = .ok t ∨ r = .error (.raised t) := by
  rcases r with (_ | _) | _ <;> simp [outcome]

end Sys2Proof.Machine
end

