-- ==== Sys2Proof/Laws/Bits.lean ====
section
/-! SUPPORT. Bits and bytes: big-endian fields, setting one bit, the bits of a byte, of a path and of a code. -/
namespace Sys2Proof.Machine

theorem getLsbD_setBitTo {w : Nat} (v : BitVec w) (k : Nat) (x : Bool) (j : Nat) :
    (setBitTo v k x).getLsbD j = if j = k ∧ k < w then x else v.getLsbD j := by
  have hv : w ≤ j → v.getLsbD j = false := BitVec.getLsbD_of_ge v j
  have e : j < w → ((!decide (j < k) && decide (j - k = 0)) = decide (j = k)) := by
    intro _; rcases Nat.lt_trichotomy j k with h | h | h
    · simp [h, Nat.ne_of_lt h]
    · simp [h]
    · simp [Nat.not_lt_of_lt h, Nat.ne_of_gt h]; omega
  unfold setBitTo
  by_cases hj : j < w
  · by_cases hk : j = k
    · subst hk; cases x <;> simp [hj]
    · have h2 : (!decide (j < k) && decide (j - k = 0)) = false := by rw [e hj]; simp [hk]
      cases x <;> simp [hj, hk]
      · intro _; by_contra hc; push Not at hc; omega
      · omega
  · have hv := hv (by omega)
    have : ¬ (j = k ∧ k < w) := by omega
    cases x <;> simp [hj, hv, this]

/-- A 64-bit field written big-endian and read back is the same value (20_memory R72, 30_encoding R98). -/
theorem be64_bytesBE64 (v : Word) : be64 (bytesBE64 v) = v := by
  simp only [be64, bytesBE64, List.foldl]
  apply BitVec.eq_of_getLsbD_eq
  intro i hi
  simp only [BitVec.getLsbD_or, BitVec.getLsbD_shiftLeft, BitVec.getLsbD_setWidth, BitVec.getLsbD_extractLsb']
  interval_cases i <;> simp

/-- A counter that has been advanced once and then `n` times more. -/
theorem word_add_succ (x : Word) (n : Nat) : x + BitVec.ofNat 64 (n + 1) = x + 1 + BitVec.ofNat 64 n := by
  rw [Nat.add_comm, BitVec.ofNat_add, BitVec.add_assoc]; rfl

/-! ### The bits of bytes -/

@[simp] theorem length_byteBits (b : Byte) : (byteBits b).length = 8 := by simp [byteBits]

theorem getElem_byteBits (b : Byte) (k : Nat) (h : k < 8) :
    (byteBits b)[k]'(by simpa using h) = b.getLsbD (7 - k) := by simp [byteBits]

theorem byteBits_injective {b c : Byte} (h : byteBits b = byteBits c) : b = c := by
  apply BitVec.eq_of_getLsbD_eq
  intro i hi
  have hk : 7 - i < 8 := by omega
  have := congrArg (fun l => l[7 - i]?) h
  simp only [byteBits, List.getElem?_map, List.getElem?_range hk, Option.map_some, Option.some.injEq] at this
  rwa [show 7 - (7 - i) = i by omega] at this

@[simp] theorem bytesBits_nil : bytesBits [] = [] := rfl

@[simp] theorem bytesBits_cons (b : Byte) (bs : List Byte) : bytesBits (b :: bs) = byteBits b ++ bytesBits bs := rfl

@[simp] theorem bytesBits_append (bs cs : List Byte) : bytesBits (bs ++ cs) = bytesBits bs ++ bytesBits cs := by
  simp [bytesBits]

@[simp] theorem length_bytesBits (bs : List Byte) : (bytesBits bs).length = 8 * bs.length := by
  induction bs with
  | nil => rfl
  | cons b bs ih => simp [ih]; omega

/-- The bytes of a body are determined by its bits. -/
theorem bytesBits_injective {bs cs : List Byte} (h : bytesBits bs = bytesBits cs) : bs = cs := by
  induction bs generalizing cs with
  | nil =>
    cases cs with
    | nil => rfl
    | cons c cs => have := congrArg List.length h; simp at this; omega
  | cons b bs ih =>
    cases cs with
    | nil => have := congrArg List.length h; simp at this
    | cons c cs =>
      obtain ⟨h1, h2⟩ := List.append_inj h (by simp)
      rw [byteBits_injective h1, ih h2]

/-! ### Codes -/

@[simp] theorem length_toBits (c : CodeEntry) : c.toBits.length = c.len.toNat := by simp [CodeEntry.toBits]

@[simp] theorem toBits_empty : CodeEntry.empty.toBits = [] := rfl

/-- `append` adds one bit at the end of a path (43 R176). -/
theorem append_eq_ok {p q : CodeEntry} {x : Bool} (h : p.append x = .ok q) :
    p.len.toNat < 255 ∧ q.len.toNat = p.len.toNat + 1 ∧ q.toBits = p.toBits ++ [x] := by
  unfold CodeEntry.append at h
  split at h
  · rename_i hl
    cases h
    have hlen : (p.len + 1).toNat = p.len.toNat + 1 := by
      rw [BitVec.toNat_add]; simp; omega
    refine ⟨hl, hlen, ?_⟩
    simp only [CodeEntry.toBits, hlen, List.range_succ, List.map_append, List.map_cons, List.map_nil]
    congr 1
    · apply List.map_congr_left
      intro k hk
      have : k < p.len.toNat := List.mem_range.1 hk
      rw [getLsbD_setBitTo, if_neg (by omega)]
    · rw [getLsbD_setBitTo, if_pos ⟨rfl, hl⟩]
  · cases h

/-- A path shorter than 255 bits can be extended. -/
theorem append_ok {p : CodeEntry} (x : Bool) (h : p.len.toNat < 255) :
    ∃ q, p.append x = .ok q ∧ q.len.toNat = p.len.toNat + 1 ∧ q.toBits = p.toBits ++ [x] := by
  have : p.append x = .ok { len := p.len + 1, bits := setBitTo p.bits p.len.toNat x } := by
    simp [CodeEntry.append, h]
  exact ⟨_, this, (append_eq_ok this).2⟩

end Sys2Proof.Machine
end

