-- ==== Sys2Proof/Laws/Tables.lean ====
section
/-! SUPPORT. Reading a table entry after writing one. -/
namespace Sys2Proof.Machine

theorem nodeAt_nodeSet (node : Arena) (i j : NodeIx) (n : Node) :
    nodeAt (nodeSet node i n) j = if j = i then n else nodeAt node j := by
  simp only [nodeAt, nodeSet, Vector.getElem_set, Fin.ext_iff, eq_comm]

@[simp] theorem nodeAt_nodeSet_same (node : Arena) (i : NodeIx) (n : Node) : nodeAt (nodeSet node i n) i = n := by
  simp [nodeAt_nodeSet]

theorem nodeAt_nodeSet_ne {node : Arena} {i j : NodeIx} (n : Node) (h : j ≠ i) :
    nodeAt (nodeSet node i n) j = nodeAt node j := by simp [nodeAt_nodeSet, h]

theorem heapAt_heapSet (h : Heap) (j k : Fin 256) (i : NodeIx) :
    heapAt (heapSet h k i) j = if j = k then i else heapAt h j := by
  simp only [heapAt, heapSet, Vector.getElem_set, Fin.ext_iff, eq_comm]

theorem heapAt_heapSet_ne {h : Heap} {j k : Fin 256} (i : NodeIx) (hn : j ≠ k) :
    heapAt (heapSet h k i) j = heapAt h j := by simp [heapAt_heapSet, hn]

theorem heapAt_heapSwap (h : Heap) (i j k : Fin 256) :
    heapAt (heapSwap h i j) k = if k = i then heapAt h j else if k = j then heapAt h i else heapAt h k := by
  simp only [heapAt, heapSwap, Vector.getElem_swap, Fin.ext_iff]

theorem freqAt_freqSet (freq : Freq) (b c : Byte) (v : Word) :
    freqAt (freqSet freq b v) c = if c = b then v else freqAt freq c := by
  simp only [freqAt, freqSet, Vector.getElem_set, BitVec.toNat_eq, eq_comm]

theorem codeAt_codeSet (code : Vector CodeEntry 256) (b c : Byte) (p : CodeEntry) :
    codeAt (codeSet code b p) c = if c = b then p else codeAt code c := by
  simp only [codeAt, codeSet, Vector.getElem_set, BitVec.toNat_eq, eq_comm]

@[simp] theorem freqAt_replicate (v : Word) (b : Byte) : freqAt (Vector.replicate 256 v) b = v := by simp [freqAt]

@[simp] theorem codeAt_replicate (p : CodeEntry) (b : Byte) : codeAt (Vector.replicate 256 p) b = p := by simp [codeAt]

theorem freq_ext {f g : Freq} (h : ∀ b, freqAt f b = freqAt g b) : f = g := by
  apply Vector.ext
  intro i hi
  have := h (BitVec.ofNat 8 i)
  simp only [freqAt, BitVec.toNat_ofNat] at this
  have e : i % 2 ^ 8 = i := Nat.mod_eq_of_lt (by omega)
  simpa only [e] using this

theorem freqAt_ofFn (f : Fin 256 → Word) (b : Byte) : freqAt (Vector.ofFn f) b = f ⟨b.toNat, b.isLt⟩ := by
  simp [freqAt]

end Sys2Proof.Machine
end

