-- ==== Sys2Proof/Laws/Queue.lean ====
section
/-! SUPPORT. The priority queue: `Less` is a strict total order, both sifts permute the queue and restore the heap
invariant, and `PQ_INSERT` and `PQ_REMOVE_MIN` meet their contract (42 R150 to R156). -/
namespace Sys2Proof.Machine

/-! ### The order -/

theorem less_iff {node : Arena} {i j : NodeIx} :
    less node i j = true ↔ (nodeAt node i).weight.toNat < (nodeAt node j).weight.toNat ∨
      ((nodeAt node i).weight.toNat = (nodeAt node j).weight.toNat ∧ i.val < j.val) := by
  simp only [less, Bool.or_eq_true, Bool.and_eq_true, decide_eq_true_eq, beq_iff_eq, BitVec.lt_def, BitVec.toNat_eq,
    Fin.lt_def]

theorem not_less_iff {node : Arena} {i j : NodeIx} :
    less node i j = false ↔ ¬ ((nodeAt node i).weight.toNat < (nodeAt node j).weight.toNat ∨
      ((nodeAt node i).weight.toNat = (nodeAt node j).weight.toNat ∧ i.val < j.val)) := by
  rw [← less_iff]; simp

theorem less_irrefl (node : Arena) (i : NodeIx) : less node i i = false := by
  rw [not_less_iff]; omega

theorem not_less_of_less {node : Arena} {i j : NodeIx} (h : less node i j = true) : less node j i = false := by
  rw [less_iff] at h; rw [not_less_iff]; omega

/-- `not Less` composes: if `j` is not below `i` and `k` not below `j`, then `k` is not below `i`. -/
theorem not_less_trans {node : Arena} {i j k : NodeIx} (h1 : less node j i = false) (h2 : less node k j = false) :
    less node k i = false := by
  rw [not_less_iff] at *; omega

/-- `Less` is total on distinct indices (42 R151). -/
theorem eq_of_not_less {node : Arena} {i j : NodeIx} (h1 : less node i j = false) (h2 : less node j i = false) :
    i = j := by
  rw [not_less_iff] at *; apply Fin.ext; omega

/-- `Less` looks only at the two weights and the two indices. -/
theorem less_congr {node node' : Arena} {i j : NodeIx} (hi : (nodeAt node' i).weight = (nodeAt node i).weight)
    (hj : (nodeAt node' j).weight = (nodeAt node j).weight) : less node' i j = less node i j := by
  simp only [less, hi, hj]

/-! ### Swaps -/

theorem take_swap_perm (h : Heap) (i j : Fin 256) {n : Nat} (hi : i.val < n) (hj : j.val < n) :
    ((heapSwap h i j).toList.take n).Perm (h.toList.take n) := by
  have hdrop : (heapSwap h i j).toList.drop n = h.toList.drop n := by
    apply List.ext_getElem
    · simp
    · intro k h1 h2
      have hk : n + k < 256 := by simp at h1; omega
      simp only [List.getElem_drop, Vector.getElem_toList]
      unfold heapSwap
      rw [Vector.getElem_swap, if_neg (by omega), if_neg (by omega)]
  have hp : (heapSwap h i j).toList.Perm h.toList := by
    have := Vector.swap_perm (xs := h) i.isLt j.isLt
    exact Vector.perm_iff_toList_perm.1 this
  rw [← List.take_append_drop n (heapSwap h i j).toList, ← List.take_append_drop n h.toList, hdrop] at hp
  exact (List.perm_append_right_iff _).1 hp

theorem siftUp_perm (node : Arena) (fuel : Nat) (k : Fin 256) (h : Heap) {n : Nat} (hk : k.val < n) :
    ((siftUp node fuel k h).toList.take n).Perm (h.toList.take n) := by
  induction fuel generalizing k h with
  | zero => exact .refl _
  | succ fuel ih =>
    unfold siftUp
    split
    · have hp : (parent k).val < n := by simp only [parent]; omega
      exact (ih (parent k) _ hp).trans (take_swap_perm h k (parent k) hk hp)
    · exact .refl _

/-- What the choice of R154 gives: the node itself, or a child in the queue that is below it; and no child is below it. -/
theorem leastChild_spec (node : Arena) (size : Fin 257) (h : Heap) (k : Fin 256) :
    let m := leastChild node size h k
    (m = k ∨ (m.val < size.val ∧ parent m = k ∧ k.val < m.val ∧ less node (heapAt h m) (heapAt h k) = true)) ∧
    (∀ c : Fin 256, 1 ≤ c.val → c.val < size.val → parent c = k → less node (heapAt h c) (heapAt h m) = false) := by
  have key : ∀ c : Fin 256, 1 ≤ c.val → parent c = k → c.val = 2 * k.val + 1 ∨ c.val = 2 * k.val + 2 := by
    intro c h1 h2
    have := congrArg Fin.val h2
    simp only [parent] at this; omega
  -- the choice between `k` and its left child
  let m0 : Fin 256 := if hl : 2 * k.val + 1 < size.val then
      if less node (heapAt h ⟨2 * k.val + 1, by omega⟩) (heapAt h k) then ⟨2 * k.val + 1, by omega⟩ else k
    else k
  have h0 : (m0 = k ∨ (m0.val = 2 * k.val + 1 ∧ m0.val < size.val ∧ less node (heapAt h m0) (heapAt h k) = true)) ∧
      (∀ hl : 2 * k.val + 1 < size.val, less node (heapAt h ⟨2 * k.val + 1, by omega⟩) (heapAt h m0) = false) ∧
      less node (heapAt h k) (heapAt h m0) = false := by
    by_cases hl : 2 * k.val + 1 < size.val
    · by_cases hc : less node (heapAt h ⟨2 * k.val + 1, by omega⟩) (heapAt h k) = true
      · have hm : m0 = ⟨2 * k.val + 1, by omega⟩ := by simp only [m0]; rw [dif_pos hl, if_pos hc]
        rw [hm]
        exact ⟨.inr ⟨rfl, hl, hc⟩, fun _ => less_irrefl _ _, not_less_of_less hc⟩
      · have hm : m0 = k := by simp only [m0]; rw [dif_pos hl, if_neg hc]
        rw [hm]
        exact ⟨.inl rfl, fun _ => by simpa using hc, less_irrefl _ _⟩
    · have hm : m0 = k := by simp only [m0]; rw [dif_neg hl]
      rw [hm]
      exact ⟨.inl rfl, fun h => absurd h hl, less_irrefl _ _⟩
  obtain ⟨hm0, hleft, hself⟩ := h0
  have hpar1 : ∀ hk : 2 * k.val + 1 < 256, parent ⟨2 * k.val + 1, hk⟩ = k := by
    intro hk; apply Fin.ext; simp only [parent]; omega
  have hpar2 : ∀ hk : 2 * k.val + 2 < 256, parent ⟨2 * k.val + 2, hk⟩ = k := by
    intro hk; apply Fin.ext; simp only [parent]; omega
  have hm0' : m0 = k ∨ (m0.val < size.val ∧ parent m0 = k ∧ k.val < m0.val ∧ less node (heapAt h m0) (heapAt h k) = true) := by
    rcases hm0 with h | ⟨h1, h2, h3⟩
    · exact .inl h
    · have : m0 = ⟨2 * k.val + 1, by omega⟩ := Fin.ext h1
      exact .inr ⟨h2, by rw [this]; exact hpar1 _, by omega, h3⟩
  show (leastChild node size h k = k ∨ _) ∧ _
  by_cases hr : 2 * k.val + 2 < size.val
  · by_cases hc : less node (heapAt h ⟨2 * k.val + 2, by omega⟩) (heapAt h m0) = true
    · have hm : leastChild node size h k = ⟨2 * k.val + 2, by omega⟩ := by
        unfold leastChild; rw [dif_pos hr]; exact if_pos hc
      rw [hm]
      refine ⟨.inr ⟨hr, hpar2 _, by show k.val < 2 * k.val + 2; omega, ?_⟩, ?_⟩
      · have h3 := not_less_of_less hc
        by_contra hn
        have hn : less node (heapAt h ⟨2 * k.val + 2, by omega⟩) (heapAt h k) = false := by simpa using hn
        rw [less_iff] at hc; rw [not_less_iff] at hself hn h3; omega
      · intro c h1 h2 h3
        rcases key c h1 h3 with hcv | hcv
        · have e : c = ⟨2 * k.val + 1, by omega⟩ := Fin.ext hcv
          have := hleft (by omega)
          rw [e]
          exact not_less_trans (not_less_of_less hc) this
        · have e : c = ⟨2 * k.val + 2, by omega⟩ := Fin.ext hcv
          rw [e]; exact less_irrefl _ _
    · have hm : leastChild node size h k = m0 := by
        unfold leastChild; rw [dif_pos hr]; exact if_neg hc
      rw [hm]
      refine ⟨hm0', ?_⟩
      intro c h1 h2 h3
      rcases key c h1 h3 with hcv | hcv
      · have e : c = ⟨2 * k.val + 1, by omega⟩ := Fin.ext hcv
        rw [e]; exact hleft (by omega)
      · have e : c = ⟨2 * k.val + 2, by omega⟩ := Fin.ext hcv
        rw [e]; simpa using hc
  · have hm : leastChild node size h k = m0 := by
      unfold leastChild; rw [dif_neg hr]
    rw [hm]
    refine ⟨hm0', ?_⟩
    intro c h1 h2 h3
    rcases key c h1 h3 with hcv | hcv
    · have e : c = ⟨2 * k.val + 1, by omega⟩ := Fin.ext hcv
      rw [e]; exact hleft (by omega)
    · omega

theorem siftDown_perm (node : Arena) (size : Fin 257) (fuel : Nat) (k : Fin 256) (h : Heap) (hk : k.val < size.val) :
    ((siftDown node size fuel k h).toList.take size.val).Perm (h.toList.take size.val) := by
  induction fuel generalizing k h with
  | zero => exact .refl _
  | succ fuel ih =>
    simp only [siftDown]
    split
    · exact .refl _
    · rename_i hm
      have hm' := ((leastChild_spec node size h k).1.resolve_left hm).1
      exact (ih _ _ hm').trans (take_swap_perm h k _ hk hm')

/-! ### The heap invariant -/

/-- The heap invariant but for the pair of `k` and its parent; the children of `k` are not below that parent. -/
def UpInv (node : Arena) (n : Nat) (h : Heap) (k : Fin 256) : Prop :=
  (∀ j : Fin 256, 1 ≤ j.val → j.val < n → j ≠ k → less node (heapAt h j) (heapAt h (parent j)) = false) ∧
  (∀ c : Fin 256, 1 ≤ c.val → c.val < n → parent c = k → 1 ≤ k.val → less node (heapAt h c) (heapAt h (parent k)) = false)

theorem siftUp_heap {node : Arena} {n : Nat} (fuel : Nat) (k : Fin 256) (h : Heap) (hf : k.val ≤ fuel)
    (hi : UpInv node n h k) :
    ∀ j : Fin 256, 1 ≤ j.val → j.val < n →
      less node (heapAt (siftUp node fuel k h) j) (heapAt (siftUp node fuel k h) (parent j)) = false := by
  induction fuel generalizing k h with
  | zero =>
    intro j h1 h2
    exact hi.1 j h1 h2 (by rintro rfl; omega)
  | succ fuel ih =>
    unfold siftUp
    split
    · rename_i hc
      obtain ⟨hk, hlt⟩ := hc
      have hpk : (parent k).val = (k.val - 1) / 2 := rfl
      refine ih (parent k) _ (by omega) ⟨?_, ?_⟩
      · intro j h1 h2 hj
        have hpj : (parent j).val = (j.val - 1) / 2 := rfl
        simp only [heapAt_heapSwap]
        by_cases hjk : j = k
        · subst hjk
          have e1 : parent j ≠ j := by intro e; have := congrArg Fin.val e; omega
          rw [if_pos rfl, if_neg e1, if_pos rfl]
          exact not_less_of_less hlt
        · rw [if_neg hjk, if_neg hj]
          by_cases hpjk : parent j = k
          · rw [if_pos hpjk]
            exact hi.2 j h1 h2 hpjk hk
          · rw [if_neg hpjk]
            by_cases hpp : parent j = parent k
            · rw [if_pos hpp]
              have := hi.1 j h1 h2 hjk
              rw [hpp] at this
              exact not_less_trans (not_less_of_less hlt) this
            · rw [if_neg hpp]
              exact hi.1 j h1 h2 hjk
      · intro c h1 h2 hcp hp
        have hcv : (parent c).val = (c.val - 1) / 2 := rfl
        have hppv : (parent (parent k)).val = ((parent k).val - 1) / 2 := rfl
        have e1 : parent (parent k) ≠ k := by intro e; have := congrArg Fin.val e; omega
        have e2 : parent (parent k) ≠ parent k := by intro e; have := congrArg Fin.val e; omega
        have hpne : parent k ≠ k := by intro e; have := congrArg Fin.val e; omega
        have hpn : (parent k).val < n := by have := congrArg Fin.val hcp; omega
        have base := hi.1 (parent k) hp hpn hpne
        simp only [heapAt_heapSwap, if_neg e1, if_neg e2]
        by_cases hck : c = k
        · rw [if_pos hck]; exact base
        · have e3 : c ≠ parent k := by
            intro e; rw [← e] at hcp; have := congrArg Fin.val hcp; omega
          rw [if_neg hck, if_neg e3]
          have := hi.1 c h1 h2 hck
          rw [hcp] at this
          exact not_less_trans base this
    · rename_i hc
      intro j h1 h2
      by_cases hjk : j = k
      · subst hjk
        by_contra hn
        exact hc ⟨by omega, by simpa using hn⟩
      · exact hi.1 j h1 h2 hjk

/-- The heap invariant but for the pairs of `k` and its children; those children are not below the parent of `k`. -/
def DownInv (node : Arena) (n : Nat) (h : Heap) (k : Fin 256) : Prop :=
  (∀ j : Fin 256, 1 ≤ j.val → j.val < n → parent j ≠ k → less node (heapAt h j) (heapAt h (parent j)) = false) ∧
  (∀ c : Fin 256, 1 ≤ c.val → c.val < n → parent c = k → 1 ≤ k.val → less node (heapAt h c) (heapAt h (parent k)) = false)

theorem siftDown_heap {node : Arena} (size : Fin 257) (fuel : Nat) (k : Fin 256) (h : Heap)
    (hf : size.val ≤ fuel + k.val) (hi : DownInv node size.val h k) :
    ∀ j : Fin 256, 1 ≤ j.val → j.val < size.val →
      less node (heapAt (siftDown node size fuel k h) j) (heapAt (siftDown node size fuel k h) (parent j)) = false := by
  induction fuel generalizing k h with
  | zero =>
    intro j h1 h2
    refine hi.1 j h1 h2 ?_
    intro e
    have := congrArg Fin.val e
    simp only [parent] at this; omega
  | succ fuel ih =>
    obtain ⟨hm, hleast⟩ := leastChild_spec node size h k
    simp only [siftDown]
    split
    · rename_i hmk
      intro j h1 h2
      by_cases hp : parent j = k
      · have := hleast j h1 h2 hp
        rw [hmk] at this; rw [hp]; exact this
      · exact hi.1 j h1 h2 hp
    · rename_i hmk
      obtain ⟨hms, hpm, hkm, hlt⟩ := hm.resolve_left hmk
      generalize leastChild node size h k = m at *
      refine ih m _ (by omega) ⟨?_, ?_⟩
      · intro j h1 h2 hpj
        have hjv : (parent j).val = (j.val - 1) / 2 := rfl
        simp only [heapAt_heapSwap]
        by_cases hp : parent j = k
        · rw [if_pos hp]
          have hjk : j ≠ k := by intro e; rw [e] at hp; have := congrArg Fin.val hp; simp only [parent] at this; omega
          rw [if_neg hjk]
          by_cases hjm : j = m
          · rw [if_pos hjm]; exact not_less_of_less hlt
          · rw [if_neg hjm]; exact hleast j h1 h2 hp
        · rw [if_neg hp, if_neg hpj]
          by_cases hjk : j = k
          · rw [if_pos hjk]; subst hjk
            exact hi.2 m (by omega) hms hpm h1
          · have hjm : j ≠ m := by rintro rfl; exact hp hpm
            rw [if_neg hjk, if_neg hjm]
            exact hi.1 j h1 h2 hp
      · intro c h1 h2 hcm _
        have hcv : (parent c).val = (c.val - 1) / 2 := rfl
        have := congrArg Fin.val hcm
        have e1 : c ≠ k := by rintro rfl; omega
        have e2 : c ≠ m := by rintro rfl; omega
        simp only [heapAt_heapSwap, hpm, if_neg e1, if_neg e2, ↓reduceIte]
        have := hi.1 c h1 h2 (by rw [hcm]; exact hmk)
        rwa [hcm] at this

/-- In a heap no member is below the one on top (42 R155). -/
theorem heap_top_least {t : TreeBuilder} (h : t.HeapOk) :
    ∀ n, ∀ hk : n < 256, n < t.pqSize.val → less t.node (heapAt t.heap ⟨n, hk⟩) (heapAt t.heap 0) = false := by
  intro n
  induction n using Nat.strong_induction_on with
  | _ n ih =>
    intro hk hs
    by_cases h0 : n = 0
    · subst h0; exact less_irrefl _ _
    · have hp := h ⟨n, hk⟩ (by show 1 ≤ n; omega) hs
      have := ih ((n - 1) / 2) (by omega) (by omega) (by omega)
      exact not_less_trans this hp

/-! ### The contract of the two primitives -/

theorem mem_members {t : TreeBuilder} {i : NodeIx} :
    i ∈ t.members ↔ ∃ k, ∃ hk : k < 256, k < t.pqSize.val ∧ heapAt t.heap ⟨k, hk⟩ = i := by
  unfold TreeBuilder.members
  rw [List.mem_take_iff_getElem]
  constructor
  · rintro ⟨k, hk, rfl⟩
    simp at hk
    exact ⟨k, by omega, by omega, by simp [heapAt]⟩
  · rintro ⟨k, hk, hs, rfl⟩
    exact ⟨k, by simp; omega, by simp [heapAt]⟩

@[simp] theorem length_members (t : TreeBuilder) : t.members.length = t.pqSize.val := by
  simp [TreeBuilder.members]; omega

/-- `PQ_INSERT` succeeds exactly while there is room. -/
theorem pqInsert_ok {i : NodeIx} {t : TreeBuilder} (h : t.pqSize.val < 256) : ∃ t', pqInsert i t = .ok t' := by
  simp [pqInsert, h]

/-- Everything `PQ_INSERT` does (42 R153): one member more, the size, nothing else but the layout of `HEAP`. -/
theorem pqInsert_spec {i : NodeIx} {t t' : TreeBuilder} (h : pqInsert i t = .ok t') :
    t.pqSize.val < 256 ∧ t'.pqSize.val = t.pqSize.val + 1 ∧ t'.members.Perm (i :: t.members) ∧
      t'.node = t.node ∧ t'.next = t.next ∧ t'.root = t.root ∧ (t.HeapOk → t'.HeapOk) := by
  unfold pqInsert at h
  split at h
  · rename_i hk
    cases h
    refine ⟨hk, rfl, ?_, rfl, rfl, rfl, ?_⟩
    · show ((siftUp t.node t.pqSize.val ⟨t.pqSize.val, hk⟩ (heapSet t.heap ⟨t.pqSize.val, hk⟩ i)).toList.take
        (t.pqSize.val + 1)).Perm _
      refine (siftUp_perm _ _ _ _ (by simp)).trans ?_
      have : (heapSet t.heap ⟨t.pqSize.val, hk⟩ i).toList.take (t.pqSize.val + 1) = t.members ++ [i] := by
        rw [List.take_succ_eq_append_getElem (by simp; omega)]
        congr 1
        · simp [TreeBuilder.members, heapSet, Vector.toList_set, List.take_set_of_le]
        · simp [heapSet]
      rw [this]
      exact List.perm_append_singleton i t.members
    · intro hh j h1 h2
      refine siftUp_heap (n := t.pqSize.val + 1) _ _ _ (le_refl _) ⟨?_, ?_⟩ j h1 h2
      · intro j h1 h2 hj
        have hjv : j.val ≠ t.pqSize.val := fun e => hj (Fin.ext e)
        have hpv : (parent j).val = (j.val - 1) / 2 := rfl
        have := hh j h1 (by omega)
        rw [heapAt_heapSet_ne _ hj, heapAt_heapSet_ne _ (fun e => by have := congrArg Fin.val e; simp only at this; omega)]
        exact this
      · intro c h1 h2 hc _
        have := congrArg Fin.val hc
        simp only [parent] at this; omega
  · cases h

/-- `PQ_REMOVE_MIN` succeeds exactly on a non-empty queue. -/
theorem pqRemoveMin_ok {t : TreeBuilder} (h : 0 < t.pqSize.val) : ∃ r t', pqRemoveMin t = .ok (r, t') := by
  simp [pqRemoveMin, h]

/-- Everything `PQ_REMOVE_MIN` does (42 R154): one member less, and when the heap invariant holds it is the least. -/
theorem pqRemoveMin_spec {t t' : TreeBuilder} {r : NodeIx} (h : pqRemoveMin t = .ok (r, t')) :
    0 < t.pqSize.val ∧ t'.pqSize.val + 1 = t.pqSize.val ∧ t.members.Perm (r :: t'.members) ∧
      t'.node = t.node ∧ t'.next = t.next ∧ t'.root = t.root ∧
      (t.HeapOk → t'.HeapOk ∧ ∀ i ∈ t.members, less t.node i r = false) := by
  unfold pqRemoveMin at h
  split at h
  · rename_i hs
    cases h
    have htop : t.HeapOk → ∀ i ∈ t.members, less t.node i (heapAt t.heap 0) = false := by
      intro hh i hi
      obtain ⟨k, hk, hks, rfl⟩ := mem_members.1 hi
      exact heap_top_least hh k hk hks
    by_cases h1 : t.pqSize.val = 1
    · refine ⟨hs, by simp [h1], ?_, rfl, rfl, rfl, fun hh => ⟨?_, htop hh⟩⟩
      · have : t.members = [(heapAt t.heap 0)] := by
          apply List.ext_getElem
          · simp [h1]
          · intro k h2 h3
            have : k = 0 := by simp at h3; exact h3
            subst this
            simp [TreeBuilder.members, heapAt]
        rw [this]
        simp [TreeBuilder.members, h1]
      · intro k hk1 hk2
        simp [h1] at hk2
    · have hlt : 0 < t.pqSize.val - 1 := by omega
      simp only [hlt, ↓reduceIte]
      refine ⟨hs, by omega, ?_, trivial, trivial, trivial, fun hh => ⟨?_, htop hh⟩⟩
      · have hsz : t.pqSize.val ≤ 256 := by omega
        set last : Fin 256 := ⟨t.pqSize.val - 1, by omega⟩ with hlast
        have e1 : (heapSet t.heap 0 (heapAt t.heap last)).toList.take (t.pqSize.val - 1) =
            (heapAt t.heap last) :: (t.heap.toList.take (t.pqSize.val - 1)).tail := by
          apply List.ext_getElem
          · simp; omega
          · intro k hk1 hk2
            cases k with
            | zero => simp [heapSet]
            | succ k => simp [heapSet]
        have e2 : t.members = (heapAt t.heap 0) :: ((t.heap.toList.take (t.pqSize.val - 1)).tail ++ [(heapAt t.heap last)]) := by
          apply List.ext_getElem
          · simp; omega
          · intro k hk1 hk2
            have hk1' : k < t.pqSize.val := by simpa using hk1
            cases k with
            | zero => simp [TreeBuilder.members, heapAt]
            | succ k =>
              simp only [TreeBuilder.members, List.getElem_take, Vector.getElem_toList, List.getElem_cons_succ]
              by_cases hk : k + 1 < t.pqSize.val - 1
              · rw [List.getElem_append_left (by simp; omega)]
                simp
              · rw [List.getElem_append_right (by simp; omega)]
                simp only [List.getElem_singleton, heapAt, hlast]
                congr 1; omega
        rw [e2]
        refine List.Perm.cons _ ?_
        have := siftDown_perm t.node ⟨t.pqSize.val - 1, by omega⟩ (t.pqSize.val - 1) 0
          (heapSet t.heap 0 (heapAt t.heap last)) (by simpa using hlt)
        refine (List.Perm.trans ?_ (List.Perm.symm this))
        simp only
        rw [e1]
        exact List.perm_append_singleton _ _
      · intro j hj1 hj2
        refine siftDown_heap (node := t.node) ⟨t.pqSize.val - 1, by omega⟩ _ 0 _ (by simp) ⟨?_, ?_⟩ j hj1 hj2
        · intro j h1 h2 hp
          simp only at h2
          have hpv : (parent j).val = (j.val - 1) / 2 := rfl
          have hp0 : (parent j).val ≠ 0 := fun e => hp (Fin.ext e)
          have := hh j h1 (by omega)
          rw [heapAt_heapSet_ne _ (fun e => by have := congrArg Fin.val e; simp at this; omega),
            heapAt_heapSet_ne _ (fun e => hp0 (congrArg Fin.val e))]
          exact this
        · intro c _ _ _ h0
          simp at h0
  · cases h

end Sys2Proof.Machine
end

