-- ==== Sys2Proof/Laws/Tree.lean ====
section
/-! SUPPORT. The tree builder: what adding a node, one merge round, the leaf loop and the merge loop do (42 R157 to R164). -/
namespace Sys2Proof.Machine

/-! ### Adding a node -/

/-- The heap invariant looks only at the weights of members. -/
theorem TreeBuilder.HeapOk.congr {t t' : TreeBuilder} (h : t.HeapOk) (hh : t'.heap = t.heap)
    (hs : t'.pqSize = t.pqSize) (hw : ∀ i ∈ t.members, (nodeAt t'.node i).weight = (nodeAt t.node i).weight) :
    t'.HeapOk := by
  intro k h1 h2
  rw [hs] at h2
  have hk : heapAt t.heap k ∈ t.members := mem_members.2 ⟨k.val, k.isLt, h2, rfl⟩
  have hp : heapAt t.heap (parent k) ∈ t.members :=
    mem_members.2 ⟨(parent k).val, (parent k).isLt, by simp only [parent]; omega, rfl⟩
  rw [hh, less_congr (hw _ hk) (hw _ hp)]
  exact h k h1 h2

theorem addNode_ok {n : Node} {t : TreeBuilder} (hn : t.next.val < 511) (hs : t.pqSize.val < 256) :
    ∃ t', addNode n t = .ok t' := by
  obtain ⟨t1, h1⟩ := pqInsert_ok (i := ⟨t.next.val, hn⟩) (t := { t with node := nodeSet t.node ⟨t.next.val, hn⟩ n }) hs
  exact ⟨{ t1 with next := ⟨t.next.val + 1, by omega⟩ }, by simp [addNode, hn, h1]⟩

/-- Everything `NODE[NEXT] <- n; PQ_INSERT(NEXT); NEXT <- NEXT + 1` does. -/
theorem addNode_spec {n : Node} {t t' : TreeBuilder} (h : addNode n t = .ok t') :
    ∃ hn : t.next.val < 511, t'.node = nodeSet t.node ⟨t.next.val, hn⟩ n ∧ t'.next.val = t.next.val + 1 ∧
      t'.pqSize.val = t.pqSize.val + 1 ∧ t'.root = t.root ∧ t'.members.Perm (⟨t.next.val, hn⟩ :: t.members) ∧
      (t.QueueOk → t'.QueueOk) := by
  unfold addNode at h
  split at h
  · rename_i hn
    obtain ⟨t1, h1, h2⟩ := bind_eq_ok.1 h
    cases h2
    obtain ⟨-, hs, hm, hnode, hnext, hroot, hheap⟩ := pqInsert_spec h1
    refine ⟨hn, hnode, rfl, hs, hroot, hm, fun hq => ?_⟩
    have hfresh : ∀ i ∈ t.members, i ≠ ⟨t.next.val, hn⟩ := by
      intro i hi e
      have := hq.written i hi
      rw [e] at this; simp at this
    refine ⟨?_, ?_, ?_⟩
    · refine (hheap (hq.heap.congr rfl rfl ?_)).congr rfl rfl (fun _ _ => rfl)
      intro i hi
      rw [nodeAt_nodeSet_ne _ (hfresh i hi)]
    · exact hm.symm.nodup (List.nodup_cons.2 ⟨fun hi => hfresh _ hi rfl, hq.nodup⟩)
    · intro i hi
      rcases List.mem_cons.1 (hm.mem_iff.1 hi) with e | e
      · rw [e]; show t.next.val < t.next.val + 1; omega
      · have := hq.written i e
        show i.val < t.next.val + 1; omega
  · cases h

theorem pqRemoveMin_queueOk {t t' : TreeBuilder} {r : NodeIx} (h : pqRemoveMin t = .ok (r, t')) (hq : t.QueueOk) :
    t'.QueueOk ∧ r.val < t.next.val := by
  obtain ⟨-, -, hm, -, hnext, -, hh⟩ := pqRemoveMin_spec h
  have hn := hm.nodup hq.nodup
  refine ⟨⟨(hh hq.heap).1, (List.nodup_cons.1 hn).2, ?_⟩, hq.written r (hm.symm.subset (List.mem_cons_self))⟩
  intro i hi
  rw [hnext]
  exact hq.written i (hm.symm.subset (List.mem_cons_of_mem _ hi))

/-! ### One merge round -/

/-- The internal node that a round adds (42 R160, R161). -/
def joined (node : Arena) (a b : NodeIx) : Node :=
  { kind := .internal, sym := 0, weight := (nodeAt node a).weight + (nodeAt node b).weight, left := b, right := a }

/-- Everything one round does: the least member `a`, the least `b` of the others, the node that joins them. -/
structure Joins (t : TreeBuilder) (a b : NodeIx) (rest : List NodeIx) (t' : TreeBuilder) : Prop where
  room : t.next.val < 511
  members : t.members.Perm (a :: b :: rest)
  members' : t'.members.Perm (⟨t.next.val, room⟩ :: rest)
  node : t'.node = nodeSet t.node ⟨t.next.val, room⟩ (joined t.node a b)
  next : t'.next.val = t.next.val + 1
  size : t'.pqSize.val + 1 = t.pqSize.val
  root : t'.root = t.root
  queue : t.QueueOk → t'.QueueOk
  least : t.HeapOk → (∀ i ∈ t.members, less t.node i a = false) ∧ (∀ i ∈ b :: rest, less t.node i b = false)

theorem mergeRound_spec {t t' : TreeBuilder} (h : mergeRound t = .ok t') : ∃ a b rest, Joins t a b rest t' := by
  obtain ⟨⟨a, t1⟩, h1, h⟩ := bind_eq_ok.1 h
  obtain ⟨⟨b, t2⟩, h2, h⟩ := bind_eq_ok.1 h
  obtain ⟨-, s1, m1, n1, x1, r1, hh1⟩ := pqRemoveMin_spec h1
  obtain ⟨-, s2, m2, n2, x2, r2, hh2⟩ := pqRemoveMin_spec h2
  obtain ⟨hn, hnode, hnext, hsize, hroot, hm, hq⟩ := addNode_spec h
  have x : t2.next.val = t.next.val := by rw [x2, x1]
  have hn' : t.next.val < 511 := x ▸ hn
  have ei : (⟨t2.next.val, hn⟩ : NodeIx) = ⟨t.next.val, hn'⟩ := Fin.ext x
  refine ⟨a, b, t2.members, ⟨hn', m1.trans (m2.cons a), ?_, ?_, ?_, ?_, ?_, ?_, ?_⟩⟩
  · rw [← ei]; exact hm
  · rw [hnode, ei, n2, n1]; rfl
  · rw [hnext, x]
  · omega
  · rw [hroot, r2, r1]
  · intro q
    exact hq (pqRemoveMin_queueOk h2 (pqRemoveMin_queueOk h1 q).1).1
  · intro hh
    refine ⟨(hh1 hh).2, ?_⟩
    intro i hi
    have := (hh2 (hh1 hh).1).2 i (m2.symm.subset hi)
    rwa [n1] at this

theorem mergeRound_ok {t : TreeBuilder} (hn : t.next.val < 511) (hs : 1 < t.pqSize.val) :
    ∃ t', mergeRound t = .ok t' := by
  obtain ⟨a, t1, h1⟩ := pqRemoveMin_ok (t := t) (by omega)
  obtain ⟨-, s1, -, -, x1, -, -⟩ := pqRemoveMin_spec h1
  obtain ⟨b, t2, h2⟩ := pqRemoveMin_ok (t := t1) (by omega)
  obtain ⟨-, s2, -, -, x2, -, -⟩ := pqRemoveMin_spec h2
  have : t2.next.val = t.next.val := by rw [x2, x1]
  obtain ⟨t', h3⟩ := addNode_ok (t := t2) (n := joined t2.node a b) (by omega) (by omega)
  exact ⟨t', bind_eq_ok.2 ⟨_, h1, bind_eq_ok.2 ⟨_, h2, h3⟩⟩⟩

/-! ### The merge loop, by induction on its rounds -/

/-- The merge loop answers, and what every round keeps (a property of the tree builder preserved by `Joins`) holds of
its result, on which at most one member is left. -/
theorem mergeLoop_induct {P : TreeBuilder → Prop}
    (hP : ∀ t a b rest t', P t → t.QueueOk → Joins t a b rest t' → P t') :
    ∀ (fuel : Nat) (t : TreeBuilder), t.pqSize.val ≤ fuel + 1 → 1 ≤ t.pqSize.val →
      t.next.val + t.pqSize.val ≤ 512 → t.QueueOk → P t →
      ∃ t', mergeLoop fuel t = .ok t' ∧ P t' ∧ t'.QueueOk ∧ t'.pqSize.val = 1 ∧
        t'.next.val + 1 = t.next.val + t.pqSize.val ∧ t'.root = t.root := by
  intro fuel
  induction fuel with
  | zero =>
    intro t h1 h2 h3 hq hp
    exact ⟨t, rfl, hp, hq, by omega, by omega, rfl⟩
  | succ fuel ih =>
    intro t h1 h2 h3 hq hp
    unfold mergeLoop
    split
    · rename_i hs
      obtain ⟨t1, e1⟩ := mergeRound_ok (t := t) (by omega) hs
      obtain ⟨a, b, rest, j⟩ := mergeRound_spec e1
      have s := j.size
      have x := j.next
      obtain ⟨t', e2, hp', hq', s', x', r'⟩ := ih t1 (by omega) (by omega) (by omega) (j.queue hq) (hP t a b rest t1 hp hq j)
      exact ⟨t', by simp [e1, e2], hp', hq', s', by omega, by rw [r', j.root]⟩
    · exact ⟨t, rfl, hp, hq, by omega, by omega, rfl⟩

/-! ### Leaves -/

/-- The leaf node of a byte value (42 R158). -/
def leafNode (freq : Freq) (x : Byte) : Node :=
  { kind := .leaf, sym := x, weight := freqAt freq x, left := 0, right := 0 }

/-- The byte values below `m` with a non-zero count, ascending. -/
def symsBelow (freq : Freq) (m : Nat) : List Byte := (allBytes.take m).filter fun b => freqAt freq b != 0

theorem symsBelow_all (freq : Freq) : symsBelow freq 256 = symbolsOf freq := by
  unfold symsBelow symbolsOf
  rw [List.take_of_length_le (by simp [allBytes])]

theorem symsBelow_succ (freq : Freq) {m : Nat} (hm : m < 256) :
    symsBelow freq (m + 1) =
      symsBelow freq m ++ if freqAt freq (BitVec.ofNat 8 m) = 0 then [] else [BitVec.ofNat 8 m] := by
  unfold symsBelow
  rw [List.take_succ_eq_append_getElem (by simp [allBytes]; omega), List.filter_append]
  congr 1
  simp only [allBytes, List.getElem_map, List.getElem_range]
  split
  · rename_i h; simp [h]
  · rename_i h; simpa using h

theorem length_symsBelow (freq : Freq) (m : Nat) : (symsBelow freq m).length ≤ m :=
  (List.length_filter_le _ _).trans (by simp [allBytes])

/-- What holds after the leaves of the byte values below `m` are in the queue. -/
structure LeavesOk (freq : Freq) (t0 : TreeBuilder) (m : Nat) (t : TreeBuilder) : Prop where
  next : t.next.val = (symsBelow freq m).length
  size : t.pqSize.val = (symsBelow freq m).length
  leaves : ∀ (i : NodeIx) (h : i.val < (symsBelow freq m).length), nodeAt t.node i = leafNode freq (symsBelow freq m)[i.val]
  rest : ∀ i : NodeIx, (symsBelow freq m).length ≤ i.val → nodeAt t.node i = nodeAt t0.node i
  members : ∀ i : NodeIx, i ∈ t.members ↔ i.val < (symsBelow freq m).length
  queue : t.QueueOk
  root : t.root = t0.root

theorem leafLoop_spec {freq : Freq} {t0 : TreeBuilder} :
    ∀ (n : Nat) (t : TreeBuilder), n ≤ 256 → LeavesOk freq t0 (256 - n) t →
      ∃ t', leafLoop freq n t = .ok t' ∧ LeavesOk freq t0 256 t' := by
  intro n
  induction n with
  | zero => intro t _ h; exact ⟨t, rfl, h⟩
  | succ n ih =>
    intro t hn h
    have e : 256 - (n + 1) = 255 - n := by omega
    have e' : 256 - n = (255 - n) + 1 := by omega
    rw [e] at h
    have hlen := length_symsBelow freq (255 - n)
    have hs := symsBelow_succ freq (m := 255 - n) (by omega)
    unfold leafLoop
    simp only
    split
    · rename_i h0
      rw [if_pos h0, List.append_nil] at hs
      refine ih t (by omega) ?_
      rw [e']
      constructor
      · rw [hs]; exact h.next
      · rw [hs]; exact h.size
      · intro i hi
        simp only [hs] at hi ⊢
        exact h.leaves i hi
      · rw [hs]; exact h.rest
      · rw [hs]; exact h.members
      · exact h.queue
      · exact h.root
    · rename_i h0
      rw [if_neg h0] at hs
      obtain ⟨t1, h1⟩ := addNode_ok (n := leafNode freq (BitVec.ofNat 8 (255 - n))) (t := t)
        (by rw [h.next]; omega) (by rw [h.size]; omega)
      obtain ⟨hr, hnode, hnext, hsize, hroot, hm, hq⟩ := addNode_spec h1
      have step : LeavesOk freq t0 (256 - n) t1 := by
        rw [e']
        have hl : (symsBelow freq (255 - n + 1)).length = (symsBelow freq (255 - n)).length + 1 := by simp [hs]
        constructor
        · rw [hl, hnext, h.next]
        · rw [hl, hsize, h.size]
        · intro i hi
          rw [hnode, nodeAt_nodeSet]
          split
          · rename_i hi2
            subst hi2
            simp only [hs, h.next]
            rw [List.getElem_append_right (le_refl _)]
            simp
          · rename_i hi2
            have hi3 : i.val < (symsBelow freq (255 - n)).length := by
              have : i.val ≠ t.next.val := fun e => hi2 (Fin.ext e)
              have := h.next
              omega
            rw [h.leaves i hi3]
            simp only [hs]
            rw [List.getElem_append_left hi3]
        · intro i hi
          have hi2 : i ≠ ⟨t.next.val, hr⟩ := by
            intro e
            have e2 : i.val = t.next.val := congrArg Fin.val e
            have := h.next
            omega
          rw [hnode, nodeAt_nodeSet_ne _ hi2]
          exact h.rest i (by omega)
        · intro i
          rw [hm.mem_iff, List.mem_cons, h.members, hl]
          have := h.next
          constructor
          · rintro (e | e)
            · rw [e]; simp only; omega
            · omega
          · intro e
            by_cases hi : i.val < (symsBelow freq (255 - n)).length
            · exact .inr hi
            · exact .inl (Fin.ext (by simp only; omega))
        · exact hq h.queue
        · rw [hroot, h.root]
      obtain ⟨t', h2, h3⟩ := ih t1 (by omega) step
      refine ⟨t', ?_, h3⟩
      show (addNode (leafNode freq (BitVec.ofNat 8 (255 - n))) t >>= fun t1 => leafLoop freq n t1) = .ok t'
      rw [h1]; exact h2

/-- The empty queue on which TB_LEAVES starts. -/
theorem leavesOk_start (freq : Freq) (t0 : TreeBuilder) :
    LeavesOk freq t0 (256 - 256) { t0 with next := 0, pqSize := 0 } := by
  have hm : ({ t0 with next := 0, pqSize := 0 } : TreeBuilder).members = [] := by simp [TreeBuilder.members]
  constructor
  · rfl
  · rfl
  · intro i hi; simp [symsBelow] at hi
  · intro i _; rfl
  · intro i; simp [hm, symsBelow]
  · refine ⟨?_, by simp [hm], by simp [hm]⟩
    intro k _ h; simp at h
  · rfl

/-- TB_LEAVES' loop answers on every table, with one leaf per non-zero count in ascending byte value (42 R158). -/
theorem leafLoop_leaves (freq : Freq) (t0 : TreeBuilder) :
    ∃ t, leafLoop freq 256 { t0 with next := 0, pqSize := 0 } = .ok t ∧ LeavesOk freq t0 256 t :=
  leafLoop_spec 256 _ (le_refl _) (leavesOk_start freq t0)

theorem length_symbolsOf (freq : Freq) : (symbolsOf freq).length ≤ 256 := by
  rw [← symsBelow_all]; exact length_symsBelow freq 256

theorem mem_allBytes (x : Byte) : x ∈ allBytes := by
  simp only [allBytes, List.mem_map, List.mem_range]
  exact ⟨x.toNat, x.isLt, by simp⟩

theorem nodup_allBytes : allBytes.Nodup := by
  unfold allBytes
  refine List.Nodup.map_on ?_ List.nodup_range
  intro a ha b hb h
  rw [List.mem_range] at ha hb
  have := congrArg BitVec.toNat h
  simp only [BitVec.toNat_ofNat] at this
  omega

theorem mem_symbolsOf {freq : Freq} {x : Byte} : x ∈ symbolsOf freq ↔ freqAt freq x ≠ 0 := by
  simp [symbolsOf, mem_allBytes]

theorem nodup_symbolsOf (freq : Freq) : (symbolsOf freq).Nodup := nodup_allBytes.filter _

end Sys2Proof.Machine
end

