-- ==== Sys2Proof/Laws/Shape.lean ====
section
/-! SUPPORT. The tree that a node index stands for, read out of the arena as a value (a shape), and the shape the tree
builder leaves at the root (42 R158 to R164; 10_state R46). -/
namespace Sys2Proof.Machine

/-- A tree as a value. -/
inductive Shape where
  | leaf (x : Byte)
  | placeholder
  | node (l r : Shape)
  deriving DecidableEq, Repr

/-- The byte values at the leaves, left to right. -/
def Shape.leaves : Shape → List Byte
  | .leaf x => [x]
  | .placeholder => []
  | .node l r => l.leaves ++ r.leaves

/-- The length of the longest path. -/
def Shape.depth : Shape → Nat
  | .leaf _ => 0
  | .placeholder => 0
  | .node l r => max l.depth r.depth + 1

/-- The path `p` ends at the leaf of `x`. -/
def Shape.HasPath : Shape → List Bool → Byte → Prop
  | .leaf y, p, x => p = [] ∧ y = x
  | .placeholder, _, _ => False
  | .node _ _, [], _ => False
  | .node l r, v :: p, x => if v then r.HasPath p x else l.HasPath p x

/-- The entry `i` of the arena, and everything below it, is the tree `T`; all of it has indices below `bound`. -/
def Reads (node : Arena) (bound : Nat) : NodeIx → Shape → Prop
  | i, .leaf x => i.val < bound ∧ (nodeAt node i).kind = .leaf ∧ (nodeAt node i).sym = x
  | i, .placeholder => i.val < bound ∧ (nodeAt node i).kind = .placeholder
  | i, .node l r => i.val < bound ∧ (nodeAt node i).kind = .internal ∧
      Reads node bound (nodeAt node i).left l ∧ Reads node bound (nodeAt node i).right r

theorem Reads.lt {node : Arena} {bound : Nat} {i : NodeIx} {T : Shape} (h : Reads node bound i T) : i.val < bound := by
  cases T <;> exact h.1

/-- Writing a node at or past the bound leaves the tree as it is. -/
theorem Reads.set {node : Arena} {bound bound' : Nat} {T : Shape} (n : Node) {j : NodeIx} (hj : bound ≤ j.val)
    (hb : bound ≤ bound') : ∀ {i : NodeIx}, Reads node bound i T → Reads (nodeSet node j n) bound' i T := by
  induction T with
  | leaf x =>
    intro i h
    obtain ⟨h1, h2⟩ := h
    have : i ≠ j := by rintro rfl; omega
    exact ⟨by omega, by rw [nodeAt_nodeSet_ne _ this]; exact h2⟩
  | placeholder =>
    intro i h
    obtain ⟨h1, h2⟩ := h
    have : i ≠ j := by rintro rfl; omega
    exact ⟨by omega, by rw [nodeAt_nodeSet_ne _ this]; exact h2⟩
  | node l r ihl ihr =>
    intro i h
    obtain ⟨h1, h2, h3, h4⟩ := h
    have : i ≠ j := by rintro rfl; omega
    simp only [Reads, nodeAt_nodeSet_ne _ this]
    exact ⟨by omega, h2, ihl h3, ihr h4⟩

/-! ### Paths -/

theorem leafPath_iff {node : Arena} {bound : Nat} {T : Shape} {x : Byte} :
    ∀ {i : NodeIx} {p : List Bool}, Reads node bound i T → (LeafPath node i p x ↔ T.HasPath p x) := by
  induction T with
  | leaf y =>
    intro i p h
    obtain ⟨-, hk, hs⟩ := h
    cases p with
    | nil => simp [LeafPath, follow, Shape.HasPath, hk, hs]
    | cons v p => simp [LeafPath, follow, Shape.HasPath, hk]
  | placeholder =>
    intro i p h
    obtain ⟨-, hk⟩ := h
    cases p with
    | nil => simp [LeafPath, follow, Shape.HasPath, hk]
    | cons v p => simp [LeafPath, follow, Shape.HasPath, hk]
  | node l r ihl ihr =>
    intro i p h
    obtain ⟨-, hk, hl, hr⟩ := h
    cases p with
    | nil => simp [LeafPath, follow, Shape.HasPath, hk]
    | cons v p =>
      cases v
      · simpa [LeafPath, follow, Shape.HasPath, hk] using ihl (p := p) hl
      · simpa [LeafPath, follow, Shape.HasPath, hk] using ihr (p := p) hr

theorem follow_length_le {node : Arena} {bound : Nat} {T : Shape} :
    ∀ {i j : NodeIx} {p : List Bool}, Reads node bound i T → follow node i p = some j → p.length ≤ T.depth := by
  induction T with
  | leaf y =>
    intro i j p h hf
    cases p with
    | nil => simp
    | cons v p => simp [follow, h.2.1] at hf
  | placeholder =>
    intro i j p h hf
    cases p with
    | nil => simp
    | cons v p => simp [follow, h.2] at hf
  | node l r ihl ihr =>
    intro i j p h hf
    obtain ⟨-, hk, hl, hr⟩ := h
    cases p with
    | nil => simp
    | cons v p =>
      simp only [follow, hk, if_true] at hf
      simp only [List.length_cons, Shape.depth]
      cases v
      · have := ihl hl hf; omega
      · have := ihr hr hf; omega

theorem Shape.mem_leaves_iff {T : Shape} {x : Byte} : x ∈ T.leaves ↔ ∃ p, T.HasPath p x := by
  induction T with
  | leaf y => simp [Shape.leaves, Shape.HasPath, eq_comm]
  | placeholder => simp [Shape.leaves, Shape.HasPath]
  | node l r ihl ihr =>
    simp only [Shape.leaves, List.mem_append, ihl, ihr]
    constructor
    · rintro (⟨p, h⟩ | ⟨p, h⟩)
      · exact ⟨false :: p, h⟩
      · exact ⟨true :: p, h⟩
    · rintro ⟨p, h⟩
      cases p with
      | nil => exact h.elim
      | cons v p => cases v
                    · exact .inl ⟨p, h⟩
                    · exact .inr ⟨p, h⟩

/-- Distinct leaves: every byte value has at most one path. -/
theorem Shape.path_unique {T : Shape} {x : Byte} (hn : T.leaves.Nodup) :
    ∀ {p q : List Bool}, T.HasPath p x → T.HasPath q x → p = q := by
  induction T with
  | leaf y => intro p q hp hq; rw [hp.1, hq.1]
  | placeholder => intro p q hp; exact hp.elim
  | node l r ihl ihr =>
    intro p q hp hq
    simp only [Shape.leaves, List.nodup_append] at hn
    obtain ⟨hl, hr, hd⟩ := hn
    cases p with
    | nil => exact hp.elim
    | cons v p =>
      cases q with
      | nil => exact hq.elim
      | cons w q =>
        cases v <;> cases w
        · rw [ihl hl hp hq]
        · exact absurd rfl (hd x (Shape.mem_leaves_iff.2 ⟨p, hp⟩) x (Shape.mem_leaves_iff.2 ⟨q, hq⟩))
        · exact absurd rfl (hd x (Shape.mem_leaves_iff.2 ⟨q, hq⟩) x (Shape.mem_leaves_iff.2 ⟨p, hp⟩))
        · rw [ihr hr hp hq]

/-- No path is a proper prefix of another one (43 R178). -/
theorem Shape.prefix_free {T : Shape} {x y : Byte} :
    ∀ {p q : List Bool}, T.HasPath p x → T.HasPath q y → p <+: q → p = q := by
  induction T with
  | leaf z => intro p q hp hq _; rw [hp.1, hq.1]
  | placeholder => intro p q hp; exact hp.elim
  | node l r ihl ihr =>
    intro p q hp hq hpre
    cases p with
    | nil => exact hp.elim
    | cons v p =>
      cases q with
      | nil => exact hq.elim
      | cons w q =>
        obtain ⟨rfl, h⟩ := List.cons_prefix_cons.1 hpre
        cases v
        · rw [ihl hp hq h]
        · rw [ihr hp hq h]

theorem Shape.length_le_depth {T : Shape} {x : Byte} : ∀ {p : List Bool}, T.HasPath p x → p.length ≤ T.depth := by
  induction T with
  | leaf z => intro p hp; simp [hp.1]
  | placeholder => intro p hp; exact hp.elim
  | node l r ihl ihr =>
    intro p hp
    cases p with
    | nil => simp
    | cons v p =>
      simp only [List.length_cons, Shape.depth]
      cases v
      · have := ihl hp; omega
      · have := ihr hp; omega

/-- A shape with distinct leaves, an internal root and bounded depth satisfies the tree invariants. -/
theorem treeOk_of_reads {node : Arena} {bound : Nat} {root : NodeIx} {l r : Shape}
    (h : Reads node bound root (.node l r)) (hn : (Shape.node l r).leaves.Nodup) (hd : (Shape.node l r).depth ≤ 255) :
    TreeOk node root where
  rootInternal := h.2.1
  short := fun _ _ hp => (follow_length_le h hp).trans hd
  onePath := fun _ _ _ hp hq => Shape.path_unique hn ((leafPath_iff h).1 hp) ((leafPath_iff h).1 hq)

/-- A node all of whose paths are short stands for a shape. -/
theorem exists_shape {node : Arena} : ∀ (m : Nat) (i : NodeIx),
    (∀ p j, follow node i p = some j → p.length ≤ m) → ∃ T, Reads node 511 i T ∧ T.depth ≤ m := by
  intro m
  induction m with
  | zero =>
    intro i h
    have hk : (nodeAt node i).kind ≠ .internal := by
      intro hk
      have := h [true] ((nodeAt node i).right) (by simp [follow, hk])
      simp at this
    cases e : (nodeAt node i).kind with
    | leaf => exact ⟨.leaf (nodeAt node i).sym, ⟨i.isLt, e, rfl⟩, le_refl _⟩
    | internal => exact absurd e hk
    | placeholder => exact ⟨.placeholder, ⟨i.isLt, e⟩, le_refl _⟩
  | succ m ih =>
    intro i h
    cases e : (nodeAt node i).kind with
    | leaf => exact ⟨.leaf (nodeAt node i).sym, ⟨i.isLt, e, rfl⟩, Nat.zero_le _⟩
    | placeholder => exact ⟨.placeholder, ⟨i.isLt, e⟩, Nat.zero_le _⟩
    | internal =>
      obtain ⟨l, hl, dl⟩ := ih (nodeAt node i).left (by
        intro p j hp
        have := h (false :: p) j (by simpa [follow, e] using hp)
        simpa using this)
      obtain ⟨r, hr, dr⟩ := ih (nodeAt node i).right (by
        intro p j hp
        have := h (true :: p) j (by simpa [follow, e] using hp)
        simpa using this)
      exact ⟨.node l r, ⟨i.isLt, e, hl, hr⟩, by simp only [Shape.depth]; omega⟩

/-- If every byte value has at most one path, the leaves are distinct. -/
theorem Shape.nodup_of_unique {T : Shape} (h : ∀ p q x, T.HasPath p x → T.HasPath q x → p = q) : T.leaves.Nodup := by
  induction T with
  | leaf x => simp [Shape.leaves]
  | placeholder => simp [Shape.leaves]
  | node l r ihl ihr =>
    refine List.nodup_append.2 ⟨ihl fun p q x hp hq => ?_, ihr fun p q x hp hq => ?_, fun x hx y hy e => ?_⟩
    · have := h (false :: p) (false :: q) x hp hq; simpa using this
    · have := h (true :: p) (true :: q) x hp hq; simpa using this
    · subst e
      obtain ⟨p, hp⟩ := Shape.mem_leaves_iff.1 hx
      obtain ⟨q, hq⟩ := Shape.mem_leaves_iff.1 hy
      have := h (false :: p) (true :: q) x hp hq
      simp at this

/-- The tree invariants in terms of a shape. -/
theorem TreeOk.shape {node : Arena} {root : NodeIx} (h : TreeOk node root) :
    ∃ l r, Reads node 511 root (.node l r) ∧ (Shape.node l r).depth ≤ 255 ∧ (Shape.node l r).leaves.Nodup := by
  obtain ⟨T, hT, hd⟩ := exists_shape 255 root h.short
  have hn : T.leaves.Nodup := Shape.nodup_of_unique fun p q x hp hq =>
    h.onePath p q x ((leafPath_iff hT).2 hp) ((leafPath_iff hT).2 hq)
  cases T with
  | leaf x => have := hT.2.1; rw [h.rootInternal] at this; cases this
  | placeholder => have := hT.2; rw [h.rootInternal] at this; cases this
  | node l r => exact ⟨l, r, hT, hd, hn⟩

/-! ### The forest between merge rounds -/

/-- What holds of the queue between rounds: every member stands for a tree, the leaves of all of them together are the
symbols, each tree is no deeper than its leaves allow, weights are the sums of the counts, and the newest node is a
member. -/
structure Forest (freq : Freq) (t : TreeBuilder) (f : NodeIx → Shape) : Prop where
  reads : ∀ i ∈ t.members, Reads t.node t.next.val i (f i)
  leaves : (t.members.flatMap fun i => (f i).leaves).Perm (symbolsOf freq)
  depth : ∀ i ∈ t.members, (f i).depth + 1 ≤ (f i).leaves.length
  weight : ∀ i ∈ t.members, (nodeAt t.node i).weight = ((f i).leaves.map (freqAt freq)).sum
  newest : ∃ i ∈ t.members, i.val + 1 = t.next.val

theorem Forest.join {freq : Freq} {t t' : TreeBuilder} {a b : NodeIx} {rest : List NodeIx} {f : NodeIx → Shape}
    (hf : Forest freq t f) (hq : t.QueueOk) (hj : Joins t a b rest t') : ∃ f', Forest freq t' f' := by
  have ha : a ∈ t.members := hj.members.symm.subset List.mem_cons_self
  have hb : b ∈ t.members := hj.members.symm.subset (List.mem_cons_of_mem _ List.mem_cons_self)
  have hrest : ∀ i ∈ rest, i ∈ t.members := fun i hi =>
    hj.members.symm.subset (List.mem_cons_of_mem _ (List.mem_cons_of_mem _ hi))
  set ix : NodeIx := ⟨t.next.val, hj.room⟩ with hix
  have hne : ∀ i ∈ t.members, i ≠ ix := by
    intro i hi e
    have := hq.written i hi
    rw [e] at this; simp [hix] at this
  have hn := hj.next
  let f' : NodeIx → Shape := fun i => if i = ix then .node (f b) (f a) else f i
  have f'ix : f' ix = .node (f b) (f a) := if_pos rfl
  have f'ne : ∀ i ∈ t.members, f' i = f i := fun i hi => if_neg (hne i hi)
  have nodeix : nodeAt t'.node ix = joined t.node a b := by rw [hj.node]; simp [hix]
  have nodene : ∀ i ∈ t.members, nodeAt t'.node i = nodeAt t.node i := fun i hi => by
    rw [hj.node, nodeAt_nodeSet_ne _ (hne i hi)]
  have hset : ∀ i ∈ t.members, Reads t'.node t'.next.val i (f i) := fun i hi => by
    rw [hj.node]
    exact (hf.reads i hi).set _ (le_refl t.next.val) (by omega)
  have mem' : ∀ i ∈ t'.members, i = ix ∨ i ∈ rest := fun i hi => List.mem_cons.1 (hj.members'.subset hi)
  refine ⟨f', ⟨?_, ?_, ?_, ?_, ?_⟩⟩
  · intro i hi
    rcases mem' i hi with rfl | h
    · rw [f'ix]
      refine ⟨by rw [hn]; simp [hix], by rw [nodeix]; rfl, ?_, ?_⟩
      · rw [nodeix]; exact hset b hb
      · rw [nodeix]; exact hset a ha
    · rw [f'ne i (hrest i h)]; exact hset i (hrest i h)
  · refine List.Perm.trans ?_ hf.leaves
    have e1 := List.Perm.flatMap_right (fun i => (f' i).leaves) hj.members'
    have e2 := List.Perm.flatMap_right (fun i => (f i).leaves) hj.members
    refine e1.trans (List.Perm.trans ?_ e2.symm)
    simp only [List.flatMap_cons]
    have e3 : rest.flatMap (fun i => (f' i).leaves) = rest.flatMap (fun i => (f i).leaves) := by
      rw [List.flatMap_congr]
      intro i hi
      rw [f'ne i (hrest i hi)]
    rw [← hix, f'ix, e3, ← List.append_assoc, Shape.leaves]
    exact List.Perm.append_right _ List.perm_append_comm
  · intro i hi
    rcases mem' i hi with rfl | h
    · rw [f'ix]
      have h1 := hf.depth a ha
      have h2 := hf.depth b hb
      simp only [Shape.depth, Shape.leaves, List.length_append]
      omega
    · rw [f'ne i (hrest i h)]; exact hf.depth i (hrest i h)
  · intro i hi
    rcases mem' i hi with rfl | h
    · rw [f'ix, nodeix]
      simp only [joined, Shape.leaves, List.map_append, List.sum_append]
      rw [hf.weight a ha, hf.weight b hb, add_comm]
    · rw [f'ne i (hrest i h), nodene i (hrest i h)]; exact hf.weight i (hrest i h)
  · exact ⟨ix, hj.members'.symm.subset List.mem_cons_self, by rw [hn]⟩

/-- The queue of leaves is a forest of one-leaf trees. -/
theorem LeavesOk.forest {freq : Freq} {t0 t : TreeBuilder} (h : LeavesOk freq t0 256 t)
    (hn : symbolsOf freq ≠ []) : ∃ f, Forest freq t f := by
  have hs := symsBelow_all freq
  have hlen := length_symbolsOf freq
  have hpos : 0 < (symbolsOf freq).length := List.length_pos_iff.2 hn
  refine ⟨fun i => .leaf (nodeAt t.node i).sym, ⟨?_, ?_, ?_, ?_, ?_⟩⟩
  · intro i hi
    have hi' := (h.members i).1 hi
    rw [h.next]
    exact ⟨hi', by rw [h.leaves i hi']; rfl, rfl⟩
  · simp only [Shape.leaves]
    rw [← List.map_eq_flatMap]
    have hsym : ∀ i ∈ t.members, ∃ hi : i.val < (symbolsOf freq).length,
        (nodeAt t.node i).sym = (symbolsOf freq)[i.val] := by
      intro i hi
      have hi' := (h.members i).1 hi
      refine ⟨hs ▸ hi', ?_⟩
      rw [h.leaves i hi']
      simp only [leafNode, hs]
    refine (List.perm_ext_iff_of_nodup (h.queue.nodup.map_on ?_) (nodup_symbolsOf freq)).2 ?_
    · intro i hi j hj e
      obtain ⟨hi', ei⟩ := hsym i hi
      obtain ⟨hj', ej⟩ := hsym j hj
      rw [ei, ej] at e
      exact Fin.ext ((nodup_symbolsOf freq).getElem_inj_iff.1 e)
    · intro x
      simp only [List.mem_map]
      constructor
      · rintro ⟨i, hi, rfl⟩
        obtain ⟨hi', ei⟩ := hsym i hi
        rw [ei]; exact List.getElem_mem hi'
      · intro hx
        obtain ⟨k, hk, rfl⟩ := List.mem_iff_getElem.1 hx
        have hm : (⟨k, by omega⟩ : NodeIx) ∈ t.members := (h.members _).2 (by rw [hs]; exact hk)
        obtain ⟨_, ei⟩ := hsym _ hm
        exact ⟨_, hm, ei⟩
  · intro i _
    simp [Shape.depth, Shape.leaves]
  · intro i hi
    have hi' := (h.members i).1 hi
    rw [h.leaves i hi']
    simp [Shape.leaves, leafNode]
  · refine ⟨⟨(symbolsOf freq).length - 1, by omega⟩, (h.members _).2 ?_, ?_⟩
    · rw [hs]; simp; omega
    · rw [h.next, hs]; simp; omega

/-! ### The finished tree -/

/-- What TB_MERGE leaves for the counts `freq` (42 R164, 10_state R46). -/
structure Built (freq : Freq) (t : TreeBuilder) (l r : Shape) : Prop where
  reads : Reads t.node t.next.val t.root (.node l r)
  leaves : (Shape.node l r).leaves.Perm (symbolsOf freq)
  depth : (Shape.node l r).depth ≤ 255
  weight : (nodeAt t.node t.root).weight = ((symbolsOf freq).map (freqAt freq)).sum
  root : t.root.val + 1 = t.next.val
  empty : t.pqSize.val = 0

theorem Built.treeOk {freq : Freq} {t : TreeBuilder} {l r : Shape} (h : Built freq t l r) : TreeOk t.node t.root :=
  treeOk_of_reads h.reads (h.leaves.symm.nodup (nodup_symbolsOf freq)) h.depth

/-- The byte values at the end of paths are exactly those with a non-zero count (10_state R46). -/
theorem Built.symbols {freq : Freq} {t : TreeBuilder} {l r : Shape} (h : Built freq t l r) {x : Byte} :
    (∃ p, LeafPath t.node t.root p x) ↔ freqAt freq x ≠ 0 := by
  rw [← mem_symbolsOf, ← h.leaves.mem_iff, Shape.mem_leaves_iff]
  exact exists_congr fun p => leafPath_iff h.reads

/-- TB_MERGE on two or more leaves (42 R160). -/
theorem mergedTree_built {freq : Freq} {t0 t : TreeBuilder} (h : LeavesOk freq t0 256 t)
    (hn : 2 ≤ (symbolsOf freq).length) :
    ∃ t' l r, mergedTree t = .ok t' ∧ Built freq t' l r ∧ t'.next.val + 1 = 2 * (symbolsOf freq).length := by
  have hs := symsBelow_all freq
  have hlen := length_symbolsOf freq
  have hx : t.next.val = (symbolsOf freq).length := by rw [h.next, hs]
  have hz : t.pqSize.val = (symbolsOf freq).length := by rw [h.size, hs]
  have hf := h.forest (by intro e; rw [e] at hn; simp at hn)
  obtain ⟨t1, e1, ⟨f, hf⟩, hq, s1, x1, r1⟩ := mergeLoop_induct (P := fun t => ∃ f, Forest freq t f)
    (fun t a b rest t' ⟨f, hf⟩ hq hj => hf.join hq hj) t.pqSize.val t (by omega) (by omega) (by omega) h.queue hf
  obtain ⟨r, t2, e2⟩ := pqRemoveMin_ok (t := t1) (by omega)
  obtain ⟨-, s2, m2, n2, x2, -, -⟩ := pqRemoveMin_spec e2
  have hm2 : t2.members = [] := List.length_eq_zero_iff.1 (by rw [length_members]; omega)
  rw [hm2] at m2
  have hr : r ∈ t1.members := m2.symm.subset List.mem_cons_self
  have only : ∀ i ∈ t1.members, i = r := fun i hi => by simpa using m2.subset hi
  have hl : (f r).leaves.Perm (symbolsOf freq) := by
    have := List.Perm.flatMap_right (fun i => (f i).leaves) m2
    simp only [List.flatMap_cons, List.flatMap_nil, List.append_nil] at this
    exact this.symm.trans hf.leaves
  have hd := hf.depth r hr
  have hll := hl.length_eq
  have hrd := hf.reads r hr
  have hw := hf.weight r hr
  obtain ⟨i, hi, hnew⟩ := hf.newest
  rw [only i hi] at hnew
  cases hT : f r with
  | leaf x => rw [hT] at hll; simp [Shape.leaves] at hll; omega
  | placeholder => rw [hT] at hll; simp [Shape.leaves] at hll; omega
  | node l r' =>
    rw [hT] at hl hd hrd hw hll
    refine ⟨{ t2 with root := r }, l, r', by simp [mergedTree, e1, e2], ⟨?_, hl, by omega, ?_, ?_, ?_⟩, ?_⟩
    · show Reads t2.node t2.next.val r _
      rw [n2, x2]; exact hrd
    · show (nodeAt t2.node r).weight = _
      rw [n2, hw]
      exact (hl.map _).sum_eq
    · show r.val + 1 = t2.next.val
      rw [x2]; exact hnew
    · show t2.pqSize.val = 0
      omega
    · show t2.next.val + 1 = _
      rw [x2]; omega

/-- TB_MERGE on one leaf (42 R162). -/
theorem degenerateTree_built {freq : Freq} {t0 t : TreeBuilder} (h : LeavesOk freq t0 256 t)
    (hn : (symbolsOf freq).length = 1) :
    ∃ t' x, symbolsOf freq = [x] ∧ degenerateTree t = .ok t' ∧ Built freq t' (.leaf x) .placeholder ∧
      t'.next.val = 3 ∧ nodeAt t'.node 0 = leafNode freq x ∧ (nodeAt t'.node 1).kind = .placeholder := by
  have hs := symsBelow_all freq
  obtain ⟨x, hx⟩ := List.length_eq_one_iff.1 hn
  have hz : t.pqSize.val = 1 := by rw [h.size, hs, hn]
  have h0 : nodeAt t.node 0 = leafNode freq x := by
    rw [h.leaves 0 (by rw [hs, hn]; decide)]
    simp [hs, hx]
  obtain ⟨r, t1, e1⟩ := pqRemoveMin_ok (t := t) (by omega)
  obtain ⟨-, s1, -, n1, -, -, -⟩ := pqRemoveMin_spec e1
  have a0 : nodeAt (topOverLeaf t1).node 0 = leafNode freq x := by
    simp only [topOverLeaf]
    rw [nodeAt_nodeSet_ne _ (by decide), nodeAt_nodeSet_ne _ (by decide), n1, h0]
  have a1 : (nodeAt (topOverLeaf t1).node 1).kind = .placeholder := by
    simp only [topOverLeaf]
    rw [nodeAt_nodeSet_ne _ (by decide), nodeAt_nodeSet_same]
  refine ⟨topOverLeaf t1, x, hx, by simp only [degenerateTree, e1, ok_bind], ⟨?_, ?_, ?_, ?_, ?_, ?_⟩, rfl, a0, a1⟩
  · have a2 : nodeAt (topOverLeaf t1).node 2 =
        { kind := .internal, sym := 0, weight := (nodeAt t1.node 0).weight, left := 0, right := 1 } := by
      simp only [topOverLeaf, nodeAt_nodeSet_same]
    show Reads (topOverLeaf t1).node 3 2 _
    simp only [Reads, a2, a0, a1, leafNode]
    decide
  · rw [hx]; exact .refl _
  · simp [Shape.depth]
  · show (nodeAt (topOverLeaf t1).node 2).weight = _
    simp only [topOverLeaf, nodeAt_nodeSet_same, n1, h0, hx]
    simp [leafNode]
  · rfl
  · show t1.pqSize.val = 0
    omega

end Sys2Proof.Machine
end

