-- ==== Sys2Proof/Laws/Merge.lean ====
section
/-! SUPPORT. The merge loop against a plain list of members scanned for the least (42 R156), its independence of what the
arena held before (42 R165), and who is whose child (42 R164). -/
namespace Sys2Proof.Machine

/-! ### The scan -/

theorem scanMin_spec (node : Arena) (m : NodeIx) (q : List NodeIx) :
    scanMin node m q ∈ m :: q ∧ ∀ i ∈ m :: q, less node i (scanMin node m q) = false := by
  induction q generalizing m with
  | nil => simp [scanMin, less_irrefl]
  | cons i q ih =>
    unfold scanMin
    split
    · rename_i h
      obtain ⟨h1, h2⟩ := ih i
      refine ⟨List.mem_cons_of_mem _ h1, ?_⟩
      intro k hk
      rcases List.mem_cons.1 hk with rfl | hk
      · exact not_less_trans (h2 i List.mem_cons_self) (not_less_of_less h)
      · exact h2 k hk
    · rename_i h
      obtain ⟨h1, h2⟩ := ih m
      refine ⟨?_, ?_⟩
      · rcases List.mem_cons.1 h1 with h1 | h1
        · rw [h1]; exact List.mem_cons_self
        · exact List.mem_cons_of_mem _ (List.mem_cons_of_mem _ h1)
      · intro k hk
        rcases List.mem_cons.1 hk with rfl | hk
        · exact h2 k List.mem_cons_self
        · rcases List.mem_cons.1 hk with rfl | hk
          · exact not_less_trans (h2 m List.mem_cons_self) (by simpa using h)
          · exact h2 k (List.mem_cons_of_mem _ hk)

/-- The least of a list is determined by the list's members. -/
theorem scanMin_unique {node : Arena} {m r : NodeIx} {q : List NodeIx} (hr : r ∈ m :: q)
    (hl : ∀ i ∈ m :: q, less node i r = false) : scanMin node m q = r := by
  obtain ⟨h1, h2⟩ := scanMin_spec node m q
  exact eq_of_not_less (hl _ h1) (h2 _ hr)

/-- One round of `scanMerge` in terms of the two least members. -/
theorem scanMerge_round {node : Arena} {next rounds : Nat} {q rest : List NodeIx} {a b : NodeIx} (h : next < 511)
    (hq : q.Perm (a :: b :: rest)) (hn : q.Nodup) (ha : ∀ i ∈ q, less node i a = false)
    (hb : ∀ i ∈ b :: rest, less node i b = false) :
    ∃ q', q'.Perm rest ∧ scanMerge (rounds + 1) q node next =
      scanMerge rounds (⟨next, h⟩ :: q') (nodeSet node ⟨next, h⟩ (joined node a b)) (next + 1) := by
  match q, hq, hn, ha with
  | [], hq, _, _ => simp at hq
  | [x], hq, _, _ => have := hq.length_eq; simp at this
  | m :: x :: q, hq, hn, ha =>
    have hma : a ∈ m :: x :: q := hq.symm.subset List.mem_cons_self
    have e1 : scanMin node m (x :: q) = a := scanMin_unique hma ha
    have p1 : ((m :: x :: q).erase a).Perm (b :: rest) := by
      have := hq.erase a
      rwa [List.erase_cons_head] at this
    cases h1 : (m :: x :: q).erase a with
    | nil => rw [h1] at p1; simp at p1
    | cons m1 q1 =>
      rw [h1] at p1
      have e2 : scanMin node m1 q1 = b :=
        scanMin_unique (p1.symm.subset List.mem_cons_self) (fun i hi => hb i (p1.subset hi))
      refine ⟨(m1 :: q1).erase b, ?_, ?_⟩
      · have := p1.erase b
        rwa [List.erase_cons_head] at this
      · rw [scanMerge, e1]
        · simp only [h1, e2, dif_pos h]
          rfl
        · simp

/-- A list of two or more distinct members has a least and a second least. -/
theorem exists_two_least (node : Arena) {q : List NodeIx} (h2 : 2 ≤ q.length) :
    ∃ a b rest, q.Perm (a :: b :: rest) ∧ (∀ i ∈ q, less node i a = false) ∧
      (∀ i ∈ b :: rest, less node i b = false) := by
  match q, h2 with
  | m :: x :: q, _ =>
    obtain ⟨ha, hla⟩ := scanMin_spec node m (x :: q)
    have pa := List.perm_cons_erase ha
    set a := scanMin node m (x :: q)
    cases h1 : (m :: x :: q).erase a with
    | nil =>
      have := congrArg List.length h1
      rw [List.length_erase_of_mem ha] at this
      simp at this
    | cons m1 q1 =>
      rw [h1] at pa
      obtain ⟨hb, hlb⟩ := scanMin_spec node m1 q1
      have pb := List.perm_cons_erase hb
      exact ⟨a, _, _, pa.trans (pb.cons a), hla, fun i hi => hlb i (pb.symm.subset hi)⟩

/-- `scanMerge` looks only at which members there are, not at their order. -/
theorem scanMerge_perm {rounds : Nat} : ∀ {q q' : List NodeIx} {node : Arena} {next : Nat}, q.Perm q' → q.Nodup →
    (∀ i ∈ q, i.val < next) → scanMerge rounds q node next = scanMerge rounds q' node next := by
  induction rounds with
  | zero =>
    intro q q' node next hp _ _
    match q, hp with
    | [], hp => rw [List.nil_perm.1 hp]
    | [r], hp => rw [List.singleton_perm.1 hp]
    | a :: b :: q, hp =>
      match q', hp with
      | [], hp => have := hp.length_eq; simp at this
      | [r], hp => have := hp.length_eq; simp at this
      | c :: d :: q', _ => rfl
  | succ rounds ih =>
    intro q q' node next hp hn hw
    by_cases h2 : 2 ≤ q.length
    · by_cases hx : next < 511
      · obtain ⟨a, b, rest, pq, la, lb⟩ := exists_two_least node h2
        obtain ⟨r1, p1, e1⟩ := scanMerge_round (rounds := rounds) hx pq hn la lb
        obtain ⟨r2, p2, e2⟩ := scanMerge_round (rounds := rounds) hx (hp.symm.trans pq) (hp.nodup hn)
          (fun i hi => la i (hp.symm.subset hi)) lb
        rw [e1, e2]
        have hrest : ∀ i ∈ rest, i ∈ q := fun i hi =>
          pq.symm.subset (List.mem_cons_of_mem _ (List.mem_cons_of_mem _ hi))
        have hnr : rest.Nodup := (List.nodup_cons.1 (List.nodup_cons.1 (pq.nodup hn)).2).2
        refine ih ((p1.trans p2.symm).cons _) (List.nodup_cons.2 ⟨?_, p1.symm.nodup hnr⟩) ?_
        · intro hm
          have := hw _ (hrest _ (p1.subset hm))
          simp at this
        · intro i hi
          rcases List.mem_cons.1 hi with rfl | hi
          · simp
          · have := hw _ (hrest _ (p1.subset hi)); omega
      · -- no room for the next node on either side
        have none_of : ∀ p : List NodeIx, 2 ≤ p.length → scanMerge (rounds + 1) p node next = none := by
          intro p hp2
          match p, hp2 with
          | m :: x :: p, _ =>
            rw [scanMerge]
            · simp only
              split
              · rfl
              · rw [dif_neg hx]
            · simp
        rw [none_of q h2, none_of q' (by rw [← hp.length_eq]; exact h2)]
    · match q, hp, h2 with
      | [], hp, _ => rw [List.nil_perm.1 hp]
      | [r], hp, _ => rw [List.singleton_perm.1 hp]
      | a :: b :: q, _, h2 => simp at h2

/-- The merge loop on the heap is the merge loop on any list of its members (42 R156). -/
theorem mergeLoop_scan {t : TreeBuilder} {q : List NodeIx} (hp : q.Perm t.members) (hq : t.QueueOk)
    (h1 : 1 ≤ t.pqSize.val) (hroom : t.next.val + t.pqSize.val ≤ 512) :
    ∃ t' r, mergeLoop t.pqSize.val t = .ok t' ∧ t'.members = [r] ∧ t'.QueueOk ∧ t'.pqSize.val = 1 ∧
      t'.next.val + 1 = t.next.val + t.pqSize.val ∧
      scanMerge t.pqSize.val q t.node t.next.val = some (t'.node, t'.next.val, r) := by
  obtain ⟨t', e, hs, hq', s', x', -⟩ := mergeLoop_induct
    (P := fun u => scanMerge u.pqSize.val u.members u.node u.next.val = scanMerge t.pqSize.val q t.node t.next.val)
    (by
      intro u a b rest u' hu huq j
      rw [← hu]
      obtain ⟨l1, l2⟩ := j.least huq.heap
      have hsz : u.pqSize.val = u'.pqSize.val + 1 := j.size.symm
      obtain ⟨q', p', e'⟩ := scanMerge_round (rounds := u'.pqSize.val) j.room j.members huq.nodup l1 l2
      rw [hsz, e', ← j.node, ← j.next]
      exact scanMerge_perm (j.members'.trans (p'.symm.cons _)) (j.queue huq).nodup (j.queue huq).written)
    t.pqSize.val t (by omega) h1 hroom hq (scanMerge_perm hp.symm hq.nodup hq.written)
  obtain ⟨r, hr⟩ := List.length_eq_one_iff.1 (by rw [length_members, s'] : t'.members.length = 1)
  refine ⟨t', r, e, hr, hq', s', x', ?_⟩
  rw [← hs, hr, scanMerge]

/-! ### Independence of the arena's old contents -/

/-- Two arenas agree on the entries below an index. -/
def AgreeBelow (n : Nat) (node node' : Arena) : Prop := ∀ i : NodeIx, i.val < n → nodeAt node i = nodeAt node' i

theorem AgreeBelow.set {n : Nat} {node node' : Arena} (h : AgreeBelow n node node') (hn : n < 511) (x : Node) :
    AgreeBelow (n + 1) (nodeSet node ⟨n, hn⟩ x) (nodeSet node' ⟨n, hn⟩ x) := by
  intro i hi
  rw [nodeAt_nodeSet, nodeAt_nodeSet]
  split
  · rfl
  · rename_i hne
    have : i.val ≠ n := fun e => hne (Fin.ext e)
    exact h i (by omega)

theorem scanMerge_agree {rounds : Nat} : ∀ {q : List NodeIx} {node node' : Arena} {next : Nat},
    AgreeBelow next node node' → (∀ i ∈ q, i.val < next) → q.Nodup → ∀ {m x r}, scanMerge rounds q node next = some (m, x, r) →
    ∃ m', scanMerge rounds q node' next = some (m', x, r) ∧ AgreeBelow x m m' := by
  induction rounds with
  | zero =>
    intro q node node' next ha hw _ m x r h
    match q, h with
    | [r'], h =>
      rw [scanMerge] at h ⊢
      cases h
      exact ⟨node', rfl, ha⟩
    | [], h => simp [scanMerge] at h
    | a :: b :: q, h => simp [scanMerge] at h
  | succ rounds ih =>
    intro q node node' next ha hw hn m x r h
    by_cases h2 : 2 ≤ q.length
    · have hx : next < 511 := by
        by_contra hx
        match q, h2, h with
        | a :: b :: q, _, h =>
          rw [scanMerge] at h
          · simp only at h
            split at h
            · cases h
            · rw [dif_neg hx] at h; cases h
          · simp
      obtain ⟨a, b, rest, pq, la, lb⟩ := exists_two_least node h2
      have mem_a : a ∈ q := pq.symm.subset List.mem_cons_self
      have mem_b : b ∈ q := pq.symm.subset (List.mem_cons_of_mem _ List.mem_cons_self)
      have mem_r : ∀ i ∈ b :: rest, i ∈ q := fun i hi => pq.symm.subset (List.mem_cons_of_mem _ hi)
      have lcong : ∀ i ∈ q, ∀ j ∈ q, less node' i j = less node i j := fun i hi j hj =>
        less_congr (by rw [ha i (hw i hi)]) (by rw [ha j (hw j hj)])
      obtain ⟨r1, p1, e1⟩ := scanMerge_round (rounds := rounds) hx pq hn la lb
      obtain ⟨r2, p2, e2⟩ := scanMerge_round (node := node') (rounds := rounds) hx pq hn
        (fun i hi => by rw [lcong i hi a mem_a]; exact la i hi)
        (fun i hi => by rw [lcong i (mem_r i hi) b mem_b]; exact lb i hi)
      rw [e1] at h
      have hj : joined node' a b = joined node a b := by
        simp only [joined, ha a (hw a mem_a), ha b (hw b mem_b)]
      have hnr : rest.Nodup := (List.nodup_cons.1 (List.nodup_cons.1 (pq.nodup hn)).2).2
      have wr : ∀ i ∈ r1, i.val < next := fun i hi => hw _ (mem_r _ (List.mem_cons_of_mem _ (p1.subset hi)))
      have n1 : (⟨next, hx⟩ :: r1 : List NodeIx).Nodup := by
        refine List.nodup_cons.2 ⟨fun hm => ?_, p1.symm.nodup hnr⟩
        have := wr _ hm; simp at this
      have w1 : ∀ i ∈ (⟨next, hx⟩ :: r1 : List NodeIx), i.val < next + 1 := by
        intro i hi
        rcases List.mem_cons.1 hi with rfl | hi
        · simp
        · have := wr i hi; omega
      obtain ⟨m', e', a'⟩ := ih (ha.set hx (joined node a b)) w1 n1 h
      refine ⟨m', ?_, a'⟩
      rw [e2, hj, ← e']
      exact scanMerge_perm ((p2.trans p1.symm).cons _) ((p1.trans p2.symm).cons _ |>.nodup n1)
        (fun i hi => w1 i (((p2.trans p1.symm).cons _).subset hi))
    · match q, h, h2 with
      | [r'], h, _ =>
        rw [scanMerge] at h ⊢
        cases h
        exact ⟨node', rfl, ha⟩
      | [], h, _ => simp [scanMerge] at h
      | a :: b :: q, _, h2 => simp at h2

/-! ### Children and parents -/

/-- `j` is an internal node below `NEXT` with child `i`. -/
def IsParent (t : TreeBuilder) (j i : NodeIx) : Prop :=
  j.val < t.next.val ∧ (nodeAt t.node j).kind = .internal ∧ ((nodeAt t.node j).left = i ∨ (nodeAt t.node j).right = i)

/-- What holds of the arena between merge rounds that started with `n` leaves in `t0` (42 R164). -/
structure Grown (n : Nat) (t0 t : TreeBuilder) : Prop where
  least : n ≤ t.next.val
  leaves : ∀ i : NodeIx, i.val < n → nodeAt t.node i = nodeAt t0.node i ∧ (nodeAt t.node i).kind = .leaf
  internal : ∀ i : NodeIx, n ≤ i.val → i.val < t.next.val →
    (nodeAt t.node i).kind = .internal ∧ (nodeAt t.node i).left.val < i.val ∧ (nodeAt t.node i).right.val < i.val ∧
      (nodeAt t.node i).left ≠ (nodeAt t.node i).right
  members : ∀ i ∈ t.members, ∀ j, ¬ IsParent t j i
  others : ∀ i : NodeIx, i.val < t.next.val → i ∉ t.members → ∃ j, IsParent t j i ∧ ∀ k, IsParent t k i → k = j

theorem Grown.join {n : Nat} {t0 t t' : TreeBuilder} {a b : NodeIx} {rest : List NodeIx} (h : Grown n t0 t)
    (hq : t.QueueOk) (hj : Joins t a b rest t') : Grown n t0 t' := by
  have hx := hj.next
  set ix : NodeIx := ⟨t.next.val, hj.room⟩ with hix
  have nodup := hj.members.nodup hq.nodup
  have ha : a ∈ t.members := hj.members.symm.subset List.mem_cons_self
  have hb : b ∈ t.members := hj.members.symm.subset (List.mem_cons_of_mem _ List.mem_cons_self)
  have hab : a ≠ b := fun e => (List.nodup_cons.1 nodup).1 (e ▸ List.mem_cons_self)
  have hrest : ∀ i ∈ rest, i ∈ t.members := fun i hi =>
    hj.members.symm.subset (List.mem_cons_of_mem _ (List.mem_cons_of_mem _ hi))
  have hane : ∀ i ∈ rest, i ≠ a ∧ i ≠ b := fun i hi =>
    ⟨fun e => (List.nodup_cons.1 nodup).1 (e ▸ List.mem_cons_of_mem _ hi),
     fun e => (List.nodup_cons.1 (List.nodup_cons.1 nodup).2).1 (e ▸ hi)⟩
  have old : ∀ i : NodeIx, i.val < t.next.val → nodeAt t'.node i = nodeAt t.node i := fun i hi => by
    rw [hj.node, nodeAt_nodeSet_ne]
    intro e; rw [e] at hi; simp at hi
  have new : nodeAt t'.node ix = joined t.node a b := by rw [hj.node]; simp [hix]
  have ltix : ∀ j : NodeIx, j.val < t'.next.val → j = ix ∨ j.val < t.next.val := by
    intro j hjl
    by_cases e : j = ix
    · exact .inl e
    · right
      have : j.val ≠ t.next.val := fun e2 => e (Fin.ext e2)
      omega
  -- parents of old nodes, and the parent the new node is
  have par : ∀ j i, IsParent t' j i ↔ IsParent t j i ∨ (j = ix ∧ (i = b ∨ i = a)) := by
    intro j i
    constructor
    · rintro ⟨h1, h2, h3⟩
      rcases ltix j h1 with rfl | hlt
      · rw [new] at h3
        right
        exact ⟨rfl, by rcases h3 with h3 | h3; exacts [.inl h3.symm, .inr h3.symm]⟩
      · rw [old j hlt] at h2 h3
        exact .inl ⟨hlt, h2, h3⟩
    · rintro (⟨h1, h2, h3⟩ | ⟨rfl, h3⟩)
      · exact ⟨by omega, by rw [old j h1]; exact h2, by rw [old j h1]; exact h3⟩
      · refine ⟨by rw [hx]; simp [hix], by rw [new]; rfl, ?_⟩
        rw [new]
        rcases h3 with h3 | h3
        · exact .inl h3.symm
        · exact .inr h3.symm
  refine ⟨by have := h.least; omega, ?_, ?_, ?_, ?_⟩
  · intro i hi
    have := h.least
    rw [old i (by omega)]
    exact h.leaves i hi
  · intro i h1 h2
    rcases ltix i h2 with rfl | hlt
    · rw [new]
      exact ⟨rfl, hq.written b hb, hq.written a ha, fun e => hab e.symm⟩
    · rw [old i hlt]
      exact h.internal i h1 hlt
  · intro i hi j hp
    rcases List.mem_cons.1 (hj.members'.subset hi) with rfl | hi
    · rcases (par j _).1 hp with ⟨h1, h2, h3⟩ | ⟨_, h3⟩
      · -- an old node has only old children
        have hin := h.internal j (by
          by_contra hlt
          have := (h.leaves j (by omega)).2
          rw [h2] at this; cases this) h1
        rcases h3 with h3 | h3
        · have := hin.2.1; rw [h3] at this; simp only at this; omega
        · have := hin.2.2.1; rw [h3] at this; simp only at this; omega
      · rcases h3 with h3 | h3
        · have := hq.written b hb; rw [← h3] at this; simp at this
        · have := hq.written a ha; rw [← h3] at this; simp at this
    · rcases (par j i).1 hp with hp | ⟨_, h3⟩
      · exact h.members i (hrest i hi) j hp
      · rcases h3 with h3 | h3
        · exact (hane i hi).2 h3
        · exact (hane i hi).1 h3
  · intro i hi hnm
    have hnr : i ≠ ix ∧ i ∉ rest := by
      constructor
      · intro e; exact hnm (hj.members'.symm.subset (e ▸ List.mem_cons_self))
      · intro e; exact hnm (hj.members'.symm.subset (List.mem_cons_of_mem _ e))
    have hlt : i.val < t.next.val := (ltix i hi).resolve_left hnr.1
    by_cases hc : i = b ∨ i = a
    · have him : i ∈ t.members := by rcases hc with rfl | rfl; exacts [hb, ha]
      refine ⟨ix, (par ix i).2 (.inr ⟨rfl, hc⟩), ?_⟩
      intro k hk
      rcases (par k i).1 hk with hk | hk
      · exact absurd hk (h.members i him k)
      · exact hk.1
    · have him : i ∉ t.members := by
        intro e
        rcases List.mem_cons.1 (hj.members.subset e) with e | e
        · exact hc (.inr e)
        · rcases List.mem_cons.1 e with e | e
          · exact hc (.inl e)
          · exact hnr.2 e
      obtain ⟨j, h1, h2⟩ := h.others i hlt him
      refine ⟨j, (par j i).2 (.inl h1), ?_⟩
      intro k hk
      rcases (par k i).1 hk with hk | hk
      · exact h2 k hk
      · exact absurd hk.2 hc

/-- The queue of leaves before the first round. -/
theorem LeavesOk.grown {freq : Freq} {t0 t : TreeBuilder} (h : LeavesOk freq t0 256 t) :
    Grown (symbolsOf freq).length t t := by
  have hs := symsBelow_all freq
  have hx : t.next.val = (symbolsOf freq).length := by rw [h.next, hs]
  have hleaf : ∀ i : NodeIx, i.val < (symbolsOf freq).length → (nodeAt t.node i).kind = .leaf := by
    intro i hi
    rw [h.leaves i (by rw [hs]; exact hi)]
    rfl
  refine ⟨by omega, fun i hi => ⟨rfl, hleaf i hi⟩, fun i h1 h2 => by omega, ?_, ?_⟩
  · rintro i _ j ⟨h1, h2, -⟩
    rw [hleaf j (by omega)] at h2
    cases h2
  · intro i hi hn
    exact absurd ((h.members i).2 (by rw [hs]; omega)) hn

end Sys2Proof.Machine
end

