-- ==== Sys2Proof/Laws/Header.lean ====
section
/-! SUPPORT. The header of the artifact: its bytes, its fields read back, the number of symbols and the exact sum of the
counts (20_memory R72; 30_encoding R97, R98; 45 R202; 46 R216, R217). -/
namespace Sys2Proof.Machine

/-- `emitAll` is one `Emit` per byte, in order (00_scope R16). -/
theorem emitAll_eq_foldl (bs : List Byte) (s : State) : emitAll bs s = bs.foldl (fun s b => emit b s) s := by
  induction bs generalizing s with
  | nil => simp [emitAll]
  | cons b bs ih =>
    rw [List.foldl_cons, ← ih]
    simp only [emitAll, emit, List.append_assoc, List.singleton_append, List.length_cons, word_add_succ]

@[simp] theorem length_bytesBE64 (v : Word) : (bytesBE64 v).length = 8 := rfl

/-- `byte[o+k] = v[63-8k : 56-8k]` (20_memory R72). -/
theorem getElem_bytesBE64 (v : Word) (k : Nat) (h : k < 8) :
    (bytesBE64 v)[k]'(by simpa using h) = v.extractLsb' (56 - 8 * k) 8 := by
  interval_cases k <;> rfl

/-! ### Fields at fixed places -/

theorem length_flatMap_be64 (vs : List Word) : (vs.flatMap bytesBE64).length = 8 * vs.length := by
  induction vs with
  | nil => rfl
  | cons v vs ih => simp [ih]; omega

theorem drop_flatMap_be64 (vs : List Word) (k : Nat) :
    (vs.flatMap bytesBE64).drop (8 * k) = (vs.drop k).flatMap bytesBE64 := by
  induction vs generalizing k with
  | nil => simp
  | cons v vs ih =>
    cases k with
    | zero => rfl
    | succ k =>
      have : 8 * (k + 1) = (bytesBE64 v).length + 8 * k := by rw [length_bytesBE64]; omega
      rw [List.flatMap_cons, this, List.drop_append, List.drop_succ_cons, ← ih]
      simp

theorem take_drop_flatMap_be64 (vs : List Word) (k : Nat) (h : k < vs.length) :
    ((vs.flatMap bytesBE64).drop (8 * k)).take 8 = bytesBE64 vs[k] := by
  rw [drop_flatMap_be64, List.drop_eq_getElem_cons h, List.flatMap_cons]
  exact List.take_left' (length_bytesBE64 _)

/-- A header is 257 fields (30_encoding R97). -/
theorem headerBytes_eq (v : Word) (freq : Freq) : headerBytes v freq = (v :: freq.toList).flatMap bytesBE64 := rfl

@[simp] theorem length_headerBytes (v : Word) (freq : Freq) : (headerBytes v freq).length = 2056 := by
  rw [headerBytes_eq, length_flatMap_be64]; simp

theorem fieldAt_headerBytes_len (v : Word) (freq : Freq) : fieldAt (headerBytes v freq) 0 = v := by
  have := take_drop_flatMap_be64 (v :: freq.toList) 0 (by simp)
  rw [fieldAt, headerBytes_eq]
  rw [Nat.mul_zero] at this
  rw [this]
  exact be64_bytesBE64 v

/-- The counts of a written header, read back (46 R216). -/
theorem headerFreq_headerBytes (v : Word) (freq : Freq) : headerFreq (headerBytes v freq) = freq := by
  apply Vector.ext
  intro k hk
  have := take_drop_flatMap_be64 (v :: freq.toList) (k + 1) (by simp; omega)
  simp only [headerFreq, Vector.getElem_ofFn, fieldAt, headerBytes_eq]
  rw [show 8 + 8 * k = 8 * (k + 1) by omega, this]
  simp [be64_bytesBE64]

theorem getElem_flatMap_be64 (vs : List Word) (k j : Nat) (hk : k < vs.length) (hj : j < 8) :
    (vs.flatMap bytesBE64)[8 * k + j]'(by rw [length_flatMap_be64]; omega) = vs[k].extractLsb' (56 - 8 * j) 8 := by
  have h := take_drop_flatMap_be64 vs k hk
  have h2 := congrArg (fun l => l[j]?) h
  simp only [List.getElem?_take, hj, if_true, List.getElem?_drop] at h2
  rw [List.getElem?_eq_getElem (by rw [length_flatMap_be64]; omega),
    List.getElem?_eq_getElem (by simpa using hj), Option.some.injEq] at h2
  rw [h2, getElem_bytesBE64 _ _ hj]

/-- The assembly of a field, byte by byte (20_memory R72). -/
theorem extract_be64 (bs : List Byte) (hl : bs.length = 8) (k : Nat) (hk : k < 8) :
    (be64 bs).extractLsb' (56 - 8 * k) 8 = bs[k]'(by omega) := by
  obtain ⟨a, b, c, d, e, f, g, h, rfl⟩ : ∃ a b c d e f g h, bs = [a, b, c, d, e, f, g, h] := by
    match bs, hl with
    | [a, b, c, d, e, f, g, h], _ => exact ⟨a, b, c, d, e, f, g, h, rfl⟩
  simp only [be64, List.foldl]
  apply BitVec.eq_of_getLsbD_eq
  intro i hi
  simp only [BitVec.getLsbD_extractLsb', BitVec.getLsbD_or, BitVec.getLsbD_shiftLeft, BitVec.getLsbD_setWidth, hi]
  interval_cases k <;> interval_cases i <;> simp

/-! ### The number of symbols and the exact sum -/

theorem toList_eq_map_allBytes (freq : Freq) : freq.toList = allBytes.map (freqAt freq) := by
  apply List.ext_getElem
  · simp [allBytes]
  · intro k h1 h2
    have hk : k < 256 := by simpa using h1
    simp [allBytes, freqAt, Nat.mod_eq_of_lt hk]

/-- The `n` of HDR_CHECK is the number of byte values with a non-zero count (10_state R41). -/
theorem symbolCount_eq (freq : Freq) : symbolCount freq = (symbolsOf freq).length := by
  rw [symbolCount, toList_eq_map_allBytes, List.countP_map, symbolsOf, List.countP_eq_length_filter]
  rfl

theorem foldl_sum72 (cs : List Word) : ∀ (a : BitVec 72), a.toNat + cs.length * (2 ^ 64 - 1) < 2 ^ 72 →
    (cs.foldl (fun a c => a + c.setWidth 72) a).toNat = a.toNat + (cs.map BitVec.toNat).sum := by
  induction cs with
  | nil => intro a _; simp
  | cons c cs ih =>
    intro a h
    have hc := c.isLt
    have hadd : (a + c.setWidth 72).toNat = a.toNat + c.toNat := by
      rw [BitVec.toNat_add, BitVec.toNat_setWidth, Nat.mod_eq_of_lt (a := c.toNat) (by omega)]
      simp only [List.length_cons] at h
      exact Nat.mod_eq_of_lt (by omega)
    rw [List.foldl_cons, ih _ (by rw [hadd]; simp only [List.length_cons] at h; omega), hadd, List.map_cons,
      List.sum_cons]
    omega

/-- The 72-bit sum is exact (46 R217). -/
theorem toNat_exactSum (freq : Freq) : (exactSum freq).toNat = countSum freq := by
  have := foldl_sum72 freq.toList 0 (by simp)
  simpa [exactSum, countSum] using this

theorem countSum_lt (freq : Freq) : countSum freq < 2 ^ 72 := by
  rw [← toNat_exactSum]; exact (exactSum freq).isLt

theorem exactSum_eq_zext {freq : Freq} {v : Word} : exactSum freq = v.setWidth 72 ↔ countSum freq = v.toNat := by
  have hv := v.isLt
  rw [← BitVec.toNat_inj, toNat_exactSum, BitVec.toNat_setWidth, Nat.mod_eq_of_lt (a := v.toNat) (by omega)]

theorem sum_map_toNat_eq_zero {cs : List Word} : (cs.map BitVec.toNat).sum = 0 ↔ ∀ c ∈ cs, c = 0 := by
  induction cs with
  | nil => simp
  | cons c cs ih =>
    rw [List.map_cons, List.sum_cons, Nat.add_eq_zero_iff, ih]
    constructor
    · rintro ⟨h1, h2⟩; exact List.forall_mem_cons.2 ⟨BitVec.eq_of_toNat_eq h1, h2⟩
    · intro h
      obtain ⟨h1, h2⟩ := List.forall_mem_cons.1 h
      exact ⟨by rw [h1]; rfl, h2⟩

/-- The sum of the counts is 0 exactly when there is no symbol (46 R218). -/
theorem countSum_eq_zero {freq : Freq} : countSum freq = 0 ↔ symbolsOf freq = [] := by
  rw [countSum, sum_map_toNat_eq_zero, toList_eq_map_allBytes]
  simp only [List.mem_map, forall_exists_index, and_imp, forall_apply_eq_imp_iff₂, symbolsOf,
    List.filter_eq_nil_iff, bne_iff_ne, ne_eq, not_not]

/-- The counts that matter are those of the symbols. -/
theorem countSum_symbols (freq : Freq) : countSum freq = ((symbolsOf freq).map fun x => (freqAt freq x).toNat).sum := by
  rw [countSum, toList_eq_map_allBytes, List.map_map, symbolsOf]
  generalize allBytes = l
  induction l with
  | nil => rfl
  | cons x l ih =>
    by_cases h : freqAt freq x = 0
    · simp only [List.map_cons, List.sum_cons, Function.comp, h]
      rw [List.filter_cons_of_neg (by simp [h])]
      simpa [Function.comp] using ih
    · rw [List.filter_cons_of_pos (by simpa using h)]
      simp only [List.map_cons, List.sum_cons, Function.comp]
      rw [← ih]

/-- The weight of the root, a sum of words, as a number (42 R164). -/
theorem sum_words (l : List Word) : l.sum = BitVec.ofNat 64 (l.map BitVec.toNat).sum := by
  induction l with
  | nil => rfl
  | cons v l ih => rw [List.sum_cons, ih, List.map_cons, List.sum_cons, BitVec.ofNat_add, BitVec.ofNat_toNat, BitVec.setWidth_eq]

theorem sum_symbols (freq : Freq) : ((symbolsOf freq).map (freqAt freq)).sum = BitVec.ofNat 64 (countSum freq) := by
  rw [sum_words, countSum_symbols, List.map_map]; rfl

theorem sum_count_cons (l : List Byte) (b : Byte) (bs : List Byte) :
    (l.map fun x => (b :: bs).count x).sum = (l.map fun x => bs.count x).sum + l.count b := by
  induction l with
  | nil => rfl
  | cons x l ih =>
    rw [List.map_cons, List.sum_cons, ih, List.map_cons, List.sum_cons, List.count_cons, List.count_cons]
    by_cases h : b = x
    · subst h; simp; omega
    · have h' : ¬ x = b := fun e => h e.symm
      simp [h, h']; omega

/-- Every byte of an input is counted once (41 R145). -/
theorem sum_count_allBytes (bs : List Byte) : (allBytes.map fun x => bs.count x).sum = bs.length := by
  induction bs with
  | nil => exact List.sum_eq_zero (by simp)
  | cons b bs ih =>
    rw [sum_count_cons, ih, List.count_eq_one_of_mem nodup_allBytes (mem_allBytes b), List.length_cons]

end Sys2Proof.Machine
end

