-- ==== Sys2Proof/Laws/Memory.lean ====
section
/-! SUPPORT. Memory: read after write, the canonical form is kept, and what reading a range of `IN_BUF` gives. -/
namespace Sys2Proof.Machine

/-- A read of a byte that the memory does not list is a fault. -/
theorem readByte_none {m : Memory} {a : Nat} (h : m.read a = none) :
    readByte m a = .error (if a < Config.inCap then .inBufUnwritten else .inBufOutside) := by
  simp only [readByte, h]
  split <;> rfl

theorem Memory.read_write_same (m : Memory) (a : Nat) (b : Byte) : (m.write a b).read a = some b := by
  induction m with
  | nil => simp [Memory.write, Memory.read]
  | cons c m ih =>
    unfold Memory.write
    split
    · simp [Memory.read]
    · split
      · simp [Memory.read]
      · have : c.1 ≠ a := by omega
        simp [Memory.read, this, ih]

theorem Memory.read_write_other (m : Memory) {a a' : Nat} (b : Byte) (h : a' ≠ a) :
    (m.write a b).read a' = m.read a' := by
  induction m with
  | nil => simp [Memory.write, Memory.read, Ne.symm h]
  | cons c m ih =>
    unfold Memory.write
    split
    · simp [Memory.read, Ne.symm h]
    · split
      · rename_i h1 h2
        subst h2
        simp [Memory.read, Ne.symm h]
      · by_cases hc : c.1 = a' <;> simp [Memory.read, hc, ih]

theorem Memory.mem_write {m : Memory} {a : Nat} {b : Byte} {c : Host.Cell} (h : c ∈ m.write a b) :
    c = (a, b) ∨ c ∈ m := by
  induction m with
  | nil => simpa [Memory.write] using h
  | cons d m ih =>
    unfold Memory.write at h
    split at h
    · simpa using h
    · split at h
      · rcases List.mem_cons.1 h with h | h
        · exact .inl h
        · exact .inr (List.mem_cons_of_mem _ h)
      · rcases List.mem_cons.1 h with h | h
        · exact .inr (h ▸ List.mem_cons_self)
        · rcases ih h with h | h
          · exact .inl h
          · exact .inr (List.mem_cons_of_mem _ h)

/-- Prepending a cell below all others keeps the canonical form. -/
theorem Memory.wf_cons {c : Host.Cell} {m : Memory} :
    Memory.wf (c :: m) = true ↔ (∀ d ∈ m.head?, c.1 < d.1) ∧ Memory.wf m = true := by
  cases m with
  | nil => simp [Memory.wf]
  | cons d m => simp [Memory.wf]

/-- A write keeps the canonical form. -/
theorem Memory.wf_write {m : Memory} (a : Nat) (b : Byte) (h : Memory.wf m = true) : Memory.wf (m.write a b) = true := by
  induction m with
  | nil => rfl
  | cons c m ih =>
    obtain ⟨hc, hm⟩ := Memory.wf_cons.1 h
    unfold Memory.write
    split
    · rename_i hlt
      exact Memory.wf_cons.2 ⟨by simpa using hlt, h⟩
    · split
      · rename_i _ heq
        exact Memory.wf_cons.2 ⟨by simpa [heq] using hc, hm⟩
      · rename_i h1 h2
        refine Memory.wf_cons.2 ⟨?_, ih hm⟩
        cases m with
        | nil => simp [Memory.write]; omega
        | cons d m =>
          have hd : c.1 < d.1 := by simpa using hc
          unfold Memory.write
          split
          · simp; omega
          · split
            · simp; omega
            · simpa using hd

theorem readByte_of_read {m : Memory} {a : Nat} {b : Byte} (h : m.read a = some b) : readByte m a = .ok b := by
  simp [readByte, h]

theorem readByte_eq_ok {m : Memory} {a : Nat} {b : Byte} : readByte m a = .ok b ↔ m.read a = some b := by
  unfold readByte
  cases m.read a with
  | some c => simp
  | none => simp; split <;> simp

theorem Memory.holds_cons {m : Memory} {a : Nat} {b : Byte} {bs : List Byte} :
    m.holds a (b :: bs) ↔ m.read a = some b ∧ m.holds (a + 1) bs := by
  have e : ∀ k, a + 1 + k = a + (k + 1) := fun k => by omega
  constructor
  · intro h
    refine ⟨h 0 (Nat.succ_pos _), fun k hk => ?_⟩
    rw [e k]
    exact h (k + 1) (Nat.succ_lt_succ hk)
  · rintro ⟨h0, h⟩ k hk
    cases k with
    | zero => exact h0
    | succ k =>
      rw [← e k]
      exact h k (Nat.lt_of_succ_lt_succ hk)

theorem Memory.holds_nil (m : Memory) (a : Nat) : m.holds a [] := by
  intro k hk; simp at hk

theorem Memory.holds_append {m : Memory} {a : Nat} {bs cs : List Byte} :
    m.holds a (bs ++ cs) ↔ m.holds a bs ∧ m.holds (a + bs.length) cs := by
  induction bs generalizing a with
  | nil => simp [Memory.holds_nil]
  | cons b bs ih => simp [Memory.holds_cons, ih, and_assoc, Nat.add_assoc, Nat.add_comm 1]

/-- Reading a range gives exactly the bytes it holds. -/
theorem readBytes_eq_ok {m : Memory} {a n : Nat} {bs : List Byte} :
    readBytes m a n = .ok bs ↔ bs.length = n ∧ m.holds a bs := by
  induction n generalizing a bs with
  | zero =>
    constructor
    · intro h; cases h; exact ⟨rfl, Memory.holds_nil m a⟩
    · rintro ⟨h, -⟩; rw [List.length_eq_zero_iff.1 h]; rfl
  | succ n ih =>
    rw [readBytes, bind_eq_ok]
    constructor
    · rintro ⟨b, hb, h⟩
      obtain ⟨cs, hcs, h⟩ := bind_eq_ok.1 h
      cases h
      obtain ⟨hl, hh⟩ := ih.1 hcs
      exact ⟨by simp [hl], Memory.holds_cons.2 ⟨readByte_eq_ok.1 hb, hh⟩⟩
    · rintro ⟨hl, hh⟩
      cases bs with
      | nil => simp at hl
      | cons b bs =>
        obtain ⟨h0, h1⟩ := Memory.holds_cons.1 hh
        exact ⟨b, readByte_eq_ok.2 h0, bind_eq_ok.2 ⟨bs, ih.2 ⟨by simpa using hl, h1⟩, rfl⟩⟩

end Sys2Proof.Machine
end

