-- ==== Sys2Proof/Laws/Writer.lean ====
section
/-! SUPPORT. The bit writer: what `BW_PUT_BIT` and a sequence of them do (44 R186, R187, R189). -/
namespace Sys2Proof.Machine

theorem take_succ_byteBits (b : Byte) {k : Nat} (h : k < 8) :
    (byteBits b).take (k + 1) = (byteBits b).take k ++ [b.getLsbD (7 - k)] := by
  rw [List.take_succ_eq_append_getElem (by simpa using h), getElem_byteBits b k h]

theorem take_byteBits_congr {b c : Byte} {n : Nat} (hn : n ≤ 8)
    (h : ∀ k, k < n → b.getLsbD (7 - k) = c.getLsbD (7 - k)) : (byteBits b).take n = (byteBits c).take n := by
  apply List.ext_getElem
  · simp
  · intro k h1 h2
    have hk : k < n := by simp at h1; omega
    simp only [List.getElem_take]
    rw [getElem_byteBits b k (by omega), getElem_byteBits c k (by omega), h k hk]

/-- What writing bits does: whole bytes go out, the rest stays in `ACC`, and every written bit is in one of the two. -/
structure Wrote (s : State) (w : List Bool) (t : State) (body : List Byte) : Prop where
  state : t = { s with out := s.out ++ body, outLen := s.outLen + BitVec.ofNat 64 body.length
                       bitCount := s.bitCount + BitVec.ofNat 64 w.length, acc := t.acc, nbits := t.nbits }
  bits : bytesBits body ++ pendingBits t = pendingBits s ++ w
  clean : AccClean t

theorem length_pendingBits (s : State) : (pendingBits s).length = s.nbits.toNat := by
  have := s.nbits.isLt
  simp [pendingBits]; omega

/-- The eighth bit of a byte (44 R186). -/
theorem bwPutBit_full {s : State} (v : Bool) (h : s.nbits = 7) :
    bwPutBit v s = { s with bitCount := s.bitCount + 1, out := s.out ++ [setBitTo s.acc (7 - s.nbits.toNat) v]
                            outLen := s.outLen + 1, acc := 0, nbits := 0 } := by
  unfold bwPutBit; rw [if_pos h]; rfl

/-- Any other bit (44 R186). -/
theorem bwPutBit_more {s : State} (v : Bool) (h : s.nbits ≠ 7) :
    bwPutBit v s = { s with bitCount := s.bitCount + 1, acc := setBitTo s.acc (7 - s.nbits.toNat) v
                            nbits := s.nbits + 1 } ∧ (s.nbits + 1).toNat = s.nbits.toNat + 1 := by
  refine ⟨by unfold bwPutBit; rw [if_neg h], ?_⟩
  have hn := s.nbits.isLt
  have : s.nbits.toNat ≠ 7 := fun e => h (BitVec.eq_of_toNat_eq e)
  rw [BitVec.toNat_add]; simp; omega

/-- One bit (44 R186). -/
theorem bwPutBit_wrote {s : State} (v : Bool) (hs : AccClean s) : ∃ body, Wrote s [v] (bwPutBit v s) body := by
  have hn := s.nbits.isLt
  set acc := setBitTo s.acc (7 - s.nbits.toNat) v with hacc
  have low : ∀ k, k < 7 - s.nbits.toNat → acc.getLsbD k = false := by
    intro k hk
    rw [hacc, getLsbD_setBitTo, if_neg (by omega)]
    exact hs k (by omega)
  have high : (byteBits acc).take (s.nbits.toNat + 1) = pendingBits s ++ [v] := by
    rw [take_succ_byteBits acc (by omega), hacc, getLsbD_setBitTo, if_pos (by omega)]
    congr 1
    apply take_byteBits_congr (by omega)
    intro k hk
    rw [getLsbD_setBitTo, if_neg (by omega)]
  by_cases h7 : s.nbits = 7
  · have h7' : s.nbits.toNat = 7 := by rw [h7]; rfl
    have e := bwPutBit_full v h7
    refine ⟨[acc], ?_, ?_, ?_⟩
    · rw [e]; rfl
    · rw [h7'] at high
      have h8 : (byteBits acc).take 8 = byteBits acc := List.take_of_length_le (by simp)
      rw [e, bytesBits_cons, bytesBits_nil, List.append_nil, ← high, h8]
      simp [pendingBits]
    · intro k _
      rw [e]; simp
  · obtain ⟨e, hsucc⟩ := bwPutBit_more v h7
    refine ⟨[], ?_, ?_, ?_⟩
    · rw [e]; simp
    · rw [e, bytesBits_nil, List.nil_append]
      unfold pendingBits
      simp only [hsucc]
      exact high
    · intro k hk
      rw [e] at hk ⊢
      simp only [hsucc] at hk
      exact low k (by omega)

theorem Wrote.trans {s t u : State} {w w' : List Bool} {body body' : List Byte} (h1 : Wrote s w t body)
    (h2 : Wrote t w' u body') : Wrote s (w ++ w') u (body ++ body') where
  state := by
    have e1 := h1.state
    have e2 := h2.state
    rw [e2, e1]
    simp [List.append_assoc, BitVec.ofNat_add, BitVec.add_assoc]
  bits := by
    rw [bytesBits_append, List.append_assoc, h2.bits, ← List.append_assoc, h1.bits, List.append_assoc]
  clean := h2.clean

/-- A sequence of bits (44 R187, R189). -/
theorem bwPutBits_wrote (w : List Bool) {s : State} (hs : AccClean s) : ∃ body, Wrote s w (bwPutBits w s) body := by
  induction w generalizing s with
  | nil => exact ⟨[], by simp [bwPutBits], by simp [bwPutBits], hs⟩
  | cons v w ih =>
    obtain ⟨b1, h1⟩ := bwPutBit_wrote v hs
    obtain ⟨b2, h2⟩ := ih h1.clean
    exact ⟨b1 ++ b2, h1.trans h2⟩

theorem bwPutBits_append (w w' : List Bool) (s : State) : bwPutBits (w ++ w') s = bwPutBits w' (bwPutBits w s) := by
  simp [bwPutBits]

/-- What the writer leaves alone, whatever `ACC` holds. -/
theorem bwPutBits_frame (w : List Bool) (s : State) :
    bwPutBits w s = { s with out := (bwPutBits w s).out, outLen := (bwPutBits w s).outLen
                             bitCount := (bwPutBits w s).bitCount, acc := (bwPutBits w s).acc
                             nbits := (bwPutBits w s).nbits } := by
  induction w generalizing s with
  | nil => rfl
  | cons v w ih =>
    have h1 : bwPutBits (v :: w) s = bwPutBits w (bwPutBit v s) := rfl
    rw [h1, ih]
    unfold bwPutBit emit
    split <;> rfl

/-- The writer only appends to `OUT` and counts what it appends. -/
theorem bwPutBits_out (w : List Bool) (s : State) :
    ∃ bs, (bwPutBits w s).out = s.out ++ bs ∧ (bwPutBits w s).outLen = s.outLen + BitVec.ofNat 64 bs.length := by
  induction w generalizing s with
  | nil => exact ⟨[], by simp [bwPutBits], by simp [bwPutBits]⟩
  | cons v w ih =>
    have h1 : bwPutBits (v :: w) s = bwPutBits w (bwPutBit v s) := rfl
    obtain ⟨bs, e1, e2⟩ := ih (bwPutBit v s)
    by_cases h7 : s.nbits = 7
    · refine ⟨setBitTo s.acc (7 - s.nbits.toNat) v :: bs, ?_, ?_⟩
      · rw [h1, e1, bwPutBit_full v h7]; simp
      · rw [h1, e2, bwPutBit_full v h7, List.length_cons, BitVec.ofNat_add, BitVec.add_assoc,
          BitVec.add_comm (BitVec.ofNat 64 bs.length)]
        rfl
    · refine ⟨bs, ?_, ?_⟩
      · rw [h1, e1, (bwPutBit_more v h7).1]
      · rw [h1, e2, (bwPutBit_more v h7).1]

/-- The number of bits held follows the number written. -/
theorem bwPutBits_nbits (w : List Bool) (s : State) :
    (bwPutBits w s).nbits.toNat = (s.nbits.toNat + w.length) % 8 := by
  induction w generalizing s with
  | nil => have := s.nbits.isLt; simp [bwPutBits]; omega
  | cons v w ih =>
    have h1 : bwPutBits (v :: w) s = bwPutBits w (bwPutBit v s) := rfl
    have hn := s.nbits.isLt
    rw [h1, ih, List.length_cons]
    by_cases h7 : s.nbits = 7
    · have h7' : s.nbits.toNat = 7 := by rw [h7]; rfl
      rw [bwPutBit_full v h7]; simp; omega
    · obtain ⟨e, hs⟩ := bwPutBit_more v h7
      rw [e]; simp only [hs]; omega

/-- The closing of the writer (44 R188): the bytes emitted since it was empty are the body of the bits written. -/
theorem Wrote.body {s t : State} {w : List Bool} {body : List Byte} (h : Wrote s w t body) (h0 : s.nbits = 0) :
    (t.nbits = 0 → IsBody w body) ∧ (t.nbits ≠ 0 → IsBody w (body ++ [t.acc])) ∧
      t.nbits.toNat = w.length % 8 := by
  have hb := h.bits
  have hs : pendingBits s = [] := by simp [pendingBits, h0]
  rw [hs, List.nil_append] at hb
  have hl := congrArg List.length hb
  rw [List.length_append, length_bytesBits, length_pendingBits] at hl
  have hn := t.nbits.isLt
  have hmod : t.nbits.toNat = w.length % 8 := by omega
  refine ⟨?_, ?_, hmod⟩
  · intro h
    have hz : t.nbits.toNat = 0 := by rw [h]; rfl
    have : pendingBits t = [] := List.length_eq_zero_iff.1 (by rw [length_pendingBits, hz])
    rw [this, List.append_nil] at hb
    have e0 : (8 - w.length % 8) % 8 = 0 := by omega
    rw [IsBody, e0, List.replicate_zero, List.append_nil, hb]
  · intro hne
    have hz : t.nbits.toNat ≠ 0 := fun e => hne (BitVec.eq_of_toNat_eq e)
    have e0 : (8 - w.length % 8) % 8 = 8 - t.nbits.toNat := by omega
    rw [IsBody, bytesBits_append, e0, ← hb, List.append_assoc]
    congr 1
    rw [bytesBits_cons, bytesBits_nil, List.append_nil]
    rw [← List.take_append_drop t.nbits.toNat (byteBits t.acc)]
    congr 1
    apply List.ext_getElem
    · simp
    · intro k h1 h2
      have hk : k < 8 - t.nbits.toNat := by simpa using h2
      rw [List.getElem_drop, getElem_byteBits _ _ (by omega), List.getElem_replicate]
      exact h.clean _ (by omega)

end Sys2Proof.Machine
end

