-- ==== Sys2Proof/Laws/Input.lean ====
section
/-! SUPPORT. The two passes over the input: the counting loop of FC_COUNT and the encoding loop of ENC_BODY
(41 R142 to R145, 45 R203, R204). -/
namespace Sys2Proof.Machine

/-- A range is read completely, or up to a first missing byte. -/
theorem Memory.holds_or_missing (m : Memory) (a n : Nat) :
    (∃ bs, bs.length = n ∧ m.holds a bs) ∨ (∃ bs, bs.length < n ∧ m.holds a bs ∧ m.read (a + bs.length) = none) := by
  induction n with
  | zero => exact .inl ⟨[], rfl, Memory.holds_nil m a⟩
  | succ n ih =>
    rcases ih with ⟨bs, hl, hh⟩ | ⟨bs, hl, hh, hm⟩
    · cases hr : m.read (a + bs.length) with
      | none => exact .inr ⟨bs, by omega, hh, hr⟩
      | some b =>
        refine .inl ⟨bs ++ [b], by simp [hl], Memory.holds_append.2 ⟨hh, ?_⟩⟩
        exact Memory.holds_cons.2 ⟨hr, Memory.holds_nil m _⟩
    · exact .inr ⟨bs, by omega, hh, hm⟩

/-! ### Counting -/

/-- The table after counting the bytes `bs` into `freq` (41 R142). -/
def countInto (freq : Freq) (bs : List Byte) : Freq := bs.foldl bump freq

theorem freqAt_countInto (freq : Freq) (bs : List Byte) (x : Byte) :
    freqAt (countInto freq bs) x = freqAt freq x + BitVec.ofNat 64 (bs.count x) := by
  induction bs generalizing freq with
  | nil => simp [countInto]
  | cons b bs ih =>
    have : countInto freq (b :: bs) = countInto (bump freq b) bs := rfl
    rw [this, ih, bump, freqAt_freqSet, List.count_cons]
    by_cases h : b = x
    · subst h
      simp only [if_pos, beq_self_eq_true]
      rw [word_add_succ]
    · have h' : ¬ x = b := fun e => h e.symm
      simp [h, h']

/-- Counting the bytes it can read (41 R142). -/
theorem countLoop_holds {bs : List Byte} : ∀ {i n : Nat} {s : State}, s.inBuf.holds i bs →
    countLoop (bs.length + n) i s = countLoop n (i + bs.length)
      { s with inPtr := if bs = [] then s.inPtr else BitVec.ofNat 64 (i + bs.length), freq := countInto s.freq bs } := by
  induction bs with
  | nil => intro i n s _; simp [countInto]
  | cons b bs ih =>
    intro i n s h
    obtain ⟨h0, h1⟩ := Memory.holds_cons.1 h
    have e : (b :: bs).length + n = (bs.length + n) + 1 := by simp; omega
    rw [e, countLoop, readByte_of_read h0, lift_ok, ok_bind,
      ih (s := { s with inPtr := BitVec.ofNat 64 (i + 1), freq := bump s.freq b }) h1]
    have e2 : i + (b :: bs).length = i + 1 + bs.length := by simp; omega
    rw [e2, if_neg (List.cons_ne_nil b bs)]
    congr 1
    by_cases hb : bs = []
    · subst hb; rfl
    · rw [if_neg hb]; rfl

theorem countLoop_ok {bs : List Byte} {i : Nat} {s : State} (h : s.inBuf.holds i bs) :
    countLoop bs.length i s =
      .ok { s with inPtr := if bs = [] then s.inPtr else BitVec.ofNat 64 (i + bs.length), freq := countInto s.freq bs } := by
  have := countLoop_holds (n := 0) h
  rwa [Nat.add_zero] at this

theorem countLoop_fault {bs : List Byte} {i n : Nat} {s : State} (h : s.inBuf.holds i bs) (hn : bs.length < n)
    (hm : s.inBuf.read (i + bs.length) = none) :
    countLoop n i s =
      .error (.fault (if i + bs.length < Config.inCap then .inBufUnwritten else .inBufOutside)) := by
  have e : n = bs.length + ((n - bs.length - 1) + 1) := by omega
  rw [e, countLoop_holds h, countLoop, readByte_none hm, lift_error, error_bind]

/-- The whole table: what counting leaves counts the bytes exactly when it starts from zero (41 R145). -/
theorem toNat_countInto {bs : List Byte} (h : bs.length < 2 ^ 64) (x : Byte) :
    (freqAt (countInto (Vector.replicate 256 0) bs) x).toNat = bs.count x := by
  rw [freqAt_countInto, freqAt_replicate, zero_add, BitVec.toNat_ofNat]
  exact Nat.mod_eq_of_lt (lt_of_le_of_lt List.count_le_length h)

/-! ### Encoding -/

/-- The state after the bits of the bytes `bs`, read from address `i`, are written (45 R203). -/
def encoded (bs : List Byte) (i : Nat) (s : State) : State :=
  { bwPutBits (bodyBits s.ct bs) s with inPtr := if bs = [] then s.inPtr else BitVec.ofNat 64 (i + bs.length) }

theorem encoded_ct (bs : List Byte) (i : Nat) (s : State) : (encoded bs i s).ct = s.ct := by
  unfold encoded; rw [bwPutBits_frame]

theorem encoded_inBuf (bs : List Byte) (i : Nat) (s : State) : (encoded bs i s).inBuf = s.inBuf := by
  unfold encoded; rw [bwPutBits_frame]

theorem bwPutBits_inPtr (w : List Bool) (p : Word) (s : State) :
    bwPutBits w { s with inPtr := p } = { bwPutBits w s with inPtr := p } := by
  induction w generalizing s with
  | nil => rfl
  | cons v w ih =>
    have h (s : State) : bwPutBits (v :: w) s = bwPutBits w (bwPutBit v s) := rfl
    have h2 : bwPutBit v { s with inPtr := p } = { bwPutBit v s with inPtr := p } := by
      by_cases h7 : s.nbits = 7
      · rw [bwPutBit_full v h7, bwPutBit_full v (by exact h7)]
      · rw [(bwPutBit_more v h7).1, (bwPutBit_more v (by exact h7)).1]
    rw [h, h, h2, ih]

/-- Encoding the bytes it can read and that have a code (45 R203). -/
theorem bodyLoop_holds {bs : List Byte} : ∀ {i n : Nat} {s : State}, s.inBuf.holds i bs →
    (∀ b ∈ bs, (codeAt s.ct.code b).len ≠ 0) →
    bodyLoop (bs.length + n) i s = bodyLoop n (i + bs.length) (encoded bs i s) := by
  induction bs with
  | nil => intro i n s _ _; simp [encoded, bodyBits, bwPutBits]
  | cons b bs ih =>
    intro i n s h hc
    obtain ⟨h0, h1⟩ := Memory.holds_cons.1 h
    have e : (b :: bs).length + n = (bs.length + n) + 1 := by simp; omega
    have hb : ¬ (codeAt s.ct.code b).len = 0 := hc b List.mem_cons_self
    have hstep : bodyLoop ((bs.length + n) + 1) i s = bodyLoop (bs.length + n) (i + 1)
        { bwPutBits (codeAt s.ct.code b).toBits { s with inPtr := BitVec.ofNat 64 i } with
          inPtr := BitVec.ofNat 64 (i + 1) } := by
      rw [bodyLoop]
      simp only [readByte_of_read h0, lift_ok, ok_bind, if_neg hb, bwPutCode]
    set s1 : State := { bwPutBits (codeAt s.ct.code b).toBits { s with inPtr := BitVec.ofNat 64 i } with
          inPtr := BitVec.ofNat 64 (i + 1) } with hs1
    have hct : s1.ct = s.ct := by rw [hs1, bwPutBits_frame]
    have him : s1.inBuf = s.inBuf := by rw [hs1, bwPutBits_frame]
    rw [e, hstep, ih (i := i + 1) (n := n) (by rw [him]; exact h1)
      (fun x hx => by rw [hct]; exact hc x (List.mem_cons_of_mem _ hx))]
    have e2 : i + (b :: bs).length = i + 1 + bs.length := by simp; omega
    rw [e2]
    congr 1
    unfold encoded
    have e3 : bodyBits s.ct (b :: bs) = (codeAt s.ct.code b).toBits ++ bodyBits s.ct bs := rfl
    have e4 : s1 = { bwPutBits (codeAt s.ct.code b).toBits s with inPtr := BitVec.ofNat 64 (i + 1) } := by
      rw [hs1, bwPutBits_inPtr]
    have e5 : (if bs = [] then s1.inPtr else BitVec.ofNat 64 (i + 1 + bs.length)) =
        BitVec.ofNat 64 (i + 1 + bs.length) := by
      split
      · rename_i h; subst h; rw [e4]; rfl
      · rfl
    rw [hct, if_neg (List.cons_ne_nil b bs), e5, e3, bwPutBits_append, e2, e4, bwPutBits_inPtr]

theorem bodyLoop_ok {bs : List Byte} {i : Nat} {s : State} (h : s.inBuf.holds i bs)
    (hc : ∀ b ∈ bs, (codeAt s.ct.code b).len ≠ 0) : bodyLoop bs.length i s = .ok (encoded bs i s) := by
  have := bodyLoop_holds (n := 0) h hc
  rwa [Nat.add_zero] at this

/-- The first byte without a code raises InvariantViolation (45 R203, R204). -/
theorem bodyLoop_absent {bs : List Byte} {b : Byte} {i n : Nat} {s : State} (h : s.inBuf.holds i (bs ++ [b]))
    (hn : bs.length < n) (hc : ∀ x ∈ bs, (codeAt s.ct.code x).len ≠ 0) (hb : (codeAt s.ct.code b).len = 0) :
    bodyLoop n i s = .error (.raised (raiseState .invariantViolation 1
      { bwPutBits (bodyBits s.ct bs) s with inPtr := BitVec.ofNat 64 (i + bs.length) })) := by
  obtain ⟨h0, h1⟩ := Memory.holds_append.1 h
  obtain ⟨h2, -⟩ := Memory.holds_cons.1 h1
  have e : n = bs.length + ((n - bs.length - 1) + 1) := by omega
  have hr : readByte (encoded bs i s).inBuf (i + bs.length) = .ok b := by
    rw [encoded_inBuf]; exact readByte_of_read h2
  have hb' : (codeAt (encoded bs i s).ct.code b).len = 0 := by rw [encoded_ct]; exact hb
  rw [e, bodyLoop_holds h0 hc, bodyLoop]
  simp only [hr, lift_ok, ok_bind, if_pos hb', raise_eq]
  rfl

theorem bodyLoop_fault {bs : List Byte} {i n : Nat} {s : State} (h : s.inBuf.holds i bs) (hn : bs.length < n)
    (hc : ∀ x ∈ bs, (codeAt s.ct.code x).len ≠ 0) (hm : s.inBuf.read (i + bs.length) = none) :
    bodyLoop n i s =
      .error (.fault (if i + bs.length < Config.inCap then .inBufUnwritten else .inBufOutside)) := by
  have e : n = bs.length + ((n - bs.length - 1) + 1) := by omega
  rw [e, bodyLoop_holds h hc, bodyLoop]
  simp only [encoded_inBuf, readByte_none hm, lift_error, error_bind]

/-- Bytes all of which have a code, or up to a first one that has none. -/
theorem all_coded_or_absent (c : CodeTable) (bs : List Byte) :
    (∀ b ∈ bs, (codeAt c.code b).len ≠ 0) ∨
      ∃ bs1 b bs2, bs = bs1 ++ b :: bs2 ∧ (∀ x ∈ bs1, (codeAt c.code x).len ≠ 0) ∧ (codeAt c.code b).len = 0 := by
  induction bs with
  | nil => exact .inl (by simp)
  | cons b bs ih =>
    by_cases hb : (codeAt c.code b).len = 0
    · exact .inr ⟨[], b, bs, rfl, by simp, hb⟩
    · rcases ih with h | ⟨bs1, x, bs2, rfl, h1, h2⟩
      · exact .inl (List.forall_mem_cons.2 ⟨hb, h⟩)
      · exact .inr ⟨b :: bs1, x, bs2, rfl, List.forall_mem_cons.2 ⟨hb, h1⟩, h2⟩

/-- Everything the encoding loop can do (45 R203): every byte's code is written, or a first byte without a code raises
InvariantViolation, or a first byte that nobody wrote is a fault. -/
theorem bodyLoop_cases (n i : Nat) (s : State) :
    (∃ bs, bs.length = n ∧ s.inBuf.holds i bs ∧ (∀ b ∈ bs, (codeAt s.ct.code b).len ≠ 0) ∧
        bodyLoop n i s = .ok (encoded bs i s)) ∨
      (∃ bs b, bs.length < n ∧ s.inBuf.holds i (bs ++ [b]) ∧ (∀ x ∈ bs, (codeAt s.ct.code x).len ≠ 0) ∧
        (codeAt s.ct.code b).len = 0 ∧
        bodyLoop n i s = .error (.raised (raiseState .invariantViolation 1
          { bwPutBits (bodyBits s.ct bs) s with inPtr := BitVec.ofNat 64 (i + bs.length) }))) ∨
      ∃ f, bodyLoop n i s = .error (.fault f) := by
  have key : ∀ bs : List Byte, bs.length ≤ n → s.inBuf.holds i bs →
      (∀ b ∈ bs, (codeAt s.ct.code b).len ≠ 0) ∨
      (∃ bs b, bs.length < n ∧ s.inBuf.holds i (bs ++ [b]) ∧ (∀ x ∈ bs, (codeAt s.ct.code x).len ≠ 0) ∧
        (codeAt s.ct.code b).len = 0 ∧
        bodyLoop n i s = .error (.raised (raiseState .invariantViolation 1
          { bwPutBits (bodyBits s.ct bs) s with inPtr := BitVec.ofNat 64 (i + bs.length) }))) := by
    intro bs hl hh
    rcases all_coded_or_absent s.ct bs with h | ⟨bs1, b, bs2, rfl, h1, h2⟩
    · exact .inl h
    · have hh' : s.inBuf.holds i (bs1 ++ [b]) := by
        have : bs1 ++ b :: bs2 = (bs1 ++ [b]) ++ bs2 := by simp
        rw [this] at hh
        exact (Memory.holds_append.1 hh).1
      have hn : bs1.length < n := by simp at hl; omega
      exact .inr ⟨bs1, b, hn, hh', h1, h2, bodyLoop_absent hh' hn h1 h2⟩
  rcases Memory.holds_or_missing s.inBuf i n with ⟨bs, hl, hh⟩ | ⟨bs, hl, hh, hm⟩
  · rcases key bs (le_of_eq hl) hh with h | h
    · exact .inl ⟨bs, hl, hh, h, by rw [← hl]; exact bodyLoop_ok hh h⟩
    · exact .inr (.inl h)
  · rcases key bs (le_of_lt hl) hh with h | h
    · exact .inr (.inr ⟨_, bodyLoop_fault hh hl h hm⟩)
    · exact .inr (.inl h)

/-- Everything the counting loop can do (41 R142): it counts, or a first byte that nobody wrote is a fault. -/
theorem countLoop_cases (n i : Nat) (s : State) :
    (∃ bs, bs.length = n ∧ s.inBuf.holds i bs ∧ countLoop n i s =
        .ok { s with inPtr := if bs = [] then s.inPtr else BitVec.ofNat 64 (i + bs.length)
                     freq := countInto s.freq bs }) ∨
      ∃ f, countLoop n i s = .error (.fault f) := by
  rcases Memory.holds_or_missing s.inBuf i n with ⟨bs, hl, hh⟩ | ⟨bs, hl, hh, hm⟩
  · exact .inl ⟨bs, hl, hh, by rw [← hl]; exact countLoop_ok hh⟩
  · exact .inr ⟨_, countLoop_fault hh hl hm⟩

end Sys2Proof.Machine
end

