-- ==== Sys2Proof/Laws/Phases.lean ====
section
/-! SUPPORT. One inversion lemma per phase: everything the phase can do when it answers a next state. -/
namespace Sys2Proof.Machine

/-- FC_CLEAR (41 R141). -/
theorem execFcClear_eq (s : State) : execFcClear s = .next
    { s with freq := Vector.replicate 256 0, inPtr := 0, acc := 0, nbits := 0, rdNbits := 0
             origLen := if s.op = .encode then s.len else s.origLen
             phase := if s.op = .encode then 2 else 9 } := by
  unfold execFcClear
  cases s.op <;> rfl

/-- FC_COUNT (41 R142). -/
theorem execFcCount_next {s t : State} (h : execFcCount s = .next t) :
    ∃ bs, bs.length = s.len.toNat ∧ s.inBuf.holds 0 bs ∧
      t = { s with inPtr := if bs = [] then s.inPtr else s.len, freq := countInto s.freq bs
                   phase := if s.len = 0 then 6 else 3 } := by
  unfold execFcCount at h
  rcases countLoop_cases s.len.toNat 0 s with ⟨bs, hl, hh, e⟩ | ⟨f, e⟩
  · rw [e] at h
    have := Host.Outcome.next.inj h
    refine ⟨bs, hl, hh, ?_⟩
    rw [← this, Nat.zero_add, hl, BitVec.ofNat_toNat, BitVec.setWidth_eq]
    rfl
  · rw [e] at h
    cases h

/-- TB_LEAVES (42 R158). -/
theorem execTbLeaves_eq (s : State) : ∃ t, LeavesOk s.freq s.tree 256 t ∧
    execTbLeaves s = .next { s with tree := t, symCount := BitVec.ofNat 9 t.next.val, phase := 4 } := by
  obtain ⟨t, e, h⟩ := leafLoop_leaves s.freq s.tree
  refine ⟨t, h, ?_⟩
  unfold execTbLeaves
  rw [e]
  rfl

/-- TB_MERGE (42 R160, R162). -/
theorem execTbMerge_next {s t : State} (h : execTbMerge s = .next t) :
    ∃ u, (if s.symCount = 1 then degenerateTree s.tree else mergedTree s.tree) = .ok u ∧
      t = { s with tree := u, phase := if s.op = .encode then 5 else 11 } := by
  unfold execTbMerge at h
  cases e : (if s.symCount = 1 then degenerateTree s.tree else mergedTree s.tree) with
  | ok u =>
    rw [e] at h
    refine ⟨u, rfl, ?_⟩
    rw [← Host.Outcome.next.inj h]
    cases s.op <;> rfl
  | error f => rw [e] at h; cases h

theorem execTbMerge_of_ok {s : State} {u : TreeBuilder}
    (h : (if s.symCount = 1 then degenerateTree s.tree else mergedTree s.tree) = .ok u) :
    execTbMerge s = .next { s with tree := u, phase := if s.op = .encode then 5 else 11 } := by
  unfold execTbMerge
  rw [h]
  cases s.op <;> rfl

/-- CT_WALK (43 R176). -/
theorem execCtWalk_next {s t : State} (h : execCtWalk s = .next t) :
    ∃ c, ctWalk s.tree.node s.tree.root s.ct = .ok c ∧ t = { s with ct := c, phase := 6 } := by
  unfold execCtWalk at h
  cases e : ctWalk s.tree.node s.tree.root s.ct with
  | ok c => rw [e] at h; exact ⟨c, rfl, (Host.Outcome.next.inj h).symm⟩
  | error f => rw [e] at h; cases h

theorem execCtWalk_of_ok {s : State} {c : CodeTable} (h : ctWalk s.tree.node s.tree.root s.ct = .ok c) :
    execCtWalk s = .next { s with ct := c, phase := 6 } := by
  unfold execCtWalk
  rw [h]
  rfl

/-- HDR_EMIT (45 R201, R202). -/
theorem execHdrEmit_eq (s : State) : execHdrEmit s = .next
    (if s.len = 0 then
      { s with out := s.out ++ headerBytes s.origLen s.freq, outLen := s.outLen + 2056
               cond := { code := .emptyInput, sub := 0 }, errPos := 0, state := .done }
    else { s with out := s.out ++ headerBytes s.origLen s.freq, outLen := s.outLen + 2056, inPtr := 0, phase := 7 }) := by
  unfold execHdrEmit
  simp only [emitAll, length_headerBytes]
  split <;> rfl

/-- ENC_BODY (45 R203): every code written, or InvariantViolation at the first byte without one. -/
theorem execEncBody_next {s t : State} (h : execEncBody s = .next t) :
    (∃ bs, bs.length = s.len.toNat ∧ s.inBuf.holds 0 bs ∧ (∀ b ∈ bs, (codeAt s.ct.code b).len ≠ 0) ∧
        t = setPhase 8 { bwPutBits (bodyBits s.ct bs) s with inPtr := if bs = [] then s.inPtr else s.len }) ∨
      ∃ bs b, bs.length < s.len.toNat ∧ s.inBuf.holds 0 (bs ++ [b]) ∧ (∀ x ∈ bs, (codeAt s.ct.code x).len ≠ 0) ∧
        (codeAt s.ct.code b).len = 0 ∧ t = raiseState .invariantViolation 1
          { bwPutBits (bodyBits s.ct bs) s with inPtr := BitVec.ofNat 64 bs.length } := by
  unfold execEncBody at h
  rcases bodyLoop_cases s.len.toNat 0 s with ⟨bs, hl, hh, hc, e⟩ | ⟨bs, b, hl, hh, hc, hb, e⟩ | ⟨f, e⟩
  · rw [e] at h
    refine .inl ⟨bs, hl, hh, hc, ?_⟩
    rw [← Host.Outcome.next.inj h, encoded, Nat.zero_add, hl, BitVec.ofNat_toNat, BitVec.setWidth_eq]
  · rw [e] at h
    refine .inr ⟨bs, b, hl, hh, hc, hb, ?_⟩
    rw [← Host.Outcome.next.inj h, Nat.zero_add]
  · rw [e] at h
    cases h

/-- BW_FLUSH (44 R188). -/
theorem execBwFlush_eq (s : State) : execBwFlush s = .next
    (if s.nbits = 0 then { s with cond := { code := .ok, sub := 0 }, errPos := 0, state := .done }
    else { s with out := s.out ++ [s.acc], outLen := s.outLen + 1, acc := 0, nbits := 0
                  cond := { code := .ok, sub := 0 }, errPos := 0, state := .done }) := by
  unfold execBwFlush
  split <;> rfl

/-- HDR_PARSE (46 R216). -/
theorem execHdrParse_next {s t : State} (h : execHdrParse s = .next t) :
    (s.len.toNat < 2056 ∧ t = raiseState .malformedArtifact 1 s) ∨
      ∃ hdr, 2056 ≤ s.len.toNat ∧ hdr.length = 2056 ∧ s.inBuf.holds 0 hdr ∧
        t = { s with origLen := fieldAt hdr 0, freq := headerFreq hdr, inPtr := 2056, phase := 10 } := by
  unfold execHdrParse Config.hdrBytes at h
  by_cases hl : s.len.toNat < 2056
  · rw [if_pos hl, raise_eq] at h
    exact .inl ⟨hl, (Host.Outcome.next.inj h).symm⟩
  · rw [if_neg hl] at h
    cases e : readBytes s.inBuf 0 2056 with
    | ok hdr =>
      rw [e] at h
      obtain ⟨h1, h2⟩ := readBytes_eq_ok.1 e
      exact .inr ⟨hdr, by omega, h1, h2, (Host.Outcome.next.inj h).symm⟩
    | error f => rw [e] at h; cases h

theorem execHdrParse_of_holds {s : State} {hdr : List Byte} (hl : 2056 ≤ s.len.toNat) (h1 : hdr.length = 2056)
    (h2 : s.inBuf.holds 0 hdr) : execHdrParse s = .next
      { s with origLen := fieldAt hdr 0, freq := headerFreq hdr, inPtr := 2056, phase := 10 } := by
  unfold execHdrParse Config.hdrBytes
  rw [if_neg (by omega), readBytes_eq_ok.2 ⟨h1, h2⟩]
  rfl

/-- HDR_CHECK (46 R217, R218), in terms of the list of symbols and the exact sum. -/
theorem execHdrCheck_eq (s : State) :
    let s1 : State := { s with symCount := BitVec.ofNat 9 (symbolsOf s.freq).length, sum := BitVec.ofNat 72 (countSum s.freq) }
    execHdrCheck s = .next (
      if symbolsOf s.freq = [] ∧ s.origLen ≠ 0 then raiseState .malformedArtifact 2 s1
      else if countSum s.freq ≠ s.origLen.toNat then raiseState .malformedArtifact 3 s1
      else if s.origLen = 0 then finish .emptyInput s1 else setPhase 3 s1) := by
  intro s1
  have hs1 : ({ s with symCount := BitVec.ofNat 9 (symbolCount s.freq), sum := exactSum s.freq } : State) = s1 := by
    simp only [s1, symbolCount_eq]
    congr 1
    apply BitVec.eq_of_toNat_eq
    rw [toNat_exactSum, BitVec.toNat_ofNat, Nat.mod_eq_of_lt (countSum_lt _)]
  have hn : symbolCount s.freq = 0 ↔ symbolsOf s.freq = [] := by rw [symbolCount_eq, List.length_eq_zero_iff]
  unfold execHdrCheck
  simp only [hs1, hn, ne_eq, exactSum_eq_zext]
  by_cases c1 : symbolsOf s.freq = [] ∧ ¬ s.origLen = 0
  · rw [if_pos c1, if_pos c1]; rfl
  · rw [if_neg c1, if_neg c1]
    by_cases c2 : countSum s.freq = s.origLen.toNat
    · rw [if_neg (not_not.2 c2), if_neg (not_not.2 c2)]
      by_cases c3 : s.origLen = 0
      · rw [if_pos c3, if_pos c3]; rfl
      · rw [if_neg c3, if_neg c3]; rfl
    · rw [if_pos c2, if_pos c2]; rfl

/-! ### The decoder's walk, whatever the input -/

/-- What the walk may change: the output, the reader, the place in the tree. -/
structure WalkFrame (s t : State) : Prop where
  state : t = { s with out := t.out, outLen := t.outLen, bitCount := t.bitCount, cur := t.cur, wstate := t.wstate
                       rdByte := t.rdByte, rdNbits := t.rdNbits, inPtr := t.inPtr }
  out : ∃ bs, t.out = s.out ++ bs ∧ t.outLen = s.outLen + BitVec.ofNat 64 bs.length
  inPtr : s.inPtr ≤ s.len → t.inPtr ≤ s.len

theorem WalkFrame.refl (s : State) : WalkFrame s s := ⟨rfl, ⟨[], by simp, by simp⟩, id⟩

theorem WalkFrame.trans {s t u : State} (h1 : WalkFrame s t) (h2 : WalkFrame t u) : WalkFrame s u where
  state := by rw [h2.state, h1.state]
  out := by
    obtain ⟨b1, e1, l1⟩ := h1.out
    obtain ⟨b2, e2, l2⟩ := h2.out
    exact ⟨b1 ++ b2, by rw [e2, e1, List.append_assoc],
      by rw [l2, l1, List.length_append, BitVec.ofNat_add, BitVec.add_assoc]⟩
  inPtr := fun h => by
    have : t.len = s.len := by rw [h1.state]
    have h3 := h2.inPtr (by rw [this]; exact h1.inPtr h)
    rwa [this] at h3

theorem brFill_cases (s : State) :
    (∃ t, brFill s = .ok t ∧ WalkFrame s t) ∨
      (brFill s = .error (.raised (raiseState .truncatedBitstream 0 s)) ∧ s.rdNbits.val = 0 ∧ s.len ≤ s.inPtr) ∨
      ∃ f, brFill s = .error (.fault f) := by
  unfold brFill
  split
  · rename_i h0
    split
    · rename_i hle
      exact .inr (.inl ⟨rfl, h0, hle⟩)
    · rename_i hle
      cases e : readByte s.inBuf s.inPtr.toNat with
      | ok b =>
        refine .inl ⟨_, rfl, rfl, ⟨[], by simp, by simp⟩, fun _ => ?_⟩
        show s.inPtr + 1 ≤ s.len
        rw [BitVec.le_def] at hle ⊢
        have := s.len.isLt
        rw [BitVec.toNat_add]; simp; omega
      | error f => exact .inr (.inr ⟨f, rfl⟩)
  · exact .inl ⟨s, rfl, .refl s⟩

theorem brGetBit_cases (s : State) :
    (∃ v t, brGetBit s = .ok (v, t) ∧ WalkFrame s t) ∨
      (brGetBit s = .error (.raised (raiseState .truncatedBitstream 0 s)) ∧ s.rdNbits.val = 0 ∧ s.len ≤ s.inPtr) ∨
      ∃ f, brGetBit s = .error (.fault f) := by
  unfold brGetBit
  rcases brFill_cases s with ⟨t, e, h⟩ | ⟨e, h⟩ | ⟨f, e⟩
  · rw [e]
    exact .inl ⟨_, _, rfl, h.trans ⟨rfl, ⟨[], by simp [brShift], by simp [brShift]⟩, id⟩⟩
  · rw [e]; exact .inr (.inl ⟨rfl, h⟩)
  · rw [e]; exact .inr (.inr ⟨f, rfl⟩)

/-- How a walk that starts in `s` can end early. -/
def WalkRaise (s t : State) : Prop :=
  ∃ u, WalkFrame s u ∧ u.outLen < u.origLen ∧
    ((t = raiseState .truncatedBitstream 0 u ∧ (u.rdNbits.val = 0 ∧ u.len ≤ u.inPtr)) ∨
      (t = raiseState .malformedArtifact 4 u ∧ (nodeAt u.tree.node u.cur).kind = .placeholder))

theorem walkRound_cases (s : State) (hlt : s.outLen < s.origLen) :
    (∃ t, walkRound s = .ok t ∧ WalkFrame s t) ∨ (∃ t, walkRound s = .error (.raised t) ∧ WalkRaise s t) ∨
      ∃ f, walkRound s = .error (.fault f) := by
  unfold walkRound
  rcases brGetBit_cases s with ⟨v, t, e, h⟩ | ⟨e, h⟩ | ⟨f, e⟩
  · rw [e, ok_bind]
    simp only
    set c := if v = true then (nodeAt t.tree.node t.cur).right else (nodeAt t.tree.node t.cur).left
    have hc : WalkFrame s { t with cur := c } := h.trans ⟨rfl, ⟨[], by simp, by simp⟩, id⟩
    unfold walkArrive
    simp only
    cases hk : (nodeAt t.tree.node c).kind with
    | leaf =>
      exact .inl ⟨_, rfl, hc.trans ⟨rfl, ⟨[(nodeAt t.tree.node c).sym], rfl, rfl⟩, id⟩⟩
    | internal => exact .inl ⟨_, rfl, hc.trans ⟨rfl, ⟨[], by simp, by simp⟩, id⟩⟩
    | placeholder =>
      refine .inr (.inl ⟨_, rfl, _, hc, ?_, .inr ⟨rfl, hk⟩⟩)
      show t.outLen < t.origLen
      obtain ⟨bs, -, -⟩ := h.out
      have e1 : brGetBit s = .ok (v, t) := e
      have e2 : t.outLen = s.outLen ∧ t.origLen = s.origLen := by
        unfold brGetBit at e1
        obtain ⟨s1, f1, g1⟩ := bind_eq_ok.1 e1
        cases g1
        unfold brFill at f1
        split at f1
        · split at f1
          · cases f1
          · obtain ⟨b, -, g2⟩ := bind_eq_ok.1 f1
            cases g2
            exact ⟨rfl, rfl⟩
        · cases f1
          exact ⟨rfl, rfl⟩
      rw [e2.1, e2.2]; exact hlt
  · rw [e]; exact .inr (.inl ⟨_, rfl, s, .refl s, hlt, .inl ⟨rfl, h⟩⟩)
  · rw [e]; exact .inr (.inr ⟨f, rfl⟩)

/-- Everything DEC_WALK's loop can do when it does not run out of bits early by its bound. -/
theorem walkLoop_cases (fuel : Nat) : ∀ s : State, bitsLeft s ≤ fuel →
    (∃ t, walkLoop fuel s = .ok t ∧ WalkFrame s t ∧ ¬ t.outLen < t.origLen) ∨
      (∃ t, walkLoop fuel s = .error (.raised t) ∧ WalkRaise s t) ∨ ∃ f, walkLoop fuel s = .error (.fault f) := by
  induction fuel with
  | zero =>
    intro s hb
    unfold walkLoop
    by_cases hlt : s.outLen < s.origLen
    · rw [if_pos hlt]
      refine .inr (.inl ⟨_, rfl, s, .refl s, hlt, .inl ⟨rfl, ?_, ?_⟩⟩)
      · unfold bitsLeft at hb; omega
      · unfold bitsLeft at hb; rw [BitVec.le_def]; omega
    · rw [if_neg hlt]
      exact .inl ⟨s, rfl, .refl s, hlt⟩
  | succ fuel ih =>
    intro s hb
    unfold walkLoop
    by_cases hlt : s.outLen < s.origLen
    · rw [if_pos hlt]
      rcases walkRound_cases s hlt with ⟨t, e, h⟩ | ⟨t, e, h⟩ | ⟨f, e⟩
      · rw [e, ok_bind]
        have hbt : bitsLeft t ≤ fuel := by
          have hd : bitsLeft t + 1 = bitsLeft s := by
            unfold walkRound at e
            obtain ⟨⟨v, s1⟩, e1, e2⟩ := bind_eq_ok.1 e
            have hs1 : bitsLeft s1 + 1 = bitsLeft s := by
              unfold brGetBit at e1
              obtain ⟨s2, f2, g2⟩ := bind_eq_ok.1 e1
              cases g2
              unfold brFill at f2
              split at f2
              · split at f2
                · cases f2
                · rename_i h0 hle
                  obtain ⟨b, -, g3⟩ := bind_eq_ok.1 f2
                  cases g3
                  rw [BitVec.le_def] at hle
                  have := s.len.isLt
                  have hp : (s.inPtr + 1).toNat = s.inPtr.toNat + 1 := by
                    rw [BitVec.toNat_add]; simp; omega
                  simp only [bitsLeft, brShift, hp, h0]
                  show 8 - 1 + _ + 1 = _
                  omega
              · rename_i h0
                cases f2
                simp only [bitsLeft, brShift]
                omega
            have : bitsLeft t = bitsLeft s1 := by
              unfold walkArrive at e2
              simp only at e2
              split at e2
              · cases e2; rfl
              · cases e2; rfl
              · cases e2
            omega
          omega
        rcases ih t hbt with ⟨u, e', h', h''⟩ | ⟨u, e', u', hf, hlt', h'⟩ | ⟨f, e'⟩
        · exact .inl ⟨u, e', h.trans h', h''⟩
        · exact .inr (.inl ⟨u, e', u', h.trans hf, hlt', h'⟩)
        · exact .inr (.inr ⟨f, e'⟩)
      · rw [e]; exact .inr (.inl ⟨t, rfl, h⟩)
      · rw [e]; exact .inr (.inr ⟨f, rfl⟩)
    · rw [if_neg hlt]
      exact .inl ⟨s, rfl, .refl s, hlt⟩

/-- DEC_WALK (46 R220): it finishes, or raises TruncatedBitstream or PLACEHOLDER_PATH. -/
theorem execDecWalk_next {s t : State} (h : execDecWalk s = .next t) :
    (∃ u, WalkFrame s u ∧ ¬ u.outLen < u.origLen ∧ t = finish .ok u) ∨ WalkRaise s t := by
  unfold execDecWalk at h
  set s0 : State := { s with cur := s.tree.root, wstate := .atRoot } with hs0
  have h0 : WalkFrame s s0 := ⟨rfl, ⟨[], by simp [hs0], by simp [hs0]⟩, id⟩
  rcases walkLoop_cases (bitsLeft s) s0 (le_refl _) with ⟨u, e, hu, hlt⟩ | ⟨u, e, u', hf, h2⟩ | ⟨f, e⟩
  · rw [e] at h
    exact .inl ⟨u, h0.trans hu, hlt, (Host.Outcome.next.inj h).symm⟩
  · rw [e] at h
    rw [← Host.Outcome.next.inj h]
    exact .inr ⟨u', h0.trans hf, h2⟩
  · rw [e] at h
    cases h

end Sys2Proof.Machine
end

