-- ==== Sys2Proof/Laws/Build.lean ====
section
/-! SUPPORT. TB_LEAVES and TB_MERGE together: the tree they build from the counts, whose child is whose in it, and that it
depends on the counts alone (42 R158 to R165). -/
namespace Sys2Proof.Machine

/-- Reading a tree looks only at entries below the bound. -/
theorem Reads.congr {node node' : Arena} {bound : Nat} {T : Shape} (h : AgreeBelow bound node node') :
    ∀ {i : NodeIx}, Reads node bound i T → Reads node' bound i T := by
  induction T with
  | leaf x =>
    intro i hr
    exact ⟨hr.1, by rw [← h i hr.1]; exact hr.2⟩
  | placeholder =>
    intro i hr
    exact ⟨hr.1, by rw [← h i hr.1]; exact hr.2⟩
  | node l r ihl ihr =>
    intro i hr
    obtain ⟨h1, h2, h3, h4⟩ := hr
    simp only [Reads, ← h i h1]
    exact ⟨h1, h2, ihl h3, ihr h4⟩

/-- An entry stands for at most one tree. -/
theorem Reads.unique {node : Arena} {b b' : Nat} {T : Shape} :
    ∀ {T' : Shape} {i : NodeIx}, Reads node b i T → Reads node b' i T' → T = T' := by
  induction T with
  | leaf x =>
    intro T' i h h'
    cases T' with
    | leaf y => rw [← h.2.2, ← h'.2.2]
    | placeholder => have := h.2.1; rw [h'.2] at this; cases this
    | node l r => have := h.2.1; rw [h'.2.1] at this; cases this
  | placeholder =>
    intro T' i h h'
    cases T' with
    | leaf y => have := h.2; rw [h'.2.1] at this; cases this
    | placeholder => rfl
    | node l r => have := h.2; rw [h'.2.1] at this; cases this
  | node l r ihl ihr =>
    intro T' i h h'
    cases T' with
    | leaf y => have := h.2.1; rw [h'.2.1] at this; cases this
    | placeholder => have := h.2.1; rw [h'.2] at this; cases this
    | node l' r' => rw [ihl h.2.2.1 h'.2.2.1, ihr h.2.2.2 h'.2.2.2]

/-- The finished arena of two or more leaves (42 R164). -/
structure Merged (n : Nat) (t0 t : TreeBuilder) : Prop where
  next : t.next.val + 1 = 2 * n
  root : t.root.val + 1 = t.next.val
  leaves : ∀ i : NodeIx, i.val < n → nodeAt t.node i = nodeAt t0.node i
  internal : ∀ i : NodeIx, n ≤ i.val → i.val < t.next.val →
    (nodeAt t.node i).kind = .internal ∧ (nodeAt t.node i).left.val < i.val ∧ (nodeAt t.node i).right.val < i.val ∧
      (nodeAt t.node i).left ≠ (nodeAt t.node i).right
  parent : ∀ i : NodeIx, i.val < t.next.val → i ≠ t.root → ∃ j, IsParent t j i ∧ ∀ k, IsParent t k i → k = j

theorem mergedTree_merged {freq : Freq} {t0 t t' : TreeBuilder} (h : LeavesOk freq t0 256 t)
    (hn : 2 ≤ (symbolsOf freq).length) (e : mergedTree t = .ok t') : Merged (symbolsOf freq).length t t' := by
  have hs := symsBelow_all freq
  have hlen := length_symbolsOf freq
  have hx : t.next.val = (symbolsOf freq).length := by rw [h.next, hs]
  have hz : t.pqSize.val = (symbolsOf freq).length := by rw [h.size, hs]
  obtain ⟨v, l, r, e', hb, hnx⟩ := mergedTree_built h hn
  cases e.symm.trans e'
  obtain ⟨t1, e1, hg, hq, s1, x1, r1⟩ := mergeLoop_induct (P := Grown (symbolsOf freq).length t)
    (fun _ _ _ _ _ hp hq hj => hp.join hq hj) t.pqSize.val t (by omega) (by omega) (by omega) h.queue h.grown
  rw [mergedTree, e1, ok_bind] at e
  obtain ⟨⟨m, t2⟩, e2, e3⟩ := bind_eq_ok.1 e
  cases e3
  obtain ⟨-, s2, m2, n2, x2, -, -⟩ := pqRemoveMin_spec e2
  have hm2 : t2.members = [] := List.length_eq_zero_iff.1 (by rw [length_members]; omega)
  rw [hm2] at m2
  have par : ∀ j i, IsParent ({ t2 with root := m } : TreeBuilder) j i ↔ IsParent t1 j i := by
    intro j i; simp only [IsParent, n2, x2]
  refine ⟨hnx, hb.root, fun i hi => ?_, fun i h1 h2 => ?_, fun i hi hne => ?_⟩
  · show nodeAt t2.node i = _
    rw [n2]; exact (hg.leaves i hi).1
  · simp only [x2] at h2
    simp only [n2]; exact hg.internal i h1 h2
  · simp only [x2] at hi
    have hnm : i ∉ t1.members := fun hm => hne (by simpa using m2.subset hm)
    obtain ⟨j, h1, h2⟩ := hg.others i hi hnm
    exact ⟨j, (par j i).2 h1, fun k hk => h2 k ((par k i).1 hk)⟩

/-- Two queues with the same leaves give trees that agree (42 R165). -/
theorem mergedTree_agree {freq : Freq} {t0 t u0 u t' u' : TreeBuilder} (h : LeavesOk freq t0 256 t)
    (g : LeavesOk freq u0 256 u) (hn : 2 ≤ (symbolsOf freq).length) (e : mergedTree t = .ok t') (f : mergedTree u = .ok u') :
    t'.next = u'.next ∧ t'.root = u'.root ∧ AgreeBelow t'.next.val t'.node u'.node := by
  have hs := symsBelow_all freq
  have hlen := length_symbolsOf freq
  have hx : t.next.val = (symbolsOf freq).length := by rw [h.next, hs]
  have hz : t.pqSize.val = (symbolsOf freq).length := by rw [h.size, hs]
  have gx : u.next.val = (symbolsOf freq).length := by rw [g.next, hs]
  have gz : u.pqSize.val = (symbolsOf freq).length := by rw [g.size, hs]
  have hp : t.members.Perm u.members :=
    (List.perm_ext_iff_of_nodup h.queue.nodup g.queue.nodup).2 fun i => by rw [h.members, g.members]
  have ag : AgreeBelow t.next.val t.node u.node := by
    intro i hi
    rw [h.next] at hi
    rw [h.leaves i hi, g.leaves i hi]
  have last : ∀ {w w' w1 : TreeBuilder} {r : NodeIx}, mergeLoop w.pqSize.val w = .ok w1 → w1.members = [r] →
      mergedTree w = .ok w' → w'.node = w1.node ∧ w'.next = w1.next ∧ w'.root = r := by
    intro w w' w1 r e1 hm e
    rw [mergedTree, e1, ok_bind] at e
    obtain ⟨⟨m, w2⟩, e2, e3⟩ := bind_eq_ok.1 e
    cases e3
    obtain ⟨-, s2, m2, n2, x2, -, -⟩ := pqRemoveMin_spec e2
    rw [hm] at m2
    have hm2 : w2.members = [] := List.length_eq_zero_iff.1 (by
      have := m2.length_eq; simp only [List.length_cons, List.length_nil] at this; omega)
    rw [hm2] at m2
    exact ⟨n2, x2, by simpa using m2.symm⟩
  obtain ⟨t1, r, e1, m1, -, -, -, sc⟩ := mergeLoop_scan (.refl _) h.queue (by omega) (by omega)
  obtain ⟨u1, q, f1, k1, -, -, -, sc'⟩ := mergeLoop_scan hp g.queue (by omega) (by omega)
  obtain ⟨m', sc2, ag'⟩ := scanMerge_agree ag (fun i hi => h.queue.written i hi) h.queue.nodup sc
  rw [gz, gx] at sc'
  rw [hz, hx] at sc2
  rw [sc2] at sc'
  obtain ⟨a1, a2, a3⟩ := last e1 m1 e
  obtain ⟨b1, b2, b3⟩ := last f1 k1 f
  have hEq := Option.some.inj sc'
  have e_m : m' = u1.node := congrArg (·.1) hEq
  have e_x : t1.next.val = u1.next.val := congrArg (·.2.1) hEq
  have e_r : r = q := congrArg (·.2.2) hEq
  refine ⟨?_, ?_, ?_⟩
  · rw [a2, b2]; exact Fin.ext e_x
  · rw [a3, b3, e_r]
  · rw [a1, b1, a2, ← e_m]; exact ag'

theorem degenerateTree_agree {freq : Freq} {t0 t u0 u t' u' : TreeBuilder} (h : LeavesOk freq t0 256 t)
    (g : LeavesOk freq u0 256 u) (hn : (symbolsOf freq).length = 1) (e : degenerateTree t = .ok t')
    (f : degenerateTree u = .ok u') :
    t'.next = u'.next ∧ t'.root = u'.root ∧ AgreeBelow t'.next.val t'.node u'.node := by
  have hs := symsBelow_all freq
  have h0 : nodeAt t.node 0 = nodeAt u.node 0 := by
    rw [h.leaves 0 (by rw [hs, hn]; decide), g.leaves 0 (by rw [hs, hn]; decide)]
  obtain ⟨⟨r, t1⟩, e1, e2⟩ := bind_eq_ok.1 e
  obtain ⟨⟨q, u1⟩, f1, f2⟩ := bind_eq_ok.1 f
  cases e2
  cases f2
  obtain ⟨-, -, -, n1, -, -, -⟩ := pqRemoveMin_spec e1
  obtain ⟨-, -, -, n2, -, -, -⟩ := pqRemoveMin_spec f1
  refine ⟨rfl, rfl, ?_⟩
  intro i hi
  have hi : i.val < 3 := hi
  simp only [topOverLeaf, nodeAt_nodeSet, n1, n2, h0]
  split
  · rfl
  · split
    · rfl
    · rename_i c1 c2
      have : i = 0 := by
        have h2 : i.val ≠ 2 := fun e => c1 (Fin.ext e)
        have h3 : i.val ≠ 1 := fun e => c2 (Fin.ext e)
        apply Fin.ext
        show i.val = 0
        omega
      rw [this, h0]

/-- What TB_MERGE builds of the leaves of `freq` in the queue. -/
theorem tbMerge_built {freq : Freq} {t0 t : TreeBuilder} (h : LeavesOk freq t0 256 t) (hne : symbolsOf freq ≠ []) :
    ∃ v l r, (if BitVec.ofNat 9 t.next.val = 1 then degenerateTree t else mergedTree t) = .ok v ∧ Built freq v l r ∧
      ((symbolsOf freq).length = 1 → ∃ x, symbolsOf freq = [x] ∧ l = .leaf x ∧ r = .placeholder ∧ v.next = 3 ∧
        nodeAt v.node 0 = leafNode freq x ∧ (nodeAt v.node 1).kind = .placeholder) ∧
      (2 ≤ (symbolsOf freq).length → Merged (symbolsOf freq).length t v) := by
  have hs := symsBelow_all freq
  have hlen := length_symbolsOf freq
  have hx : t.next.val = (symbolsOf freq).length := by rw [h.next, hs]
  have hc : BitVec.ofNat 9 t.next.val = 1 ↔ (symbolsOf freq).length = 1 := by
    rw [← BitVec.toNat_inj, BitVec.toNat_ofNat, hx, Nat.mod_eq_of_lt (by omega)]; rfl
  have hpos := List.length_pos_iff.2 hne
  by_cases h1 : (symbolsOf freq).length = 1
  · obtain ⟨v, x, hxx, e, hb, hn3, a0, a1⟩ := degenerateTree_built h h1
    refine ⟨v, _, _, by rw [if_pos (hc.2 h1)]; exact e, hb, fun _ => ⟨x, hxx, rfl, rfl, Fin.ext hn3, a0, a1⟩, fun h2 => by omega⟩
  · obtain ⟨v, l, r, e, hb, -⟩ := mergedTree_built h (by omega)
    refine ⟨v, l, r, by rw [if_neg (fun c => h1 (hc.1 c))]; exact e, hb, fun c => absurd c h1, fun h2 =>
      mergedTree_merged h h2 e⟩

/-- TB_LEAVES and then TB_MERGE, on every non-empty table of counts. -/
theorem build_next (s : State) (hne : symbolsOf s.freq ≠ []) : ∃ u v l r, LeavesOk s.freq s.tree 256 u ∧
    execTbLeaves s = .next { s with tree := u, symCount := BitVec.ofNat 9 u.next.val, phase := 4 } ∧
    (∀ ph, execTbMerge { s with tree := u, symCount := BitVec.ofNat 9 u.next.val, phase := ph } = .next
      { s with tree := v, symCount := BitVec.ofNat 9 u.next.val, phase := if s.op = .encode then 5 else 11 }) ∧
    Built s.freq v l r ∧
    ((symbolsOf s.freq).length = 1 → ∃ x, symbolsOf s.freq = [x] ∧ l = .leaf x ∧ r = .placeholder ∧ v.next = 3 ∧
        nodeAt v.node 0 = leafNode s.freq x ∧ (nodeAt v.node 1).kind = .placeholder) ∧
    (2 ≤ (symbolsOf s.freq).length → Merged (symbolsOf s.freq).length u v) := by
  obtain ⟨u, hu, e⟩ := execTbLeaves_eq s
  obtain ⟨v, l, r, ev, hb, h1, h2⟩ := tbMerge_built hu hne
  exact ⟨u, v, l, r, hu, e, fun ph => execTbMerge_of_ok ev, hb, h1, h2⟩

/-- Two builds from the same counts agree (42 R165). -/
theorem tbMerge_agree {freq : Freq} {t0 t u0 u t' u' : TreeBuilder} (h : LeavesOk freq t0 256 t)
    (g : LeavesOk freq u0 256 u) (hne : symbolsOf freq ≠ [])
    (e : (if BitVec.ofNat 9 t.next.val = 1 then degenerateTree t else mergedTree t) = .ok t')
    (f : (if BitVec.ofNat 9 u.next.val = 1 then degenerateTree u else mergedTree u) = .ok u') :
    t'.next = u'.next ∧ t'.root = u'.root ∧ AgreeBelow t'.next.val t'.node u'.node := by
  have hs := symsBelow_all freq
  have hlen := length_symbolsOf freq
  have hx : t.next.val = (symbolsOf freq).length := by rw [h.next, hs]
  have gx : u.next.val = (symbolsOf freq).length := by rw [g.next, hs]
  have hpos := List.length_pos_iff.2 hne
  have hc : BitVec.ofNat 9 (symbolsOf freq).length = 1 ↔ (symbolsOf freq).length = 1 := by
    rw [← BitVec.toNat_inj, BitVec.toNat_ofNat, Nat.mod_eq_of_lt (by omega)]; rfl
  rw [hx] at e
  rw [gx] at f
  by_cases h1 : (symbolsOf freq).length = 1
  · rw [if_pos (hc.2 h1)] at e f
    exact degenerateTree_agree h g h1 e f
  · rw [if_neg (fun c => h1 (hc.1 c))] at e f
    exact mergedTree_agree h g (by omega) e f

/-- A tree without a placeholder. -/
def Shape.Full : Shape → Prop
  | .leaf _ => True
  | .placeholder => False
  | .node l r => l.Full ∧ r.Full

theorem Reads.full {node : Arena} {b : Nat} (hk : ∀ i : NodeIx, i.val < b → (nodeAt node i).kind ≠ .placeholder) {T : Shape} :
    ∀ {i : NodeIx}, Reads node b i T → T.Full := by
  induction T with
  | leaf x => intro i _; trivial
  | placeholder => intro i h; exact absurd h.2 (hk i h.1)
  | node l r ihl ihr => intro i h; exact ⟨ihl h.2.2.1, ihr h.2.2.2⟩

/-- Two or more symbols: no placeholder in the tree (42 R164). -/
theorem Merged.full {freq : Freq} {t0 u v : TreeBuilder} {l r : Shape}
    (hm : Merged (symbolsOf freq).length u v) (hu : LeavesOk freq t0 256 u) (hb : Built freq v l r) :
    (Shape.node l r).Full := by
  refine hb.reads.full fun i hi => ?_
  have hs := symsBelow_all freq
  by_cases h : i.val < (symbolsOf freq).length
  · rw [hm.leaves i h, hu.leaves i (by rw [hs]; exact h)]
    simp [leafNode]
  · rw [(hm.internal i (by omega) hi).1]; simp

/-- One tree value for every table of counts, whatever the state builds it in. -/
theorem build_unique (freq : Freq) (hne : symbolsOf freq ≠ []) : ∃ l r next root, ∀ s : State, s.freq = freq → ∃ u v,
    execTbLeaves s = .next { s with tree := u, symCount := BitVec.ofNat 9 (symbolsOf freq).length, phase := 4 } ∧
    (execTbMerge { s with tree := u, symCount := BitVec.ofNat 9 (symbolsOf freq).length, phase := 4 } = .next
      { s with tree := v, symCount := BitVec.ofNat 9 (symbolsOf freq).length, phase := if s.op = .encode then 5 else 11 }) ∧
    Built freq v l r ∧ v.next = next ∧ v.root = root ∧
    ((symbolsOf freq).length = 1 → ∃ x, symbolsOf freq = [x] ∧ l = .leaf x ∧ r = .placeholder) ∧
    (2 ≤ (symbolsOf freq).length → (Shape.node l r).Full) := by
  obtain ⟨u0, h0⟩ := leafLoop_leaves freq TreeBuilder.zero
  obtain ⟨v0, l, r, e0, b0, -, -⟩ := tbMerge_built h0.2 hne
  refine ⟨l, r, v0.next, v0.root, fun s hs => ?_⟩
  subst hs
  obtain ⟨u, hu, e⟩ := execTbLeaves_eq s
  obtain ⟨v, l', r', ev, hb, h1, h2⟩ := tbMerge_built hu hne
  have hx : u.next.val = (symbolsOf s.freq).length := by rw [hu.next, symsBelow_all]
  obtain ⟨a1, a2, a3⟩ := tbMerge_agree h0.2 hu hne e0 ev
  have hr : Shape.node l' r' = Shape.node l r := by
    refine (hb.reads).unique (b' := v.next.val) ?_
    have := b0.reads.congr a3
    rw [a1, a2] at this
    exact this
  obtain ⟨rfl, rfl⟩ : l' = l ∧ r' = r := by injection hr with h1 h2; exact ⟨h1, h2⟩
  refine ⟨u, v, by rw [← hx]; exact e, by rw [← hx]; exact execTbMerge_of_ok ev, hb, a1.symm, a2.symm, fun c => ?_, fun c => (h2 c).full hu hb⟩
  obtain ⟨x, q1, q2, q3, -⟩ := h1 c
  exact ⟨x, q1, q2, q3⟩

end Sys2Proof.Machine
end

