-- ==== Sys2Proof/Laws/CodeWalk.lean ====
section
/-! SUPPORT. The code-table walk: with its explicit stack it gives every leaf the path to it (43 R176 to R179). -/
namespace Sys2Proof.Machine

/-- How many visits a tree takes: one per node. -/
def Shape.size : Shape → Nat
  | .leaf _ => 1
  | .placeholder => 1
  | .node l r => l.size + r.size + 1

theorem Shape.size_le (T : Shape) : T.size + 1 ≤ 2 ^ (T.depth + 1) := by
  induction T with
  | leaf x => simp [Shape.size, Shape.depth]
  | placeholder => simp [Shape.size, Shape.depth]
  | node l r ihl ihr =>
    have hl : 2 ^ (l.depth + 1) ≤ 2 ^ (max l.depth r.depth + 1) := Nat.pow_le_pow_right (by omega) (by omega)
    have hr : 2 ^ (r.depth + 1) ≤ 2 ^ (max l.depth r.depth + 1) := Nat.pow_le_pow_right (by omega) (by omega)
    simp only [Shape.size, Shape.depth]
    rw [Nat.pow_succ]
    omega

theorem CodeEntry.clean_empty : CodeEntry.empty.Clean := by
  intro k _; simp [CodeEntry.empty]

theorem CodeEntry.Clean.append {p q : CodeEntry} {x : Bool} (hp : p.Clean) (h : p.append x = .ok q) : q.Clean := by
  obtain ⟨hl, hq, -⟩ := append_eq_ok h
  unfold CodeEntry.append at h
  rw [if_pos hl] at h
  cases h
  intro k hk
  rw [hq] at hk
  rw [getLsbD_setBitTo, if_neg (by omega)]
  exact hp k (by omega)

theorem ctPush_ok {e : StackEntry} {c : CodeTable} (h : c.sp.val < 256) :
    ctPush e c = .ok { c with stack := c.stack.set c.sp.val e, sp := ⟨c.sp.val + 1, by omega⟩ } := by
  simp [ctPush, h]

/-- What visiting a whole tree does: the entry is gone, those below it are as they were, and every leaf has its path. -/
structure Walked (T : Shape) (path : CodeEntry) (m : Nat) (c c' : CodeTable) : Prop where
  sp : c'.sp.val = m
  below : ∀ k (_ : k < m) (hk : k < 256), c'.stack[k] = c.stack[k]
  codes : ∀ p x, T.HasPath p x →
    (codeAt c'.code x).toBits = path.toBits ++ p ∧ (path.Clean → (codeAt c'.code x).Clean)
  others : ∀ x, x ∉ T.leaves → codeAt c'.code x = codeAt c.code x

theorem ctLoop_shape {node : Arena} {bound : Nat} {T : Shape} :
    ∀ {i : NodeIx} {path : CodeEntry} {m : Nat} {c : CodeTable} (fuel : Nat),
      Reads node bound i T → T.leaves.Nodup → path.len.toNat + T.depth ≤ 255 → m + T.depth + 1 ≤ 256 →
      c.sp.val = m + 1 → (∀ hm : m < 256, c.stack[m] = { node := i, path := path }) →
      ∃ c', ctLoop node (fuel + T.size) c = ctLoop node fuel c' ∧ Walked T path m c c' := by
  induction T with
  | leaf x =>
    intro i path m c fuel hT _ _ hm hsp htop
    obtain ⟨-, hk, hx⟩ := hT
    have hpos : 0 < c.sp.val := by omega
    have hm' : m < 256 := by simp only [Shape.depth] at hm; omega
    have e : c.stack[c.sp.val - 1] = { node := i, path := path } := by
      simpa only [hsp, Nat.add_sub_cancel] using htop hm'
    have hv : ctVisit node c hpos =
        .ok { c with sp := ⟨c.sp.val - 1, by omega⟩, code := codeSet c.code x path } := by
      simp only [ctVisit, e, hk, hx]
    refine ⟨{ c with sp := ⟨c.sp.val - 1, by omega⟩, code := codeSet c.code x path },
      by rw [Shape.size, ctLoop, dif_pos hpos, hv, ok_bind], ⟨?_, ?_, ?_, ?_⟩⟩
    · show c.sp.val - 1 = m
      omega
    · intros; rfl
    · rintro p y ⟨rfl, rfl⟩
      simp [codeAt_codeSet]
    · intro y hy
      have : y ≠ x := by simpa [Shape.leaves] using hy
      simp [codeAt_codeSet, this]
  | placeholder =>
    intro i path m c fuel hT _ _ hm hsp htop
    obtain ⟨-, hk⟩ := hT
    have hpos : 0 < c.sp.val := by omega
    have hm' : m < 256 := by simp only [Shape.depth] at hm; omega
    have e : c.stack[c.sp.val - 1] = { node := i, path := path } := by
      simpa only [hsp, Nat.add_sub_cancel] using htop hm'
    have hv : ctVisit node c hpos = .ok { c with sp := ⟨c.sp.val - 1, by omega⟩ } := by
      simp only [ctVisit, e, hk]
    refine ⟨{ c with sp := ⟨c.sp.val - 1, by omega⟩ },
      by rw [Shape.size, ctLoop, dif_pos hpos, hv, ok_bind], ⟨?_, ?_, ?_, ?_⟩⟩
    · show c.sp.val - 1 = m
      omega
    · intros; rfl
    · intro p y h; exact h.elim
    · intros; rfl
  | node l r ihl ihr =>
    intro i path m c fuel hT hn hlen hm hsp htop
    obtain ⟨-, hk, hl, hr⟩ := hT
    have hpos : 0 < c.sp.val := by omega
    simp only [Shape.depth] at hlen hm
    have hm' : m < 256 := by omega
    have e : c.stack[c.sp.val - 1] = { node := i, path := path } := by
      simpa only [hsp, Nat.add_sub_cancel] using htop hm'
    obtain ⟨p1, a1, l1, b1⟩ := append_ok (p := path) true (by omega)
    obtain ⟨p0, a0, l0, b0⟩ := append_ok (p := path) false (by omega)
    -- the two pushes
    let c2 : CodeTable :=
      { c with stack := (c.stack.set m { node := (nodeAt node i).right, path := p1 }).set (m + 1)
                          { node := (nodeAt node i).left, path := p0 } (by omega)
               sp := ⟨m + 2, by omega⟩ }
    have hv : ctVisit node c hpos = .ok c2 := by
      simp only [ctVisit, e, hk, a1, ok_bind]
      rw [ctPush_ok (by show c.sp.val - 1 < 256; omega)]
      simp only [ok_bind, a0]
      rw [ctPush_ok (by show c.sp.val - 1 + 1 < 256; omega)]
      simp only [c2, hsp, Nat.add_sub_cancel]
    have hn' := hn
    simp only [Shape.leaves, List.nodup_append] at hn'
    obtain ⟨hnl, hnr, hdis⟩ := hn'
    -- the left subtree, then the right one
    obtain ⟨c3, e3, w3⟩ := ihl (path := p0) (m := m + 1) (c := c2) (fuel + r.size) hl hnl (by omega) (by omega) rfl
      (by intro h; simp [c2])
    obtain ⟨c4, e4, w4⟩ := ihr (path := p1) (m := m) (c := c3) fuel hr hnr (by omega) (by omega) w3.sp
      (by intro h; rw [w3.below m (by omega) h]; simp [c2])
    refine ⟨c4, ?_, ⟨w4.sp, ?_, ?_, ?_⟩⟩
    · have : fuel + (Shape.node l r).size = (fuel + r.size + l.size) + 1 := by simp only [Shape.size]; omega
      rw [this, ctLoop, dif_pos hpos, hv, ok_bind, e3, e4]
    · intro k hk hk'
      rw [w4.below k hk hk', w3.below k (by omega) hk']
      simp only [c2]
      rw [Vector.getElem_set_ne _ _ (by omega), Vector.getElem_set_ne _ _ (by omega)]
    · intro p x hp
      cases p with
      | nil => exact hp.elim
      | cons v p =>
        cases v
        · have hp : l.HasPath p x := hp
          have hx : x ∉ r.leaves := fun h => hdis x (Shape.mem_leaves_iff.2 ⟨p, hp⟩) x h rfl
          rw [w4.others x hx]
          obtain ⟨q1, q2⟩ := w3.codes p x hp
          exact ⟨by rw [q1, b0, List.append_assoc]; rfl, fun h => q2 (h.append a0)⟩
        · obtain ⟨q1, q2⟩ := w4.codes p x hp
          exact ⟨by rw [q1, b1, List.append_assoc]; rfl, fun h => q2 (h.append a1)⟩
    · intro x hx
      simp only [Shape.leaves, List.mem_append, not_or] at hx
      rw [w4.others x hx.2, w3.others x hx.1]

/-- CT_WALK on a tree: it answers, every leaf's code is its path, every other code is absent (43 R177). -/
theorem ctWalk_shape {node : Arena} {bound : Nat} {root : NodeIx} {T : Shape} (c : CodeTable)
    (hT : Reads node bound root T) (hn : T.leaves.Nodup) (hd : T.depth ≤ 255) :
    ∃ c', ctWalk node root c = .ok c' ∧ c'.sp.val = 0 ∧
      (∀ p x, T.HasPath p x → (codeAt c'.code x).toBits = p ∧ (codeAt c'.code x).Clean) ∧
      (∀ x, x ∉ T.leaves → codeAt c'.code x = CodeEntry.empty) := by
  let c1 : CodeTable :=
    { code := Vector.replicate 256 CodeEntry.empty
      stack := c.stack.set 0 { node := root, path := CodeEntry.empty }, sp := 1 }
  have hsize : T.size ≤ ctFuel := by
    have h1 := T.size_le
    have h2 : 2 ^ (T.depth + 1) ≤ 2 ^ 256 := pow_le_pow_right₀ (by decide) (by omega)
    unfold ctFuel
    exact (Nat.le_of_succ_le h1).trans h2
  obtain ⟨f, hf⟩ : ∃ f, ctFuel = f + T.size := ⟨ctFuel - T.size, (Nat.sub_add_cancel hsize).symm⟩
  obtain ⟨c', e, w⟩ := ctLoop_shape (path := CodeEntry.empty) (m := 0) (c := c1) f hT hn
    (by simp only [CodeEntry.empty]; simpa using hd) (by omega) rfl (by intro _; simp [c1])
  rw [← hf] at e
  have hend : ctLoop node f c' = .ok c' := by
    cases f with
    | zero => rfl
    | succ f => rw [ctLoop, dif_neg (by rw [w.sp]; omega)]
  rw [hend] at e
  refine ⟨c', ?_, w.sp, ?_, ?_⟩
  · unfold ctWalk
    rw [ctPush_ok (by show 0 < 256; omega), ok_bind]
    exact e
  · intro p x hp
    obtain ⟨h1, h2⟩ := w.codes p x hp
    exact ⟨by simpa using h1, h2 CodeEntry.clean_empty⟩
  · intro x hx
    rw [w.others x hx]
    simp [c1]

/-- CT_WALK on a tree with the tree invariants (43 R176 to R178). -/
theorem execCtWalk_treeOk {s : State} (h : TreeOk s.tree.node s.tree.root) :
    ∃ c : CodeTable, ctWalk s.tree.node s.tree.root s.ct = .ok c ∧ c.sp = 0 ∧
      (∀ p x, LeafPath s.tree.node s.tree.root p x → (codeAt c.code x).toBits = p ∧ (codeAt c.code x).Clean) ∧
      ∀ x, (¬ ∃ p, LeafPath s.tree.node s.tree.root p x) → codeAt c.code x = CodeEntry.empty := by
  obtain ⟨l, r, hr, hd, hn⟩ := h.shape
  obtain ⟨c, e, hsp, hp, hx⟩ := ctWalk_shape s.ct hr hn hd
  refine ⟨c, e, Fin.ext hsp, fun p x hl => hp p x ((leafPath_iff hr).1 hl), fun x hx' => hx x fun hm => hx' ?_⟩
  obtain ⟨p, hpx⟩ := Shape.mem_leaves_iff.1 hm
  exact ⟨p, (leafPath_iff hr).2 hpx⟩

/-- Two clean entries with the same bits are the same (10_state R54). -/
theorem CodeEntry.ext_bits {c d : CodeEntry} (h : c.toBits = d.toBits) (hc : c.Clean) (hd : d.Clean) : c = d := by
  have hl : c.len.toNat = d.len.toNat := by rw [← length_toBits, ← length_toBits, h]
  have hb : c.bits = d.bits := by
    apply BitVec.eq_of_getLsbD_eq
    intro k hk
    by_cases hkl : k < c.len.toNat
    · have := congrArg (fun l => l[k]?) h
      simpa [CodeEntry.toBits, hkl, hl ▸ hkl] using this
    · rw [hc k (by omega), hd k (by omega)]
  cases c; cases d
  simp only at hl hb
  rw [BitVec.eq_of_toNat_eq hl, hb]

end Sys2Proof.Machine
end

