-- ==== Sys2Proof/Laws/Steps.lean ====
section
/-! SUPPORT. One inversion lemma for the step: everything a step that answers a next state can be. -/
namespace Sys2Proof.Machine

/-- The core's turn on a state that differs from `s` at most in its script: `s` itself, or `s` after a `yield`. -/
def TurnOf (s s0 : State) : Prop := s0 = s ∨ ∃ rest, s.script = .yield :: rest ∧ s0 = { s with script := rest }

/-- What a step of the machine can be. -/
inductive Stepped (s t : State) : Prop
  /-- A phase of the running command. -/
  | phase (i : Instr) (s0 : State) (turn : TurnOf s s0) (busy : s.state = .busy) (dec : decodePhase s.phase = .ok i)
      (run : exec i s0 = .next t)
  /-- No command runs and the host leaves the turn to the core. -/
  | quiet (s0 : State) (turn : TurnOf s s0) (notBusy : s.state ≠ .busy) (eq : t = s0)
  /-- A `CTRL` write of a legal word. -/
  | command (r v : Word) (rest : List HostOp) (i : Instr) (head : s.script = .regWrite r v :: rest) (ctrl : r.toNat = 0)
      (dec : decodeCtrl v = .ok i) (run : exec i { s with script := rest } = .next t)
  /-- A `CTRL` write with reserved bits set. -/
  | illegal (r v : Word) (rest : List HostOp) (e : DecodeError) (head : s.script = .regWrite r v :: rest)
      (ctrl : r.toNat = 0) (dec : decodeCtrl v = .error e) (eq : t = reject { s with script := rest })
  /-- A write to another register. -/
  | regWrite (r v : Word) (rest : List HostOp) (head : s.script = .regWrite r v :: rest) (other : r.toNat ≠ 0)
      (free : r.toNat = 4 → s.state ≠ .busy) (eq : t = regWrite r v { s with script := rest })
  /-- A register read, also by `wait`. -/
  | regRead (r : Word) (rest : List HostOp)
      (head : s.script = .regRead r :: rest ∨ s.script = .wait :: rest ∧ r = 1 ∧ s.state ≠ .busy)
      (eq : t = regRead r { s with script := rest })
  /-- A write to `IN_BUF`. -/
  | inWrite (a : Word) (b : Byte) (rest : List HostOp) (head : s.script = .inWrite a b :: rest) (free : s.state ≠ .busy)
      (eq : t = inWrite a b { s with script := rest })
  /-- A pop of an unread byte. -/
  | outPop (rest : List HostOp) (head : s.script = .outPop :: rest) (h : s.outRd.toNat < s.out.length)
      (eq : t = outPop { s with script := rest } h)
  /-- The read that `drain` begins with. -/
  | drain (rest : List HostOp) (head : s.script = .drain :: rest)
      (eq : t = { Sys2Proof.Machine.regRead 5 { s with script := rest } with
        script := List.replicate (readValue 5 { s with script := rest }).toNat .outPop ++ rest })
  /-- The reset input. -/
  | reset (rest : List HostOp) (head : s.script = .reset :: rest) (eq : t = resetInput { s with script := rest })

theorem TurnOf.fields {s s0 : State} (h : TurnOf s s0) : ∃ l, s0 = { s with script := l } := by
  rcases h with rfl | ⟨rest, -, rfl⟩
  · exact ⟨_, rfl⟩
  · exact ⟨_, rfl⟩

theorem coreTurn_stepped {s s0 t : State} (ht : TurnOf s s0)
    (h : (match coreTurn s0 with
      | .run i s1 => exec i s1
      | .answer o => o) = .next t) : Stepped s t := by
  have hst : s0.state = s.state ∧ s0.phase = s.phase := by
    rcases ht with rfl | ⟨rest, -, rfl⟩ <;> exact ⟨rfl, rfl⟩
  unfold coreTurn at h
  rw [hst.1, hst.2] at h
  by_cases hb : s.state = .busy
  · rw [if_pos hb] at h
    cases e : decodePhase s.phase with
    | ok i => rw [e] at h; exact .phase i s0 ht hb e h
    | error err => rw [e] at h; cases h
  · rw [if_neg hb] at h
    exact .quiet s0 ht hb (Host.Outcome.next.inj h).symm

/-- Everything a step can be. -/
theorem step_stepped {s t : State} (h : step s = .next t) : Stepped s t := by
  unfold step nextAction at h
  cases hs : s.script with
  | nil =>
    rw [hs] at h
    exact coreTurn_stepped (.inl rfl) h
  | cons op rest =>
    rw [hs] at h
    simp only at h
    by_cases hen : opEnabled s op = true
    · rw [if_pos hen] at h
      cases op with
      | regWrite r v =>
        simp only [hostTurn] at h
        by_cases hr : r.toNat = 0
        · rw [if_pos hr] at h
          unfold ctrlWrite at h
          cases e : decodeCtrl v with
          | ok i => rw [e] at h; exact .command r v rest i hs hr e h
          | error err => rw [e] at h; exact .illegal r v rest err hs hr e (Host.Outcome.next.inj h).symm
        · rw [if_neg hr] at h
          refine .regWrite r v rest hs hr ?_ (Host.Outcome.next.inj h).symm
          intro h4
          simpa [opEnabled, h4] using hen
      | regRead r => exact .regRead r rest (.inl hs) (Host.Outcome.next.inj h).symm
      | inWrite a b =>
        exact .inWrite a b rest hs (by simpa [opEnabled] using hen) (Host.Outcome.next.inj h).symm
      | outPop =>
        have hl : s.outRd.toNat < s.out.length := by simpa [opEnabled] using hen
        simp only [hostTurn] at h
        rw [dif_pos (by exact hl)] at h
        exact .outPop rest hs hl (Host.Outcome.next.inj h).symm
      | wait =>
        exact .regRead 1 rest (.inr ⟨hs, rfl, by simpa [opEnabled] using hen⟩) (Host.Outcome.next.inj h).symm
      | drain => exact .drain rest hs (Host.Outcome.next.inj h).symm
      | reset => exact .reset rest hs (Host.Outcome.next.inj h).symm
      | yield => exact coreTurn_stepped (.inr ⟨rest, hs, rfl⟩) h
    · rw [if_neg hen] at h
      by_cases hb : s.state = .busy
      · rw [if_pos hb] at h
        exact coreTurn_stepped (.inl rfl) h
      · rw [if_neg hb] at h
        cases h

/-! ### Commands -/

/-- ENCODE and DECODE (40_commands R124, R125, R130). -/
theorem execStart_eq (s : State) :
    (exec .encode s = .next (if startAccepted s then start .encode s else reject s)) ∧
      (exec .decode s = .next (if startAccepted s then start .decode s else reject s)) := ⟨rfl, rfl⟩

theorem startAccepted_iff {s : State} :
    startAccepted s = true ↔ s.fatal = false ∧ s.state = .idle ∧ s.inLen.toNat ≤ Config.inCap := by
  simp [startAccepted, and_assoc]

theorem clearAccepted_iff {s : State} : clearAccepted s = true ↔ s.fatal = false ∧ s.state ≠ .busy := by
  simp [clearAccepted]

/-- The command words (30_encoding R91). -/
theorem decodeCtrl_ok {v : Word} {i : Instr} (h : decodeCtrl v = .ok i) :
    (v = 0 ∧ i = .nop) ∨ (v = 1 ∧ i = .encode) ∨ (v = 2 ∧ i = .decode) ∨ (v = 3 ∧ i = .clear) := by
  unfold decodeCtrl at h
  split at h
  · rename_i h0
    have hlt : v.toNat < 4 := by
      have := congrArg BitVec.toNat h0
      simp at this
      have hv := v.isLt
      omega
    have e : (v.extractLsb' 0 2).toNat = v.toNat := by simp; omega
    rw [e] at h
    have hcases : v.toNat = 0 ∨ v.toNat = 1 ∨ v.toNat = 2 ∨ v.toNat = 3 := by omega
    rcases hcases with hc | hc | hc | hc <;> rw [hc] at h <;> simp only [Except.ok.injEq] at h <;> subst h
    · exact .inl ⟨BitVec.eq_of_toNat_eq hc, rfl⟩
    · exact .inr (.inl ⟨BitVec.eq_of_toNat_eq hc, rfl⟩)
    · exact .inr (.inr (.inl ⟨BitVec.eq_of_toNat_eq hc, rfl⟩))
    · exact .inr (.inr (.inr ⟨BitVec.eq_of_toNat_eq hc, rfl⟩))
  · cases h

theorem decodeCtrl_error {v : Word} {e : DecodeError} (h : decodeCtrl v = .error e) :
    v.extractLsb' 2 62 ≠ 0 ∧ e = .reservedBits := by
  unfold decodeCtrl at h
  split at h
  · split at h <;> cases h
  · rename_i h0; exact ⟨h0, (Except.error.inj h).symm⟩

/-- A start that is not accepted is rejected (40_commands R124). -/
theorem rejected_of_start {s : State} {v : Word} (hv : v = 1 ∨ v = 2) (h : startAccepted s ≠ true) : Rejected s v := by
  rw [Ne, startAccepted_iff] at h
  by_cases hf : s.fatal = true
  · exact .inr (.inl ⟨by rcases hv with rfl | rfl <;> decide, hf⟩)
  · by_cases hi : s.state = .idle
    · exact .inr (.inr (.inr ⟨hv, .inr (by simp at hf; exact not_le.1 fun hl => h ⟨hf, hi, hl⟩)⟩))
    · exact .inr (.inr (.inr ⟨hv, .inl hi⟩))

/-- A CLEAR that is not accepted is rejected (40_commands R124). -/
theorem rejected_of_clear {s : State} (h : clearAccepted s ≠ true) : Rejected s 3 := by
  rw [Ne, clearAccepted_iff] at h
  by_cases hf : s.fatal = true
  · exact .inr (.inl ⟨by decide, hf⟩)
  · exact .inr (.inr (.inl ⟨rfl, not_not.1 fun hb => h ⟨by simpa using hf, hb⟩⟩))

/-- A word that does not decode is rejected for its reserved bits (30_encoding R107). -/
theorem rejected_of_error {s : State} {v : Word} {e : DecodeError} (h : decodeCtrl v = .error e) : Rejected s v := by
  refine .inl fun hz => ?_
  unfold decodeCtrl at h
  rw [if_pos hz] at h
  split at h <;> cases h

/-- Everything a command of a legal word can do. -/
theorem command_cases {s t : State} {v : Word} {i : Instr} (hd : decodeCtrl v = .ok i) (h : exec i s = .next t) :
    (v = 0 ∧ t = s) ∨ (Rejected s v ∧ t = reject s) ∨
    ((v = 1 ∨ v = 2) ∧ startAccepted s = true ∧ ∃ op, t = start op s) ∨
    (v = 3 ∧ clearAccepted s = true ∧ t = acknowledge s) := by
  rcases decodeCtrl_ok hd with ⟨hv, rfl⟩ | ⟨hv, rfl⟩ | ⟨hv, rfl⟩ | ⟨hv, rfl⟩
  · exact .inl ⟨hv, (Host.Outcome.next.inj h).symm⟩
  · rw [(execStart_eq _).1] at h
    split at h
    · rename_i ha; exact .inr (.inr (.inl ⟨.inl hv, ha, _, (Host.Outcome.next.inj h).symm⟩))
    · rename_i ha; exact .inr (.inl ⟨rejected_of_start (.inl hv) ha, (Host.Outcome.next.inj h).symm⟩)
  · rw [(execStart_eq _).2] at h
    split at h
    · rename_i ha; exact .inr (.inr (.inl ⟨.inr hv, ha, _, (Host.Outcome.next.inj h).symm⟩))
    · rename_i ha; exact .inr (.inl ⟨rejected_of_start (.inr hv) ha, (Host.Outcome.next.inj h).symm⟩)
  · have h : execClear _ = _ := h
    unfold execClear at h
    split at h
    · rename_i ha; exact .inr (.inr (.inr ⟨hv, ha, (Host.Outcome.next.inj h).symm⟩))
    · rename_i ha; exact .inr (.inl ⟨hv ▸ rejected_of_clear ha, (Host.Outcome.next.inj h).symm⟩)

/-- The phase codes (30_encoding R93). -/
theorem decodePhase_ok {p : BitVec 4} {i : Instr} (h : decodePhase p = .ok i) :
    (p = 1 ∧ i = .fcClear) ∨ (p = 2 ∧ i = .fcCount) ∨ (p = 3 ∧ i = .tbLeaves) ∨ (p = 4 ∧ i = .tbMerge) ∨
      (p = 5 ∧ i = .ctWalk) ∨ (p = 6 ∧ i = .hdrEmit) ∨ (p = 7 ∧ i = .encBody) ∨ (p = 8 ∧ i = .bwFlush) ∨
      (p = 9 ∧ i = .hdrParse) ∨ (p = 10 ∧ i = .hdrCheck) ∨ (p = 11 ∧ i = .decWalk) := by
  unfold decodePhase at h
  split at h <;> cases h
  all_goals
    rename_i hk
    simp [← BitVec.toNat_inj, hk]

/-! ### Runs without a host action -/

theorem steps_next {s t : State} {k : Nat} (h : step s = .next t) : steps (k + 1) s = steps k t := by
  simp [steps, h]

/-- The core alone while BUSY. -/
theorem step_phase {s : State} {i : Instr} (hs : s.script = []) (hb : s.state = .busy) (hd : decodePhase s.phase = .ok i) :
    step s = exec i s := by
  simp [step, nextAction, hs, coreTurn, hb, hd]

/-- The `CTRL` write that starts an accepted command. -/
theorem Loaded.step_start {s : State} {cmd : Word} {bs : List Byte} (h : Loaded s cmd bs) {op : Op}
    (hc : cmd = 1 ∧ op = .encode ∨ cmd = 2 ∧ op = .decode) : step s = .next (start op { s with script := [] }) := by
  have ha : startAccepted { s with script := [] } = true := by
    rw [startAccepted_iff]
    obtain ⟨-, -, hf, -⟩ := h.inv.idle h.idle
    exact ⟨hf, h.idle, by have := h.length; have := h.fits; show s.inLen.toNat ≤ _; omega⟩
  have d1 : decodeCtrl 1#64 = .ok .encode := by decide
  have d2 : decodeCtrl 2#64 = .ok .decode := by decide
  rcases hc with ⟨rfl, rfl⟩ | ⟨rfl, rfl⟩
  · have e : step s = exec .encode { s with script := [] } := by
      simp [step, nextAction, h.script, opEnabled, hostTurn, ctrlWrite, d1]
    rw [e, (execStart_eq _).1, ha]; rfl
  · have e : step s = exec .decode { s with script := [] } := by
      simp [step, nextAction, h.script, opEnabled, hostTurn, ctrlWrite, d2]
    rw [e, (execStart_eq _).2, ha]; rfl

end Sys2Proof.Machine
end

