-- ==== Sys2Proof/Laws/Effects.lean ====
section
/-! SUPPORT. What all phases have in common: what none of them touches, that `OUT` only grows, and how a phase can end. -/
namespace Sys2Proof.Machine

/-- How a phase can end: it goes on, it finishes the command, or it raises. -/
inductive PhaseEnd (i : Instr) (s t : State) : Prop
  | goesOn (state : t.state = s.state) (fatal : t.fatal = s.fatal) (cond : t.cond = s.cond) (errPos : t.errPos = s.errPos)
  | finishes (state : t.state = .done) (phase : t.phase = s.phase) (fatal : t.fatal = s.fatal) (errPos : t.errPos = 0)
      (cond : t.cond = { code := .ok, sub := 0 } ∨ t.cond = { code := .emptyInput, sub := 0 })
  | raises (state : t.state = .error) (phase : t.phase = s.phase) (fatal : t.fatal = s.fatal)
      (errPos : t.errPos = t.inPtr) (kind : t.cond.code ≠ .invariantViolation)
  | violates (state : t.state = .error) (phase : t.phase = s.phase) (fatal : t.fatal = true)
      (errPos : t.errPos = t.inPtr) (instr : i = .encBody) (cond : t.cond = { code := .invariantViolation, sub := 1 })

/-- What every phase leaves alone, and that it only appends to `OUT` and counts what it appends. -/
structure PhaseEffect (i : Instr) (s t : State) : Prop where
  cmdRej : t.cmdRej = s.cmdRej
  inBuf : t.inBuf = s.inBuf
  inLen : t.inLen = s.inLen
  outRd : t.outRd = s.outRd
  script : t.script = s.script
  replies : t.replies = s.replies
  freeCtr : t.freeCtr = s.freeCtr
  op : t.op = s.op
  len : t.len = s.len
  out : ∃ bs, t.out = s.out ++ bs ∧ t.outLen = s.outLen + BitVec.ofNat 64 bs.length
  ends : PhaseEnd i s t

theorem WalkFrame.effect {i : Instr} {s u t : State} (h : WalkFrame s u)
    (ht : t = { u with cond := t.cond, errPos := t.errPos, fatal := t.fatal, state := t.state }) (he : PhaseEnd i s t) :
    PhaseEffect i s t := by
  have hs := h.state
  obtain ⟨bs, ho, hl⟩ := h.out
  refine ⟨?_, ?_, ?_, ?_, ?_, ?_, ?_, ?_, ?_, ⟨bs, ?_, ?_⟩, he⟩
  all_goals rw [ht]
  · rw [hs]
  · rw [hs]
  · rw [hs]
  · rw [hs]
  · rw [hs]
  · rw [hs]
  · rw [hs]
  · rw [hs]
  · rw [hs]
  · exact ho
  · exact hl

/-- The common part of every phase that answers a next state. -/
theorem phase_effect {p : BitVec 4} {i : Instr} {s t : State} (hp : decodePhase p = .ok i) (h : exec i s = .next t) :
    PhaseEffect i s t := by
  have nothing : ∃ bs : List Byte, s.out = s.out ++ bs ∧ s.outLen = s.outLen + BitVec.ofNat 64 bs.length :=
    ⟨[], by simp, by simp⟩
  rcases decodePhase_ok hp with h' | h' | h' | h' | h' | h' | h' | h' | h' | h' | h' <;> obtain ⟨-, rfl⟩ := h'
  · -- FC_CLEAR
    have h : execFcClear s = .next t := h
    rw [execFcClear_eq] at h
    cases h
    exact ⟨rfl, rfl, rfl, rfl, rfl, rfl, rfl, rfl, rfl, nothing, .goesOn rfl rfl rfl rfl⟩
  · obtain ⟨bs, -, -, rfl⟩ := execFcCount_next h
    exact ⟨rfl, rfl, rfl, rfl, rfl, rfl, rfl, rfl, rfl, nothing, .goesOn rfl rfl rfl rfl⟩
  · obtain ⟨u, -, e⟩ := execTbLeaves_eq s
    have h : execTbLeaves s = .next t := h
    rw [e] at h
    cases h
    exact ⟨rfl, rfl, rfl, rfl, rfl, rfl, rfl, rfl, rfl, nothing, .goesOn rfl rfl rfl rfl⟩
  · obtain ⟨u, -, rfl⟩ := execTbMerge_next h
    exact ⟨rfl, rfl, rfl, rfl, rfl, rfl, rfl, rfl, rfl, nothing, .goesOn rfl rfl rfl rfl⟩
  · obtain ⟨u, -, rfl⟩ := execCtWalk_next h
    exact ⟨rfl, rfl, rfl, rfl, rfl, rfl, rfl, rfl, rfl, nothing, .goesOn rfl rfl rfl rfl⟩
  · have h : execHdrEmit s = .next t := h
    rw [execHdrEmit_eq] at h
    have hlen : s.outLen + 2056 = s.outLen + BitVec.ofNat 64 (headerBytes s.origLen s.freq).length := by
      rw [length_headerBytes]; rfl
    by_cases hl : s.len = 0
    · rw [if_pos hl] at h
      cases h
      exact ⟨rfl, rfl, rfl, rfl, rfl, rfl, rfl, rfl, rfl, ⟨_, rfl, hlen⟩, .finishes rfl rfl rfl rfl (.inr rfl)⟩
    · rw [if_neg hl] at h
      cases h
      exact ⟨rfl, rfl, rfl, rfl, rfl, rfl, rfl, rfl, rfl, ⟨_, rfl, hlen⟩, .goesOn rfl rfl rfl rfl⟩
  · rcases execEncBody_next h with ⟨bs, -, -, -, e⟩ | ⟨bs, b, -, -, -, -, e⟩
    · obtain ⟨body, ho, hl⟩ := bwPutBits_out (bodyBits s.ct bs) s
      have hf := bwPutBits_frame (bodyBits s.ct bs) s
      refine ⟨?_, ?_, ?_, ?_, ?_, ?_, ?_, ?_, ?_, ⟨body, ?_, ?_⟩, .goesOn ?_ ?_ ?_ ?_⟩
      case refine_10 => rw [e]; exact ho
      case refine_11 => rw [e]; exact hl
      all_goals rw [e, hf]; rfl
    · obtain ⟨body, ho, hl⟩ := bwPutBits_out (bodyBits s.ct bs) s
      have hf := bwPutBits_frame (bodyBits s.ct bs) s
      refine ⟨?_, ?_, ?_, ?_, ?_, ?_, ?_, ?_, ?_, ⟨body, ?_, ?_⟩, .violates ?_ ?_ ?_ ?_ rfl ?_⟩
      case refine_10 => rw [e]; exact ho
      case refine_11 => rw [e]; exact hl
      case refine_14 => rw [e]; simp [raiseState]
      all_goals rw [e, hf]; rfl
  · have h : execBwFlush s = .next t := h
    rw [execBwFlush_eq] at h
    by_cases hn : s.nbits = 0
    · rw [if_pos hn] at h
      cases h
      exact ⟨rfl, rfl, rfl, rfl, rfl, rfl, rfl, rfl, rfl, nothing, .finishes rfl rfl rfl rfl (.inl rfl)⟩
    · rw [if_neg hn] at h
      cases h
      exact ⟨rfl, rfl, rfl, rfl, rfl, rfl, rfl, rfl, rfl, ⟨[s.acc], rfl, rfl⟩, .finishes rfl rfl rfl rfl (.inl rfl)⟩
  · rcases execHdrParse_next h with ⟨-, rfl⟩ | ⟨hdr, -, -, -, rfl⟩
    · exact ⟨rfl, rfl, rfl, rfl, rfl, rfl, rfl, rfl, rfl, nothing,
        .raises rfl rfl (by simp [raiseState]) rfl (by simp [raiseState])⟩
    · exact ⟨rfl, rfl, rfl, rfl, rfl, rfl, rfl, rfl, rfl, nothing, .goesOn rfl rfl rfl rfl⟩
  · have h : execHdrCheck s = .next t := h
    rw [execHdrCheck_eq] at h
    split at h
    · cases h
      exact ⟨rfl, rfl, rfl, rfl, rfl, rfl, rfl, rfl, rfl, nothing,
        .raises rfl rfl (by simp [raiseState]) rfl (by simp [raiseState])⟩
    · split at h
      · cases h
        exact ⟨rfl, rfl, rfl, rfl, rfl, rfl, rfl, rfl, rfl, nothing,
          .raises rfl rfl (by simp [raiseState]) rfl (by simp [raiseState])⟩
      · split at h
        · cases h
          exact ⟨rfl, rfl, rfl, rfl, rfl, rfl, rfl, rfl, rfl, nothing, .finishes rfl rfl rfl rfl (.inr rfl)⟩
        · cases h
          exact ⟨rfl, rfl, rfl, rfl, rfl, rfl, rfl, rfl, rfl, nothing, .goesOn rfl rfl rfl rfl⟩
  · rcases execDecWalk_next h with ⟨u, hf, -, rfl⟩ | ⟨u, hf, -, ⟨rfl, -⟩ | ⟨rfl, -⟩⟩
    · refine hf.effect rfl (.finishes rfl ?_ ?_ rfl (.inl rfl))
      · show u.phase = _; rw [hf.state]
      · show u.fatal = _; rw [hf.state]
    · refine hf.effect rfl (.raises rfl ?_ ?_ rfl (by simp [raiseState]))
      · show u.phase = _; rw [hf.state]
      · simp only [raiseState]; rw [hf.state]; simp
    · refine hf.effect rfl (.raises rfl ?_ ?_ rfl (by simp [raiseState]))
      · show u.phase = _; rw [hf.state]
      · simp only [raiseState]; rw [hf.state]; simp

end Sys2Proof.Machine
end

