-- ==== Sys2Proof/Laws/PerInstr.lean ====
section
/-! SUPPORT. Statements made per instruction: the selector that encodes an instruction is well formed and decodes to it
(30_encoding R91, R93). -/
namespace Sys2Proof.Laws

/-- Encoding an instruction gives a legal selector, and decoding it gives the instruction back. -/
def RoundTrip.Statement (i : Instr) : Prop := (encode i).wf = true ∧ decode (encode i) = .ok i

theorem RoundTrip.nop : RoundTrip.Statement .nop := by unfold RoundTrip.Statement; decide
theorem RoundTrip.encode : RoundTrip.Statement .encode := by unfold RoundTrip.Statement; decide
theorem RoundTrip.decode : RoundTrip.Statement .decode := by unfold RoundTrip.Statement; decide
theorem RoundTrip.clear : RoundTrip.Statement .clear := by unfold RoundTrip.Statement; decide
theorem RoundTrip.fcClear : RoundTrip.Statement .fcClear := by unfold RoundTrip.Statement; decide
theorem RoundTrip.fcCount : RoundTrip.Statement .fcCount := by unfold RoundTrip.Statement; decide
theorem RoundTrip.tbLeaves : RoundTrip.Statement .tbLeaves := by unfold RoundTrip.Statement; decide
theorem RoundTrip.tbMerge : RoundTrip.Statement .tbMerge := by unfold RoundTrip.Statement; decide
theorem RoundTrip.ctWalk : RoundTrip.Statement .ctWalk := by unfold RoundTrip.Statement; decide
theorem RoundTrip.hdrEmit : RoundTrip.Statement .hdrEmit := by unfold RoundTrip.Statement; decide
theorem RoundTrip.encBody : RoundTrip.Statement .encBody := by unfold RoundTrip.Statement; decide
theorem RoundTrip.bwFlush : RoundTrip.Statement .bwFlush := by unfold RoundTrip.Statement; decide
theorem RoundTrip.hdrParse : RoundTrip.Statement .hdrParse := by unfold RoundTrip.Statement; decide
theorem RoundTrip.hdrCheck : RoundTrip.Statement .hdrCheck := by unfold RoundTrip.Statement; decide
theorem RoundTrip.decWalk : RoundTrip.Statement .decWalk := by unfold RoundTrip.Statement; decide

end Sys2Proof.Laws
end

