-- ==== Sys2Proof/Laws/Reader.lean ====
section
/-! SUPPORT. The bit reader and the decoder's walk: what `BR_GET_BIT` delivers, and that DEC_WALK's loop is the walk over
the plain list of bits (44 R190, 46 R220 to R224). -/
namespace Sys2Proof.Machine

theorem byteBits_eq_msb_cons (b : Byte) (n : Nat) (hn : n < 8) :
    (byteBits b).take (n + 1) = b.msb :: (byteBits (b <<< 1)).take n := by
  have hm : b.msb = b.getLsbD 7 := by simp [BitVec.msb_eq_getLsbD_last]
  apply List.ext_getElem
  · simp; omega
  · intro k h1 h2
    have hk : k < n + 1 := by simp at h1; omega
    cases k with
    | zero => simp [byteBits, hm]
    | succ k =>
      simp only [List.getElem_take, List.getElem_cons_succ]
      rw [getElem_byteBits _ _ (by omega), getElem_byteBits _ _ (by omega), BitVec.getLsbD_shiftLeft]
      have e1 : 7 - k < 8 := by omega
      have e2 : ¬ (7 - k < 1) := by omega
      simp [e1, e2, show 7 - (k + 1) = 7 - k - 1 by omega]

/-- What is left to deliver: the bits held and those of the bytes not fetched. -/
def bitsToCome (s : State) (rest : List Byte) : List Bool := heldBits s ++ bytesBits rest

/-- The bytes of `IN_BUF` from `IN_PTR` on are `rest`, and none of them is past `LEN`: a part, from its start, of what the
reader has not fetched yet. -/
structure Ahead (s : State) (rest : List Byte) : Prop where
  present : s.inBuf.holds s.inPtr.toNat rest
  within : s.inPtr.toNat + rest.length ≤ s.len.toNat

theorem Unread.ahead {s : State} {rest : List Byte} (h : Unread s rest) : Ahead s rest := ⟨h.present, le_of_eq h.length⟩

theorem length_heldBits (s : State) : (heldBits s).length = s.rdNbits.val := by
  simp [heldBits]; omega

theorem length_bitsToCome {s : State} {rest : List Byte} (hu : Unread s rest) : (bitsToCome s rest).length = bitsLeft s := by
  have := hu.length
  rw [bitsToCome, List.length_append, length_heldBits, length_bytesBits, bitsLeft]
  omega

theorem Ahead.length_bitsToCome_le {s : State} {rest : List Byte} (hu : Ahead s rest) :
    (bitsToCome s rest).length ≤ bitsLeft s := by
  have := hu.within
  rw [bitsToCome, List.length_append, length_heldBits, length_bytesBits, bitsLeft]
  omega

/-- The delivery of one held bit. -/
theorem brShift_held {s : State} (h : 0 < s.rdNbits.val) :
    heldBits s = s.rdByte.msb :: heldBits (brShift s) := by
  have hn : s.rdNbits.val - 1 < 8 := by omega
  have : s.rdNbits.val = (s.rdNbits.val - 1) + 1 := by omega
  unfold heldBits
  rw [this, byteBits_eq_msb_cons _ _ hn]
  rfl

/-- `BR_GET_BIT` with a bit to come: it delivers the first one; nothing but the reader's own registers changes. -/
theorem brGetBit_ahead {s : State} {rest : List Byte} {v : Bool} {bits : List Bool} (hu : Ahead s rest)
    (hb : bitsToCome s rest = v :: bits) :
    ∃ s' rest', brGetBit s = .ok (v, s') ∧ Ahead s' rest' ∧
      s'.inPtr.toNat + rest'.length = s.inPtr.toNat + rest.length ∧ bitsToCome s' rest' = bits ∧
      s' = { s with rdByte := s'.rdByte, rdNbits := s'.rdNbits, inPtr := s'.inPtr, bitCount := s.bitCount + 1 } ∧
      s'.rdNbits.val < 8 := by
  by_cases h0 : s.rdNbits.val = 0
  · have hh : heldBits s = [] := List.length_eq_zero_iff.1 (by rw [length_heldBits, h0])
    rw [bitsToCome, hh, List.nil_append] at hb
    cases rest with
    | nil => simp at hb
    | cons b rest =>
      obtain ⟨hr, hp⟩ := Memory.holds_cons.1 hu.present
      have hl := hu.within
      rw [List.length_cons] at hl
      have hlt : ¬ s.len ≤ s.inPtr := by rw [BitVec.le_def]; omega
      have hlen := s.len.isLt
      have hsucc : (s.inPtr + 1).toNat = s.inPtr.toNat + 1 := by
        rw [BitVec.toNat_add]; simp; omega
      let s1 : State := { s with rdByte := b, inPtr := s.inPtr + 1, rdNbits := 8 }
      have hf : brFill s = .ok s1 := by
        unfold brFill
        rw [if_pos h0, if_neg hlt, readByte_of_read hr]
        rfl
      have hs1 : 0 < s1.rdNbits.val := by show 0 < 8; omega
      have hall : heldBits s1 = byteBits b := by
        show (byteBits b).take 8 = _
        exact List.take_of_length_le (by simp)
      have hsh := brShift_held hs1
      rw [hall] at hsh
      rw [bytesBits_cons, hsh, List.cons_append] at hb
      obtain ⟨hv, hbits⟩ := List.cons.inj hb
      refine ⟨brShift s1, rest, ?_, ⟨?_, ?_⟩, ?_, hbits, rfl, by show 8 - 1 < 8; omega⟩
      · unfold brGetBit; rw [hf, ← hv]; rfl
      · show s.inBuf.holds (s.inPtr + 1).toNat rest
        rw [hsucc]; exact hp
      · show (s.inPtr + 1).toNat + rest.length ≤ s.len.toNat
        omega
      · show (s.inPtr + 1).toNat + rest.length = s.inPtr.toNat + (b :: rest).length
        rw [hsucc, List.length_cons]; omega
  · have hf : brFill s = .ok s := by unfold brFill; rw [if_neg h0]
    have hsh := brShift_held (s := s) (by omega)
    rw [bitsToCome, hsh, List.cons_append] at hb
    obtain ⟨hv, hbits⟩ := List.cons.inj hb
    refine ⟨brShift s, rest, ?_, ⟨hu.present, hu.within⟩, rfl, hbits, rfl, ?_⟩
    · unfold brGetBit; rw [hf, ← hv]; rfl
    · show s.rdNbits.val - 1 < 8; omega

theorem brGetBit_cons {s : State} {rest : List Byte} {v : Bool} {bits : List Bool} (hu : Unread s rest)
    (hb : bitsToCome s rest = v :: bits) :
    ∃ s' rest', brGetBit s = .ok (v, s') ∧ Unread s' rest' ∧ bitsToCome s' rest' = bits ∧
      s' = { s with rdByte := s'.rdByte, rdNbits := s'.rdNbits, inPtr := s'.inPtr, bitCount := s.bitCount + 1 } ∧
      s'.rdNbits.val < 8 := by
  obtain ⟨s', rest', e, u, l, b, f, n⟩ := brGetBit_ahead hu.ahead hb
  have hlen : s'.len = s.len := by rw [f]
  exact ⟨s', rest', e, ⟨u.present, by rw [l, hu.length, hlen]⟩, b, f, n⟩

/-- `BR_GET_BIT` that needs a byte nobody wrote is a fault (70_reset R264). -/
theorem brGetBit_missing {s : State} (h0 : s.rdNbits.val = 0) (hlt : s.inPtr.toNat < s.len.toNat)
    (hm : s.inBuf.read s.inPtr.toNat = none) :
    brGetBit s = .error (.fault (if s.inPtr.toNat < Config.inCap then .inBufUnwritten else .inBufOutside)) := by
  have hle : ¬ s.len ≤ s.inPtr := by rw [BitVec.le_def]; omega
  unfold brGetBit brFill
  rw [if_pos h0, if_neg hle, readByte_none hm]
  rfl

/-- `BR_GET_BIT` with no bit to come raises TruncatedBitstream (44 R190). -/
theorem brGetBit_nil {s : State} {rest : List Byte} (hu : Unread s rest) (hb : bitsToCome s rest = []) :
    brGetBit s = .error (.raised (raiseState .truncatedBitstream 0 s)) := by
  have hl := congrArg List.length hb
  rw [bitsToCome, List.length_append, length_heldBits, length_bytesBits, List.length_nil] at hl
  have hlen := hu.length
  have hle : s.len ≤ s.inPtr := by rw [BitVec.le_def]; omega
  have hf : brFill s = .error (.raised (raiseState .truncatedBitstream 0 s)) := by
    unfold brFill
    rw [if_pos (by omega), if_pos hle]
    rfl
  unfold brGetBit
  rw [hf]
  rfl

/-- A sequence of calls delivers the bits to come, in order (44 R191, R192). -/
theorem brGetBits_take {s : State} {rest : List Byte} (hu : Unread s rest) (w tail : List Bool)
    (hb : bitsToCome s rest = w ++ tail) :
    ∃ s' rest', brGetBits w.length s = .ok (w, s') ∧ Unread s' rest' ∧ bitsToCome s' rest' = tail ∧
      s' = { s with rdByte := s'.rdByte, rdNbits := s'.rdNbits, inPtr := s'.inPtr
                    bitCount := s.bitCount + BitVec.ofNat 64 w.length } := by
  induction w generalizing s rest with
  | nil => exact ⟨s, rest, rfl, hu, hb, by simp⟩
  | cons v w ih =>
    obtain ⟨s1, r1, e1, u1, b1, f1, -⟩ := brGetBit_cons hu hb
    obtain ⟨s2, r2, e2, u2, b2, f2⟩ := ih u1 b1
    refine ⟨s2, r2, ?_, u2, b2, ?_⟩
    · rw [List.length_cons, brGetBits, e1, ok_bind]
      simp only [e2, ok_bind]
    · rw [f2, f1, List.length_cons, word_add_succ]

/-! ### The walk -/

/-- The state the walk has made of `s` when its result is `r`. -/
structure WalkedTo (s : State) (r : WalkResult) (s' : State) : Prop where
  state : s' = { s with out := s.out ++ r.bytes, outLen := s.outLen + BitVec.ofNat 64 r.bytes.length
                        bitCount := s.bitCount + BitVec.ofNat 64 r.used, cur := r.cur, wstate := r.at_
                        rdByte := s'.rdByte, rdNbits := s'.rdNbits, inPtr := s'.inPtr }

/-- How DEC_WALK's loop ends, by the reference walk's result. -/
def walkOutcome (r : WalkResult) (s' : State) : Run State :=
  match r.how with
  | .finished => .ok s'
  | .truncated => .error (.raised (raiseState .truncatedBitstream 0 s'))
  | .placeholder => .error (.raised (raiseState .malformedArtifact 4 s'))

theorem lt_of_need {s : State} {n : Nat} (hn : s.origLen.toNat - s.outLen.toNat = n + 1) :
    s.outLen < s.origLen ∧ (s.outLen + 1).toNat = s.outLen.toNat + 1 := by
  have := s.origLen.isLt
  refine ⟨by rw [BitVec.lt_def]; omega, ?_⟩
  rw [BitVec.toNat_add]; simp; omega

/-- DEC_WALK's loop is the reference walk over the bits ahead, when those are all that `LEN` covers or the walk ends
without needing more (46 R220 to R224). -/
theorem walkLoop_ahead (bits : List Bool) : ∀ {s : State} {rest : List Byte} {fuel need : Nat},
    Ahead s rest → bitsToCome s rest = bits → bits.length ≤ fuel → s.origLen.toNat - s.outLen.toNat = need →
    ((refWalk s.tree.node s.tree.root s.cur s.wstate need bits).how = .truncated →
      s.inPtr.toNat + rest.length = s.len.toNat) →
    ∃ s' rest', walkLoop fuel s = walkOutcome (refWalk s.tree.node s.tree.root s.cur s.wstate need bits) s' ∧
      WalkedTo s (refWalk s.tree.node s.tree.root s.cur s.wstate need bits) s' ∧ Ahead s' rest' ∧
      s'.inPtr.toNat + rest'.length = s.inPtr.toNat + rest.length ∧
      bitsToCome s' rest' = bits.drop (refWalk s.tree.node s.tree.root s.cur s.wstate need bits).used ∧
      (s'.rdNbits.val < 8 ∨ s'.rdNbits = s.rdNbits) := by
  induction bits with
  | nil =>
    intro s rest fuel need hu hb _ hn hstop
    cases need with
    | zero =>
      have hge : ¬ s.outLen < s.origLen := by rw [BitVec.lt_def]; omega
      refine ⟨s, rest, ?_, ⟨by simp [refWalk]⟩, hu, rfl, by simpa [refWalk] using hb, .inr rfl⟩
      cases fuel <;> simp [walkLoop, hge, refWalk, walkOutcome]
    | succ need =>
      have hlt := (lt_of_need hn).1
      refine ⟨s, rest, ?_, ⟨by simp [refWalk]⟩, hu, rfl, by simpa [refWalk] using hb, .inr rfl⟩
      cases fuel with
      | zero => simp [walkLoop, hlt, refWalk, walkOutcome, raise_eq]
      | succ fuel => simp [walkLoop, hlt, refWalk, walkOutcome, walkRound, brGetBit_nil ⟨hu.present, hstop (by simp [refWalk])⟩ hb]
  | cons v bits ih =>
    intro s rest fuel need hu hb hf hn hstop
    cases need with
    | zero =>
      have hge : ¬ s.outLen < s.origLen := by rw [BitVec.lt_def]; omega
      refine ⟨s, rest, ?_, ⟨by simp [refWalk]⟩, hu, rfl, by simpa [refWalk] using hb, .inr rfl⟩
      cases fuel <;> simp [walkLoop, hge, refWalk, walkOutcome]
    | succ need =>
      obtain ⟨hlt, hsucc⟩ := lt_of_need hn
      obtain ⟨fuel, rfl⟩ : ∃ f, fuel = f + 1 := ⟨fuel - 1, by simp at hf; omega⟩
      have hf' : bits.length ≤ fuel := by simpa using hf
      obtain ⟨s1, r1, e1, u1, l1, b1, f1, h8⟩ := brGetBit_ahead hu hb
      set c := if v then (nodeAt s.tree.node s.cur).right else (nodeAt s.tree.node s.cur).left with hc
      have hround : walkRound s = walkArrive { s1 with cur := c } := by
        unfold walkRound
        rw [e1, ok_bind]
        simp only
        rw [f1]
      have hloop : walkLoop (fuel + 1) s = (walkRound s >>= fun s1 => walkLoop fuel s1) := by
        rw [walkLoop, if_pos hlt]
      have htree : s1.tree = s.tree := by rw [f1]
      have hlen : s1.len = s.len := by rw [f1]
      have ho : s1.outLen = s.outLen := by rw [f1]
      have hol : s1.origLen = s.origLen := by rw [f1]
      rw [hloop, hround]
      cases hk : (nodeAt s.tree.node c).kind with
      | leaf =>
        let s2 : State := { emit (nodeAt s.tree.node c).sym { s1 with cur := c } with
          cur := s.tree.root, wstate := .atRoot }
        have ha : walkArrive { s1 with cur := c } = .ok s2 := by
          simp only [walkArrive, htree, hk, s2]
        have t2 : s2.tree = s.tree := htree
        have hr : refWalk s.tree.node s.tree.root s.cur s.wstate (need + 1) (v :: bits) =
            { refWalk s.tree.node s.tree.root s.tree.root .atRoot need bits with
              bytes := (nodeAt s.tree.node c).sym :: (refWalk s.tree.node s.tree.root s.tree.root .atRoot need bits).bytes
              used := (refWalk s.tree.node s.tree.root s.tree.root .atRoot need bits).used + 1 } := by
          rw [refWalk]; simp only [← hc, hk]
        obtain ⟨s', r', e', w', u', l', b', n'⟩ := ih (s := s2) (rest := r1) (fuel := fuel) (need := need)
          ⟨u1.present, u1.within⟩ b1 hf' (by
            show s1.origLen.toNat - (s1.outLen + 1).toNat = need
            rw [ho, hol, hsucc]; omega)
          (fun h => by
            show s1.inPtr.toNat + r1.length = s1.len.toNat
            rw [l1, hlen]
            apply hstop
            rw [hr]
            rw [t2] at h
            exact h)
        rw [t2] at e' w' b'
        refine ⟨s', r', ?_, ⟨?_⟩, u', l'.trans l1, ?_, ?_⟩
        · rw [ha, ok_bind, e', hr]; rfl
        · rw [w'.state, hr]
          simp only [s2, emit]
          rw [f1]
          simp [BitVec.add_assoc, BitVec.ofNat_add, BitVec.add_comm]
        · rw [b', hr]; rfl
        · rcases n' with n' | n'
          · exact .inl n'
          · left; rw [n']; exact h8
      | internal =>
        let s2 : State := { s1 with cur := c, wstate := .atInternalNode }
        have ha : walkArrive { s1 with cur := c } = .ok s2 := by
          simp only [walkArrive, htree, hk, s2]
        have t2 : s2.tree = s.tree := htree
        have hr : refWalk s.tree.node s.tree.root s.cur s.wstate (need + 1) (v :: bits) =
            { refWalk s.tree.node s.tree.root c .atInternalNode (need + 1) bits with
              used := (refWalk s.tree.node s.tree.root c .atInternalNode (need + 1) bits).used + 1 } := by
          rw [refWalk]; simp only [← hc, hk]
        obtain ⟨s', r', e', w', u', l', b', n'⟩ := ih (s := s2) (rest := r1) (fuel := fuel) (need := need + 1)
          ⟨u1.present, u1.within⟩ b1 hf' (by
            show s1.origLen.toNat - s1.outLen.toNat = need + 1
            rw [ho, hol]; omega)
          (fun h => by
            show s1.inPtr.toNat + r1.length = s1.len.toNat
            rw [l1, hlen]
            apply hstop
            rw [hr]
            rw [t2] at h
            exact h)
        rw [t2] at e' w' b'
        refine ⟨s', r', ?_, ⟨?_⟩, u', l'.trans l1, ?_, ?_⟩
        · rw [ha, ok_bind, e', hr]; rfl
        · rw [w'.state, hr]
          simp only [s2]
          rw [f1]
          simp [BitVec.add_assoc, BitVec.ofNat_add, BitVec.add_comm]
        · rw [b', hr]; rfl
        · rcases n' with n' | n'
          · exact .inl n'
          · left; rw [n']; exact h8
      | placeholder =>
        have ha : walkArrive { s1 with cur := c } =
            .error (.raised (raiseState .malformedArtifact 4 { s1 with cur := c })) := by
          simp only [walkArrive, htree, hk, raise_eq]
        have hr : refWalk s.tree.node s.tree.root s.cur s.wstate (need + 1) (v :: bits) =
            { bytes := [], used := 1, cur := c, at_ := s.wstate, how := .placeholder } := by
          rw [refWalk]; simp only [← hc, hk]
        refine ⟨{ s1 with cur := c }, r1, ?_, ⟨?_⟩, ⟨u1.present, u1.within⟩, l1, ?_, .inl h8⟩
        · rw [ha, hr]; rfl
        · rw [hr]
          rw [f1]
          simp
        · rw [hr]; exact b1

/-- DEC_WALK's loop is the reference walk over the bits to come (46 R220 to R224). -/
theorem walkLoop_ref (bits : List Bool) {s : State} {rest : List Byte} {fuel need : Nat} (hu : Unread s rest)
    (hb : bitsToCome s rest = bits) (hf : bits.length ≤ fuel) (hn : s.origLen.toNat - s.outLen.toNat = need) :
    ∃ s' rest', walkLoop fuel s = walkOutcome (refWalk s.tree.node s.tree.root s.cur s.wstate need bits) s' ∧
      WalkedTo s (refWalk s.tree.node s.tree.root s.cur s.wstate need bits) s' ∧ Unread s' rest' ∧
      bitsToCome s' rest' = bits.drop (refWalk s.tree.node s.tree.root s.cur s.wstate need bits).used ∧
      (s'.rdNbits.val < 8 ∨ s'.rdNbits = s.rdNbits) := by
  obtain ⟨s', rest', e, w, u, l, b, n⟩ := walkLoop_ahead bits hu.ahead hb hf hn (fun _ => hu.length)
  have hlen : s'.len = s.len := by rw [w.state]
  exact ⟨s', rest', e, w, ⟨u.present, by rw [l, hu.length, hlen]⟩, b, n⟩

/-- A walk that needs a bit of a byte nobody wrote is a fault (70_reset R264). -/
theorem walkLoop_missing (bits : List Bool) : ∀ {s : State} {rest : List Byte} {fuel need : Nat},
    Ahead s rest → bitsToCome s rest = bits → bits.length < fuel → s.origLen.toNat - s.outLen.toNat = need →
    s.inPtr.toNat + rest.length < s.len.toNat → s.inBuf.read (s.inPtr.toNat + rest.length) = none →
    (refWalk s.tree.node s.tree.root s.cur s.wstate need bits).how = .truncated →
    walkLoop fuel s = .error (.fault
      (if s.inPtr.toNat + rest.length < Config.inCap then .inBufUnwritten else .inBufOutside)) := by
  induction bits with
  | nil =>
    intro s rest fuel need _ hb hf hn hlt hm hr
    cases need with
    | zero => simp [refWalk] at hr
    | succ need =>
      obtain ⟨fuel, rfl⟩ : ∃ f, fuel = f + 1 := ⟨fuel - 1, by omega⟩
      have hl := congrArg List.length hb
      rw [bitsToCome, List.length_append, length_heldBits, length_bytesBits, List.length_nil] at hl
      obtain rfl : rest = [] := List.length_eq_zero_iff.1 (by omega)
      rw [walkLoop, if_pos (lt_of_need hn).1, walkRound, brGetBit_missing (by omega) hlt hm]
      rfl
  | cons v bits ih =>
    intro s rest fuel need hu hb hf hn hlt hm hr
    cases need with
    | zero => simp [refWalk] at hr
    | succ need =>
      obtain ⟨hneed, hsucc⟩ := lt_of_need hn
      obtain ⟨fuel, rfl⟩ : ∃ f, fuel = f + 1 := ⟨fuel - 1, by omega⟩
      have hf' : bits.length < fuel := by simpa using hf
      obtain ⟨s1, r1, e1, u1, l1, b1, f1, -⟩ := brGetBit_ahead hu hb
      have htree : s1.tree = s.tree := by rw [f1]
      have ho : s1.outLen = s.outLen := by rw [f1]
      have hol : s1.origLen = s.origLen := by rw [f1]
      have hlen : s1.len = s.len := by rw [f1]
      have him : s1.inBuf = s.inBuf := by rw [f1]
      rw [← l1] at hlt hm ⊢
      rw [← hlen] at hlt
      rw [← him] at hm
      rw [walkLoop, if_pos hneed, walkRound, e1, ok_bind]
      rw [refWalk, ← show s1.cur = s.cur by rw [f1]] at hr
      rw [← htree] at hr
      rw [← hol, ← ho] at hn
      rw [← ho] at hsucc
      simp only at hr ⊢
      set c := if v then (nodeAt s1.tree.node s1.cur).right else (nodeAt s1.tree.node s1.cur).left
      unfold walkArrive
      cases hk : (nodeAt s1.tree.node c).kind with
      | leaf =>
        simp only [hk, ok_bind] at hr ⊢
        exact ih (s := { emit (nodeAt s1.tree.node c).sym { s1 with cur := c } with cur := s1.tree.root, wstate := .atRoot })
          (need := need) ⟨u1.present, u1.within⟩ b1 hf'
          (by show s1.origLen.toNat - (s1.outLen + 1).toNat = need; omega) hlt hm hr
      | internal =>
        simp only [hk, ok_bind] at hr ⊢
        exact ih (s := { s1 with cur := c, wstate := .atInternalNode }) (need := need + 1) ⟨u1.present, u1.within⟩ b1 hf'
          hn hlt hm hr
      | placeholder => simp [hk] at hr

end Sys2Proof.Machine
end

