-- ==== Sys2Proof/Laws/Walk.lean ====
section
/-! SUPPORT. The reference walk of the decoder over a tree read out of the arena: what it emits and uses, that the code bits
of symbols give the symbols back, and when it meets the placeholder (46 R220 to R226). -/
namespace Sys2Proof.Machine

theorem refWalk_used_le (node : Arena) (root : NodeIx) (bits : List Bool) : ∀ (c : NodeIx) (w : WalkState) (need : Nat),
    (refWalk node root c w need bits).used ≤ bits.length := by
  induction bits with
  | nil => intro c w need; cases need <;> simp [refWalk]
  | cons v bits ih =>
    intro c w need
    cases need with
    | zero => simp [refWalk]
    | succ need =>
      rw [refWalk]
      simp only
      split
      · simpa using ih _ _ _
      · simpa using ih _ _ _
      · simp

/-- It emits at most what is needed, and all of it exactly when it finishes. -/
theorem refWalk_bytes (node : Arena) (root : NodeIx) (bits : List Bool) : ∀ (c : NodeIx) (w : WalkState) (need : Nat),
    (refWalk node root c w need bits).bytes.length ≤ need ∧
      ((refWalk node root c w need bits).how = .finished ↔ (refWalk node root c w need bits).bytes.length = need) := by
  induction bits with
  | nil => intro c w need; cases need <;> simp [refWalk]
  | cons v bits ih =>
    intro c w need
    cases need with
    | zero => simp [refWalk]
    | succ need =>
      rw [refWalk]
      simp only
      split
      · simpa using ih root .atRoot need
      · exact ih _ _ _
      · simp

/-- The child of a node that stands for a tree. -/
theorem Reads.child {node : Arena} {b : Nat} {i : NodeIx} {l r : Shape} (h : Reads node b i (.node l r)) (v : Bool) :
    Reads node b (if v then (nodeAt node i).right else (nodeAt node i).left) (if v then r else l) := by
  cases v
  · exact h.2.2.1
  · exact h.2.2.2

theorem Reads.kind {node : Arena} {b : Nat} {i : NodeIx} {T : Shape} (h : Reads node b i T) :
    (nodeAt node i).kind = (match T with
      | .leaf _ => .leaf
      | .placeholder => .placeholder
      | .node _ _ => .internal) := by
  cases T with
  | leaf x => exact h.2.1
  | placeholder => exact h.2
  | node l r => exact h.2.1

/-- The bits of a path from the current node deliver the byte value at its end (43 R175, 46 R220). -/
theorem refWalk_path {node : Arena} {root : NodeIx} {b : Nat} {x : Byte} {need : Nat} {bits : List Bool} :
    ∀ {S : Shape} {c : NodeIx} {w : WalkState} {p : List Bool}, Reads node b c S → S.HasPath p x → p ≠ [] →
      refWalk node root c w (need + 1) (p ++ bits) =
        { refWalk node root root .atRoot need bits with
          bytes := x :: (refWalk node root root .atRoot need bits).bytes
          used := (refWalk node root root .atRoot need bits).used + p.length } := by
  intro S
  induction S with
  | leaf y => intro c w p _ hp hne; exact absurd hp.1 hne
  | placeholder => intro c w p _ hp; exact hp.elim
  | node l r ihl ihr =>
    intro c w p hr hp hne
    cases p with
    | nil => exact absurd rfl hne
    | cons v p =>
      have hc := hr.child v
      rw [List.cons_append, refWalk]
      simp only
      set c' := if v = true then (nodeAt node c).right else (nodeAt node c).left
      have hp' : (if v then r else l).HasPath p x := by cases v <;> exact hp
      have ih : ∀ {w}, p ≠ [] → refWalk node root c' w (need + 1) (p ++ bits) =
          { refWalk node root root .atRoot need bits with
            bytes := x :: (refWalk node root root .atRoot need bits).bytes
            used := (refWalk node root root .atRoot need bits).used + p.length } := fun {w} hq => by
        cases v
        · exact ihl (w := w) hc hp' hq
        · exact ihr (w := w) hc hp' hq
      have hk := hc.kind
      generalize (if v = true then r else l) = S at hc hp' hk
      cases S with
      | leaf y =>
        obtain ⟨rfl, rfl⟩ := hp'
        rw [hk]
        simp only [List.nil_append, List.length_cons, List.length_nil, Nat.zero_add, hc.2.2]
      | placeholder => exact hp'.elim
      | node l' r' =>
        have hne' : p ≠ [] := by rintro rfl; exact hp'
        rw [hk]
        simp only [ih hne', List.length_cons, Nat.add_assoc]

/-- The code bits of a sequence of byte values, and anything after them, deliver that sequence and use exactly those bits
(46 R226). -/
theorem refWalk_body {node : Arena} {root : NodeIx} {b : Nat} {l r : Shape} (hr : Reads node b root (.node l r))
    {code : Byte → List Bool} (tail : List Bool) : ∀ {bs : List Byte}, (∀ x ∈ bs, (Shape.node l r).HasPath (code x) x) →
      refWalk node root root .atRoot bs.length (bs.flatMap code ++ tail) =
        { bytes := bs, used := (bs.flatMap code).length, cur := root, at_ := .atRoot, how := .finished } := by
  intro bs
  induction bs with
  | nil => intro _; simp [refWalk]
  | cons x bs ih =>
    intro h
    obtain ⟨h1, h2⟩ := List.forall_mem_cons.1 h
    have hne : code x ≠ [] := by intro e; rw [e] at h1; exact h1
    rw [List.flatMap_cons, List.append_assoc, List.length_cons, refWalk_path hr h1 hne, ih h2]
    simp [Nat.add_comm]

/-- The walk depends on the tree only as a value. -/
theorem refWalk_congr {node node' : Arena} {root root' : NodeIx} {b b' : Nat} {l r : Shape}
    (h : Reads node b root (.node l r)) (h' : Reads node' b' root' (.node l r)) (bits : List Bool) :
    ∀ {c c' : NodeIx} {cl cr : Shape} {w w' : WalkState} {need : Nat}, Reads node b c (.node cl cr) → Reads node' b' c' (.node cl cr) →
      (refWalk node root c w need bits).bytes = (refWalk node' root' c' w' need bits).bytes ∧
      (refWalk node root c w need bits).used = (refWalk node' root' c' w' need bits).used ∧
      (refWalk node root c w need bits).how = (refWalk node' root' c' w' need bits).how := by
  induction bits with
  | nil => intro c c' cl cr w w' need _ _; cases need <;> simp [refWalk]
  | cons v bits ih =>
    intro c c' cl cr w w' need hc hc'
    cases need with
    | zero => simp [refWalk]
    | succ need =>
      rw [refWalk, refWalk]
      simp only
      have k := hc.child v
      have k' := hc'.child v
      set d := if v = true then (nodeAt node c).right else (nodeAt node c).left
      set d' := if v = true then (nodeAt node' c').right else (nodeAt node' c').left
      generalize (if v = true then cr else cl) = S at k k'
      have e := k.kind
      have e' := k'.kind
      cases S with
      | leaf y =>
        obtain ⟨i1, i2, i3⟩ := ih (w := .atRoot) (w' := .atRoot) (need := need) h h'
        simp only [e, e']
        exact ⟨by rw [k.2.2, k'.2.2, i1], by rw [i2], i3⟩
      | placeholder => simp only [e, e', and_self]
      | node l' r' =>
        obtain ⟨i1, i2, i3⟩ := ih (w := .atInternalNode) (w' := .atInternalNode) (need := need + 1) k k'
        simp only [e, e']
        exact ⟨i1, by rw [i2], i3⟩

/-! ### The placeholder -/

theorem refWalk_full {node : Arena} {root : NodeIx} {b : Nat} {l r : Shape} (h : Reads node b root (.node l r))
    (hf : (Shape.node l r).Full) (bits : List Bool) :
    ∀ {c : NodeIx} {cl cr : Shape} {w : WalkState} {need : Nat}, Reads node b c (.node cl cr) → (Shape.node cl cr).Full →
      (refWalk node root c w need bits).how ≠ .placeholder := by
  induction bits with
  | nil => intro c cl cr w need _ _; cases need <;> simp [refWalk]
  | cons v bits ih =>
    intro c cl cr w need hc hcf
    cases need with
    | zero => simp [refWalk]
    | succ need =>
      rw [refWalk]
      simp only
      have k := hc.child v
      have kf : (if v = true then cr else cl).Full := by cases v; exacts [hcf.1, hcf.2]
      set d := if v = true then (nodeAt node c).right else (nodeAt node c).left
      generalize (if v = true then cr else cl) = S at k kf
      have e := k.kind
      cases S with
      | leaf y => simp only [e]; exact ih h hf
      | placeholder => exact kf.elim
      | node l' r' => simp only [e]; exact ih k kf

/-- One symbol: the walk meets the placeholder exactly at a 1 among the bits it needs (46 R222). -/
theorem refWalk_degenerate {node : Arena} {root : NodeIx} {b : Nat} {x : Byte}
    (h : Reads node b root (.node (.leaf x) .placeholder)) (bits : List Bool) : ∀ {need : Nat},
      (refWalk node root root .atRoot need bits).how = .placeholder ↔ true ∈ bits.take need := by
  induction bits with
  | nil => intro need; cases need <;> simp [refWalk]
  | cons v bits ih =>
    intro need
    cases need with
    | zero => simp [refWalk]
    | succ need =>
      rw [refWalk]
      simp only
      have k := h.child v
      cases v with
      | false =>
        have e := k.kind
        simp only [Bool.false_eq_true, if_false] at e ⊢
        simp only [e]
        simpa using ih (need := need)
      | true =>
        have e := k.kind
        simp only [if_true] at e ⊢
        simp [e]

/-! ### The body of an encode -/

theorem length_bodyBits (c : CodeTable) (bs : List Byte) :
    (bodyBits c bs).length = (bs.map fun b => (codeAt c.code b).len.toNat).sum := by
  induction bs with
  | nil => rfl
  | cons b bs ih =>
    have : bodyBits c (b :: bs) = (codeAt c.code b).toBits ++ bodyBits c bs := rfl
    rw [this, List.length_append, length_toBits, ih, List.map_cons, List.sum_cons]

theorem length_bodyBits_le (c : CodeTable) (bs : List Byte) : (bodyBits c bs).length ≤ 255 * bs.length := by
  rw [length_bodyBits]
  induction bs with
  | nil => simp
  | cons b bs ih =>
    have := (codeAt c.code b).len.isLt
    rw [List.map_cons, List.sum_cons, List.length_cons]; omega

/-- The sum over an input is the sum over the byte values, weighted by how often each occurs (45 R205). -/
theorem sum_by_count (f : Byte → Nat) (bs : List Byte) :
    (bs.map f).sum = (allBytes.map fun x => bs.count x * f x).sum := by
  induction bs with
  | nil => exact (List.sum_eq_zero (by simp)).symm
  | cons b bs ih =>
    have step : ∀ l : List Byte, (l.map fun x => (b :: bs).count x * f x).sum =
        (l.map fun x => bs.count x * f x).sum + l.count b * f b := by
      intro l
      induction l with
      | nil => simp
      | cons x l ihl =>
        rw [List.map_cons, List.sum_cons, ihl, List.map_cons, List.sum_cons, List.count_cons, List.count_cons]
        by_cases h : b = x
        · subst h; simp [Nat.add_mul]; omega
        · have h' : ¬ x = b := fun e => h e.symm
          simp [h, h']; omega
    rw [step, List.map_cons, List.sum_cons, ih, List.count_eq_one_of_mem nodup_allBytes (mem_allBytes b)]
    omega

end Sys2Proof.Machine
end

