-- ==== Sys2Proof/Laws/Runs.lean ====
section
/-! SUPPORT. The runs of whole commands, phase by phase: what an ENCODE and a DECODE of a loaded input go through
(45 R200 to R205, 46 R215 to R220). -/
namespace Sys2Proof.Machine

/-! ### Counting an input -/

/-- Counting from a cleared table gives the frequency map (41 R145). -/
theorem countInto_zero {bs : List Byte} : countInto (Vector.replicate 256 0) bs = freqOf bs := by
  apply freq_ext
  intro b
  rw [freqAt_countInto, freqAt_replicate, freqOf, freqAt_ofFn]
  simp

theorem freqAt_freqOf {bs : List Byte} (h : bs.length < 2 ^ 64) (x : Byte) : freqAt (freqOf bs) x ≠ 0 ↔ x ∈ bs := by
  rw [← countInto_zero]
  have := toNat_countInto h x
  rw [← List.count_pos_iff, ← this]
  constructor
  · intro h'
    rcases Nat.eq_zero_or_pos (freqAt (countInto (Vector.replicate 256 0) bs) x).toNat with h0 | h0
    · exact absurd (BitVec.eq_of_toNat_eq h0) h'
    · exact h0
  · intro h' e; rw [e] at h'; simp at h'

theorem countSum_freqOf {bs : List Byte} (h : bs.length < 2 ^ 64) : countSum (freqOf bs) = bs.length := by
  rw [countSum, toList_eq_map_allBytes, List.map_map, ← sum_count_allBytes bs]
  refine congrArg List.sum ?_
  refine List.map_congr_left fun x _ => ?_
  rw [← countInto_zero]
  exact toNat_countInto h x

theorem freqOf_nil : freqOf [] = Vector.replicate 256 0 := by rw [← countInto_zero, countInto, List.foldl_nil]

theorem symbols_ne {bs : List Byte} (hne : bs ≠ []) (hlt : bs.length < 2 ^ 64) : symbolsOf (freqOf bs) ≠ [] := by
  obtain ⟨x, xs, rfl⟩ := List.exists_cons_of_ne_nil hne
  exact List.ne_nil_of_mem (mem_symbolsOf.2 ((freqAt_freqOf hlt x).2 List.mem_cons_self))

/-! ### Phases on a loaded input -/

theorem execFcCount_of_holds {s : State} {bs : List Byte} (hl : bs.length = s.len.toNat) (hh : s.inBuf.holds 0 bs) :
    execFcCount s = .next { s with inPtr := if s.len = 0 then s.inPtr else s.len, freq := countInto s.freq bs
                                   phase := if s.len = 0 then 6 else 3 } := by
  unfold execFcCount
  rw [← hl, countLoop_ok hh, Nat.zero_add, hl, BitVec.ofNat_toNat, BitVec.setWidth_eq]
  have : (bs = []) ↔ s.len = 0 := by
    rw [← List.length_eq_zero_iff, hl]
    exact ⟨fun h => BitVec.eq_of_toNat_eq h, fun h => by rw [h]; rfl⟩
  simp only [this]
  rfl

theorem execEncBody_of_holds {s : State} {bs : List Byte} (hl : bs.length = s.len.toNat) (hh : s.inBuf.holds 0 bs)
    (h0 : s.len ≠ 0) (hc : ∀ b ∈ bs, (codeAt s.ct.code b).len ≠ 0) :
    execEncBody s = .next { bwPutBits (bodyBits s.ct bs) s with inPtr := s.len, phase := 8 } := by
  unfold execEncBody
  rw [← hl, bodyLoop_ok hh hc, encoded, Nat.zero_add, hl, BitVec.ofNat_toNat, BitVec.setWidth_eq]
  have : ¬ bs = [] := by
    rintro rfl; exact h0 (BitVec.eq_of_toNat_eq hl.symm)
  rw [if_neg this]
  rfl

theorem AccClean.zero {s : State} (h : s.acc = 0) : AccClean s := by
  intro k _; rw [h]; simp

/-- DEC_WALK over the bytes of the body is the reference walk over their bits (46 R220). -/
theorem execDecWalk_ref {s : State} {body : List Byte} (h0 : s.rdNbits = 0) (hu : Unread s body) {r : WalkResult}
    (hr : r = refWalk s.tree.node s.tree.root s.tree.root .atRoot (s.origLen.toNat - s.outLen.toNat) (bytesBits body)) :
    ∃ (rb : Byte) (rn : Fin 9) (p : Word),
      let t : State :=
        { s with out := s.out ++ r.bytes, outLen := s.outLen + BitVec.ofNat 64 r.bytes.length
                 bitCount := s.bitCount + BitVec.ofNat 64 r.used, cur := r.cur, wstate := r.at_
                 rdByte := rb, rdNbits := rn, inPtr := p }
      execDecWalk s = .next
        (match r.how with
          | .finished => { t with cond := { code := .ok, sub := 0 }, errPos := 0, state := .done }
          | .truncated => { t with cond := { code := .truncatedBitstream, sub := 0 }, errPos := p, state := .error }
          | .placeholder => { t with cond := { code := .malformedArtifact, sub := 4 }, errPos := p, state := .error }) ∧
      p.toNat = s.inPtr.toNat + (r.used + 7) / 8 ∧ r.used + rn.val = 8 * ((r.used + 7) / 8) ∧
      (byteBits rb).take rn.val = ((bytesBits body).drop r.used).take rn.val := by
  have hb : bitsToCome { s with cur := s.tree.root, wstate := .atRoot } body = bytesBits body := by
    simp [bitsToCome, heldBits, h0]
  have hbl : (bytesBits body).length ≤ bitsLeft s := by
    rw [length_bytesBits, bitsLeft]
    have := hu.length; omega
  obtain ⟨s', rest', e, hw, hu', hb', hn⟩ := walkLoop_ref (bytesBits body)
    (s := { s with cur := s.tree.root, wstate := .atRoot }) (rest := body) (fuel := bitsLeft s)
    (need := s.origLen.toNat - s.outLen.toNat) ⟨hu.present, hu.length⟩ hb hbl rfl
  have e : walkLoop (bitsLeft s) { s with cur := s.tree.root, wstate := .atRoot } = walkOutcome r s' := by
    rw [hr]; exact e
  have hst : s' = { s with out := s.out ++ r.bytes, outLen := s.outLen + BitVec.ofNat 64 r.bytes.length
                           bitCount := s.bitCount + BitVec.ofNat 64 r.used, cur := r.cur, wstate := r.at_
                           rdByte := s'.rdByte, rdNbits := s'.rdNbits, inPtr := s'.inPtr } := by
    rw [hr]; exact hw.state
  have hb' : bitsToCome s' rest' = (bytesBits body).drop r.used := by
    rw [hr]; exact hb'
  have hr8 : s'.rdNbits.val < 8 := by
    rcases hn with hn | hn
    · exact hn
    · rw [hn]; show s.rdNbits.val < 8; rw [h0]; decide
  have used := refWalk_used_le s.tree.node s.tree.root (bytesBits body) s.tree.root .atRoot (s.origLen.toNat - s.outLen.toNat)
  refine ⟨s'.rdByte, s'.rdNbits, s'.inPtr, ?_, ?_⟩
  · unfold execDecWalk
    rw [e]
    show outcome ((walkOutcome r s').bind _) = _
    rw [hst]
    unfold walkOutcome
    cases r.how <;> simp [outcome, raiseState, finish, Except.bind]
  · have l1 : (bitsToCome s' rest').length = 8 * body.length - r.used := by
      rw [hb', List.length_drop, length_bytesBits]
    rw [bitsToCome, List.length_append, length_heldBits, length_bytesBits] at l1
    have l2 := hu'.length
    have l3 := hu.length
    have l4 : s'.len = s.len := by rw [hst]
    rw [l4] at l2
    rw [length_bytesBits, ← hr] at used
    have used : r.used ≤ 8 * body.length := used
    refine ⟨by omega, by omega, ?_⟩
    have := congrArg (List.take s'.rdNbits.val) hb'
    rw [bitsToCome, List.take_left' (length_heldBits s')] at this
    exact this

/-! ### ENCODE -/

/-- The tree value that TB_LEAVES and TB_MERGE build of a table of counts, in every state (`build_unique`) -/
def Canon (f : Freq) (l r : Shape) : Prop := ∃ next root, ∀ s : State, s.freq = f → ∃ u v,
      execTbLeaves s = .next { s with tree := u, symCount := BitVec.ofNat 9 (symbolsOf f).length, phase := 4 } ∧
      (execTbMerge { s with tree := u, symCount := BitVec.ofNat 9 (symbolsOf f).length, phase := 4 } = .next
        { s with tree := v, symCount := BitVec.ofNat 9 (symbolsOf f).length, phase := if s.op = .encode then 5 else 11 }) ∧
      Built f v l r ∧ v.next = next ∧ v.root = root ∧
      ((symbolsOf f).length = 1 → ∃ x, symbolsOf f = [x] ∧ l = .leaf x ∧ r = .placeholder) ∧
      (2 ≤ (symbolsOf f).length → (Shape.node l r).Full)

/-- The state a non-empty ENCODE ends in -/
def encEnd (s : State) (bs : List Byte) (v : TreeBuilder) (c : CodeTable) (body : List Byte) : State :=
  { s with
    script := [], state := .done, op := .encode, len := s.inLen, cond := { code := .ok, sub := 0 }, errPos := 0
    outLen := 0 + 2056 + BitVec.ofNat 64 body.length, bitCount := 0 + BitVec.ofNat 64 (bodyBits c bs).length
    symCount := BitVec.ofNat 9 (symbolsOf (freqOf bs)).length, origLen := s.inLen, phase := 8, freq := freqOf bs
    inPtr := s.inLen, acc := 0, nbits := 0, rdNbits := 0, tree := v, ct := c
    out := s.out ++ headerBytes s.inLen (freqOf bs) ++ body }

/-- Every phase of a non-empty ENCODE (45 R200, R205). -/
theorem encRun (bs : List Byte) (hne : bs ≠ []) (hlt : bs.length < 2 ^ 64) {l r : Shape} (C : Canon (freqOf bs) l r) : ∀ s, Loaded s 1 bs → ∃ v c body,
    Built (freqOf bs) v l r ∧
    (∀ p x, (Shape.node l r).HasPath p x → (codeAt c.code x).toBits = p ∧ (codeAt c.code x).Clean) ∧
    (∀ x, x ∉ (Shape.node l r).leaves → codeAt c.code x = CodeEntry.empty) ∧
    IsBody (bodyBits c bs) body ∧ steps 9 s = some (encEnd s bs v c body) := by
  have hsym : ∀ x ∈ bs, freqAt (freqOf bs) x ≠ 0 := fun x hx => (freqAt_freqOf hlt x).2 hx
  have hs := symbols_ne hne hlt
  obtain ⟨next, root, H⟩ := C
  intro s h
  have hlen := h.length
  have hl0 : s.inLen ≠ 0 := by
    intro e; rw [e] at hlen
    exact hne (List.length_eq_zero_iff.1 hlen.symm)
  -- start
  have e1 := Loaded.step_start h (.inl ⟨rfl, rfl⟩)
  set s1 := start .encode { s with script := [] } with hs1
  -- FC_CLEAR
  have e2 : step s1 = .next _ := (step_phase (s := s1) (i := .fcClear) rfl rfl rfl).trans (execFcClear_eq s1)
  set s2 : State := { s1 with freq := Vector.replicate 256 0, inPtr := 0, acc := 0, nbits := 0, rdNbits := 0, origLen := s.inLen, phase := 2 } with hs2
  have e2 : step s1 = .next s2 := e2
  -- FC_COUNT
  have hh : s2.inBuf.holds 0 bs := h.present
  have e3 := execFcCount_of_holds hlen.symm hh
  have hf : countInto s2.freq bs = freqOf bs := countInto_zero
  rw [if_neg (show ¬ s2.len = 0 from hl0), if_neg (show ¬ s2.len = 0 from hl0), hf] at e3
  set s3 : State := { s2 with inPtr := s.inLen, freq := freqOf bs, phase := 3 } with hs3
  have e3 : step s2 = .next s3 := (step_phase (s := s2) (i := .fcCount) rfl rfl rfl).trans e3
  -- the tree
  obtain ⟨u, v, e4, e5, hb, -⟩ := H s3 rfl
  set s4 : State := { s3 with tree := u, symCount := BitVec.ofNat 9 (symbolsOf (freqOf bs)).length, phase := 4 } with hs4
  have e4 : step s3 = .next s4 := (step_phase (s := s3) (i := .tbLeaves) rfl rfl rfl).trans e4
  set s5 : State := { s4 with tree := v, phase := 5 } with hs5
  have e5 : step s4 = .next s5 := (step_phase (s := s4) (i := .tbMerge) rfl rfl rfl).trans e5
  -- the codes
  obtain ⟨c, e6, -, hc, hcx⟩ := ctWalk_shape (node := v.node) (root := v.root) s5.ct hb.reads
    (hb.leaves.symm.nodup (nodup_symbolsOf _)) hb.depth
  set s6 : State := { s5 with ct := c, phase := 6 } with hs6
  have e6 : step s5 = .next s6 := (step_phase (s := s5) (i := .ctWalk) rfl rfl rfl).trans (execCtWalk_of_ok e6)
  -- the header
  have e7 := execHdrEmit_eq s6
  rw [if_neg (show ¬ s6.len = 0 from hl0)] at e7
  set s7 : State := { s6 with out := s6.out ++ headerBytes s6.origLen s6.freq, outLen := s6.outLen + 2056, inPtr := 0, phase := 7 } with hs7
  have e7 : step s6 = .next s7 := (step_phase (s := s6) (i := .hdrEmit) rfl rfl rfl).trans e7
  -- the body
  have hcode : ∀ x ∈ bs, (codeAt s7.ct.code x).len ≠ 0 := by
    intro x hx e0
    obtain ⟨p, hp⟩ := Shape.mem_leaves_iff.1 (hb.leaves.mem_iff.2 (mem_symbolsOf.2 (hsym x hx)))
    have h1 := (hc p x hp).1
    have e0 : (codeAt c.code x).len = 0 := e0
    have h2 := length_toBits (codeAt c.code x)
    rw [h1, e0] at h2
    have : p = [] := List.length_eq_zero_iff.1 h2
    subst this; exact hp
  have e8 := execEncBody_of_holds hlen.symm (show s7.inBuf.holds 0 bs from h.present) hl0 hcode
  obtain ⟨body, hw⟩ := bwPutBits_wrote (bodyBits s7.ct bs) (s := s7) (AccClean.zero rfl)
  obtain ⟨b1, b2, b3⟩ := hw.body rfl
  set w := bwPutBits (bodyBits s7.ct bs) s7 with hwdef
  set s8 : State := { w with inPtr := s7.len, phase := 8 } with hs8
  have e8 : step s7 = .next s8 := (step_phase (s := s7) (i := .encBody) rfl rfl rfl).trans e8
  -- the flush
  have e9 := execBwFlush_eq s8
  have e9s : step s8 = _ := step_phase (s := s8) (i := .bwFlush) (show w.script = [] by rw [hw.state]; rfl) (show w.state = .busy by rw [hw.state]; rfl) rfl
  have e9 : step s8 = _ := e9s.trans e9
  have chain : steps 9 s = steps 1 s8 := by
    rw [steps_next e1, steps_next e2, steps_next e3, steps_next e4, steps_next e5, steps_next e6, steps_next e7, steps_next e8]
  have ends : ∀ (a : Byte) (n : BitVec 3) (o : List Byte) (ol : Word), a = 0 → n = 0 → 
      { s8 with out := s7.out ++ o, outLen := ol, acc := a, nbits := n, cond := { code := .ok, sub := 0 }, errPos := 0, state := .done } =
        { encEnd s bs v c [] with out := s.out ++ headerBytes s.inLen (freqOf bs) ++ o, outLen := ol } := by
    intro a n o ol ha hn
    rw [hs8, hw.state, ha, hn]
    rfl
  have wout : w.out = s7.out ++ body := by rw [hw.state]
  have wol : w.outLen = s7.outLen + BitVec.ofNat 64 body.length := by rw [hw.state]
  by_cases h0 : w.nbits = 0
  · refine ⟨v, c, body, hb, hc, hcx, b1 h0, ?_⟩
    rw [if_pos (show s8.nbits = 0 from h0)] at e9
    rw [chain, steps_next e9, steps]
    have hacc : w.acc = 0 := by
      apply BitVec.eq_of_getLsbD_eq
      intro k hk
      have := hw.clean k (by rw [h0]; simpa using hk)
      rw [this]; simp
    have := ends w.acc w.nbits body w.outLen hacc h0
    rw [← wout] at this
    refine (congrArg some this).trans ?_
    rw [wol]
    rfl
  · refine ⟨v, c, body ++ [w.acc], hb, hc, hcx, b2 h0, ?_⟩
    rw [if_neg (show ¬ s8.nbits = 0 from h0)] at e9
    rw [chain, steps_next e9, steps]
    have := ends 0 0 (body ++ [w.acc]) (w.outLen + 1) rfl rfl
    rw [← List.append_assoc, ← wout] at this
    refine (congrArg some this).trans ?_
    rw [wol, BitVec.add_assoc]
    unfold encEnd
    rw [List.length_append, BitVec.ofNat_add]
    rfl

/-- The ENCODE of the empty input (45 R201). -/
theorem encEmpty {s : State} (h : Loaded s 1 []) : ∃ s3 : State,
    s3 = { s with script := [], state := .done, op := .encode, len := s.inLen, cond := { code := .emptyInput, sub := 0 }, errPos := 0
                  outLen := 0 + 2056, bitCount := 0, symCount := 0, origLen := s.inLen, phase := 6, freq := Vector.replicate 256 0
                  inPtr := 0, acc := 0, nbits := 0, rdNbits := 0
                  out := s.out ++ headerBytes s.inLen (Vector.replicate 256 0) } ∧ steps 4 s = some s3 := by
  have hl0 : s.inLen = 0 := BitVec.eq_of_toNat_eq h.length
  have e1 := Loaded.step_start h (.inl ⟨rfl, rfl⟩)
  set s1 := start .encode { s with script := [] } with hs1
  have e2 : step s1 = .next _ := (step_phase (s := s1) (i := .fcClear) rfl rfl rfl).trans (execFcClear_eq s1)
  set s2 : State := { s1 with freq := Vector.replicate 256 0, inPtr := 0, acc := 0, nbits := 0, rdNbits := 0, origLen := s.inLen, phase := 2 } with hs2
  have e2 : step s1 = .next s2 := e2
  have e3 := execFcCount_of_holds (s := s2) h.length.symm h.present
  have hf : countInto s2.freq [] = Vector.replicate 256 0 := rfl
  rw [if_pos (show s2.len = 0 from hl0), if_pos (show s2.len = 0 from hl0), hf] at e3
  set s3 : State := { s2 with phase := 6 } with hs3
  have e3 : step s2 = .next s3 := (step_phase (s := s2) (i := .fcCount) rfl rfl rfl).trans e3
  have e7 := execHdrEmit_eq s3
  rw [if_pos (show s3.len = 0 from hl0)] at e7
  have e7 : step s3 = .next _ := (step_phase (s := s3) (i := .hdrEmit) rfl rfl rfl).trans e7
  refine ⟨_, rfl, ?_⟩
  rw [steps_next e1, steps_next e2, steps_next e3, steps_next e7, steps]
  rfl

/-! ### DECODE -/

/-- A DECODE after FC_CLEAR. -/
def dPre (s : State) : State :=
  { s with
    script := [], state := .busy, op := .decode, len := s.inLen, cond := { code := .ok, sub := 0 }, errPos := 0
    outLen := 0, bitCount := 0, symCount := 0, origLen := 0, phase := 9, freq := Vector.replicate 256 0
    inPtr := 0, acc := 0, nbits := 0, rdNbits := 0 }

/-- A DECODE after the counts are summed. -/
def dHdr (s : State) (bs : List Byte) : State :=
  { dPre s with
    origLen := fieldAt (bs.take 2056) 0, freq := headerFreq (bs.take 2056), inPtr := 2056, phase := 10
    symCount := BitVec.ofNat 9 (symbolsOf (headerFreq (bs.take 2056))).length
    sum := BitVec.ofNat 72 (countSum (headerFreq (bs.take 2056))) }

theorem decStart {s : State} {bs : List Byte} (h : Loaded s 2 bs) (k : Nat) : steps (k + 2) s = steps k (dPre s) := by
  have e1 := Loaded.step_start h (.inr ⟨rfl, rfl⟩)
  set s1 := start .decode { s with script := [] } with hs1
  have e2 : step s1 = .next _ := (step_phase (s := s1) (i := .fcClear) rfl rfl rfl).trans (execFcClear_eq s1)
  have e2 : step s1 = .next (dPre s) := e2
  rw [steps_next e1, steps_next e2]

theorem decShort {s : State} {bs : List Byte} (h : Loaded s 2 bs) (hl : bs.length < 2056) :
    steps 3 s = some (raiseState .malformedArtifact 1 (dPre s)) := by
  have e3 : execHdrParse (dPre s) = .next (raiseState .malformedArtifact 1 (dPre s)) := by
    unfold execHdrParse Config.hdrBytes
    rw [if_pos (by show s.inLen.toNat < _; rw [h.length]; exact hl)]
    rfl
  have e3 : step (dPre s) = .next _ := (step_phase (s := dPre s) (i := .hdrParse) rfl rfl rfl).trans e3
  rw [decStart h, steps_next e3, steps]

theorem decHdr {s : State} {bs : List Byte} (h : Loaded s 2 bs) (hl : 2056 ≤ bs.length) (k : Nat) :
    ∃ s3 : State, s3 = { dPre s with origLen := fieldAt (bs.take 2056) 0, freq := headerFreq (bs.take 2056), inPtr := 2056, phase := 10 } ∧
     steps (k + 3) s = steps k s3 := by
  have hh : (dPre s).inBuf.holds 0 (bs.take 2056) := by
    have := h.present
    rw [← List.take_append_drop 2056 bs] at this
    exact (Memory.holds_append.1 this).1
  have e3 := execHdrParse_of_holds (s := dPre s) (hdr := bs.take 2056) (by show 2056 ≤ s.inLen.toNat; rw [h.length]; exact hl)
    (by simp; omega) hh
  have e3 : step (dPre s) = .next _ := (step_phase (s := dPre s) (i := .hdrParse) rfl rfl rfl).trans e3
  refine ⟨_, rfl, ?_⟩
  rw [decStart h, steps_next e3]

theorem decRun {s : State} {bs : List Byte} (h : Loaded s 2 bs) (hl : 2056 ≤ bs.length) (f : Freq) 
    (hf : f = headerFreq (bs.take 2056)) (v : Word) (hv : v = fieldAt (bs.take 2056) 0) :
    (symbolsOf f = [] → v ≠ 0 → steps 4 s = some (raiseState .malformedArtifact 2 (dHdr s bs))) ∧
    (symbolsOf f ≠ [] → countSum f ≠ v.toNat → steps 4 s = some (raiseState .malformedArtifact 3 (dHdr s bs))) ∧
    (countSum f = v.toNat → v = 0 → steps 4 s = some (finish .emptyInput (dHdr s bs))) ∧
    (countSum f = v.toNat → v ≠ 0 → ∀ k, steps (k + 4) s = steps k { dHdr s bs with phase := 3 }) := by
  have key : ∀ k, ∃ s3 : State, s3 = _ ∧ steps (k + 3) s = steps k s3 := fun k => decHdr h hl k
  subst hf hv
  set s3 : State := { dPre s with origLen := fieldAt (bs.take 2056) 0, freq := headerFreq (bs.take 2056), inPtr := 2056, phase := 10 } with hs3
  have key : ∀ k, steps (k + 3) s = steps k s3 := fun k => by
    obtain ⟨_, rfl, e⟩ := key k; exact e
  have e4 := execHdrCheck_eq s3
  simp only at e4
  have st : ∀ {t}, execHdrCheck s3 = .next t → ∀ k, steps (k + 4) s = steps k t := by
    intro t e k
    have e : step s3 = .next t := (step_phase (s := s3) (i := .hdrCheck) rfl rfl rfl).trans e
    rw [key (k + 1), steps_next e]
  refine ⟨fun h1 h2 => ?_, fun h1 h2 => ?_, fun h1 h2 => ?_, fun h1 h2 k => ?_⟩
  · rw [if_pos (show symbolsOf s3.freq = [] ∧ s3.origLen ≠ 0 from ⟨h1, h2⟩)] at e4
    rw [st e4 0, steps]; rfl
  · rw [if_neg (fun h : symbolsOf s3.freq = [] ∧ s3.origLen ≠ 0 => h1 h.1),
      if_pos (show countSum s3.freq ≠ s3.origLen.toNat from h2)] at e4
    rw [st e4 0, steps]; rfl
  · rw [if_neg (fun h : symbolsOf s3.freq = [] ∧ s3.origLen ≠ 0 => h.2 h2),
      if_neg (not_not.2 (show countSum s3.freq = s3.origLen.toNat from h1)), if_pos (show s3.origLen = 0 from h2)] at e4
    rw [st e4 0, steps]; rfl
  · have hs : symbolsOf s3.freq ≠ [] := by
      intro e
      have h0 : countSum s3.freq = 0 := countSum_eq_zero.2 e
      exact h2 (BitVec.eq_of_toNat_eq (h1.symm.trans h0))
    rw [if_neg (fun h : symbolsOf s3.freq = [] ∧ s3.origLen ≠ 0 => hs h.1),
      if_neg (not_not.2 (show countSum s3.freq = s3.origLen.toNat from h1)), if_neg (show ¬ s3.origLen = 0 from h2)] at e4
    rw [st e4 k]; rfl

/-- The walk at the end of a DECODE with a legal header (46 R220). -/
theorem decWalk {s : State} {bs : List Byte} (h : Loaded s 2 bs) (hl : 2056 ≤ bs.length) (f : Freq) 
    (hf : f = headerFreq (bs.take 2056)) (v : Word) (hv : v = fieldAt (bs.take 2056) 0) (h1 : countSum f = v.toNat) (h2 : v ≠ 0) {l r : Shape} (C : Canon f l r) :
    ∃ (tr : TreeBuilder) (rb : Byte) (rn : Fin 9) (p : Word), Built f tr l r ∧
      let w := refWalk tr.node tr.root tr.root .atRoot v.toNat (bytesBits (bs.drop 2056))
      let t : State := { dHdr s bs with
        phase := 11, tree := tr, out := s.out ++ w.bytes, outLen := 0 + BitVec.ofNat 64 w.bytes.length
        bitCount := 0 + BitVec.ofNat 64 w.used, cur := w.cur, wstate := w.at_, rdByte := rb, rdNbits := rn, inPtr := p }
      p.toNat = 2056 + (w.used + 7) / 8 ∧
      steps 7 s = some (match w.how with
          | .finished => { t with cond := { code := .ok, sub := 0 }, errPos := 0, state := .done }
          | .truncated => { t with cond := { code := .truncatedBitstream, sub := 0 }, errPos := p, state := .error }
          | .placeholder => { t with cond := { code := .malformedArtifact, sub := 4 }, errPos := p, state := .error }) := by
  obtain ⟨next, root, H⟩ := C
  have key := (decRun h hl f hf v hv).2.2.2 h1 h2 3
  set s4 : State := { dHdr s bs with phase := 3 } with hs4
  obtain ⟨u, tr, e5, e6, hb, -⟩ := H s4 hf.symm
  set s5 : State := { s4 with tree := u, symCount := BitVec.ofNat 9 (symbolsOf f).length, phase := 4 } with hs5
  have e5 : step s4 = .next s5 := (step_phase (s := s4) (i := .tbLeaves) rfl rfl rfl).trans e5
  set s6 : State := { s5 with tree := tr, phase := 11 } with hs6
  have e6 : step s5 = .next s6 := (step_phase (s := s5) (i := .tbMerge) rfl rfl rfl).trans e6
  have hu : Unread s6 (bs.drop 2056) := by
    constructor
    · have := h.present
      rw [← List.take_append_drop 2056 bs] at this
      have := (Memory.holds_append.1 this).2
      rw [List.length_take, Nat.min_eq_left hl, Nat.zero_add] at this
      exact this
    · show 2056 + (bs.drop 2056).length = s.inLen.toNat
      rw [h.length, List.length_drop]; omega
  have ho : s6.origLen.toNat - s6.outLen.toNat = v.toNat := by
    show (fieldAt (bs.take 2056) 0).toNat - 0 = _
    rw [hv]; rfl
  obtain ⟨rb, rn, p, e7, hp, -, -⟩ := execDecWalk_ref (s := s6) rfl hu rfl
  rw [ho] at e7 hp
  have e7 : step s6 = .next _ := (step_phase (s := s6) (i := .decWalk) rfl rfl rfl).trans e7
  refine ⟨tr, rb, rn, p, hb, hp, ?_⟩
  rw [key, steps_next e5, steps_next e6, steps_next e7, steps]
  have : (dHdr s bs).symCount = BitVec.ofNat 9 (symbolsOf f).length := by rw [hf]; rfl
  refine congrArg some ?_
  rw [hs6, hs5, ← this]
  rfl

end Sys2Proof.Machine
end

