-- ==== Sys2Proof/Laws/Surplus.lean ====
section
/-! SUPPORT. The reader and the walk never look at the input from where `IN_PTR` ends on (44 R190, 46 R223). -/
namespace Sys2Proof.Machine

/-- `BR_GET_BIT` reads no byte at or past the `IN_PTR` it leaves, and uses one bit (44 R190). -/
theorem brGetBit_swap {s t : State} {v : Bool} (h : brGetBit s = .ok (v, t)) :
    (s.inPtr.toNat ≤ t.inPtr.toNat ∧ s.rdNbits.val + 8 * (t.inPtr.toNat - s.inPtr.toNat) = t.rdNbits.val + 1) ∧
    ∀ (m : Memory) (n : Word), (∀ a, a < t.inPtr.toNat → m.read a = s.inBuf.read a) → t.inPtr ≤ n →
      brGetBit { s with inBuf := m, len := n } = .ok (v, { t with inBuf := m, len := n }) := by
  unfold brGetBit at h
  obtain ⟨s1, e, g⟩ := bind_eq_ok.1 h
  cases g
  unfold brFill at e
  by_cases h0 : s.rdNbits.val = 0
  · rw [if_pos h0] at e
    by_cases hle : s.len ≤ s.inPtr
    · rw [if_pos hle] at e; cases e
    · rw [if_neg hle] at e
      obtain ⟨b, hb, g⟩ := bind_eq_ok.1 e
      cases g
      have hlen := s.len.isLt
      rw [BitVec.le_def] at hle
      have hsucc : (s.inPtr + 1).toNat = s.inPtr.toNat + 1 := by
        rw [BitVec.toNat_add]; simp; omega
      have hr : s.inBuf.read s.inPtr.toNat = some b := by
        cases er : s.inBuf.read s.inPtr.toNat with
        | none => rw [readByte_none er] at hb; cases hb
        | some c => rw [readByte_of_read er] at hb; cases hb; rfl
      refine ⟨⟨by show _ ≤ (s.inPtr + 1).toNat; omega, by
        show s.rdNbits.val + 8 * ((s.inPtr + 1).toNat - s.inPtr.toNat) = 8 - 1 + 1
        omega⟩, ?_⟩
      intro m n hm hn
      have hn : (s.inPtr + 1) ≤ n := hn
      have hm : ∀ a, a < (s.inPtr + 1).toNat → m.read a = s.inBuf.read a := hm
      have hf : brFill { s with inBuf := m, len := n } = .ok
          { s with inBuf := m, len := n, rdByte := b, inPtr := s.inPtr + 1, rdNbits := 8 } := by
        unfold brFill
        rw [BitVec.le_def] at hn
        rw [if_pos (by exact h0), if_neg (show ¬ n ≤ s.inPtr by rw [BitVec.le_def]; omega)]
        rw [readByte_of_read (b := b) (show m.read s.inPtr.toNat = _ by rw [hm _ (by omega)]; exact hr)]
        rfl
      unfold brGetBit
      rw [hf]; rfl
  · rw [if_neg h0] at e
    cases e
    refine ⟨⟨le_refl _, by show s.rdNbits.val + 8 * (s.inPtr.toNat - s.inPtr.toNat) = s.rdNbits.val - 1 + 1; omega⟩, ?_⟩
    intro m n _ _
    have hf : brFill { s with inBuf := m, len := n } = .ok { s with inBuf := m, len := n } := by
      unfold brFill; rw [if_neg (by exact h0)]
    unfold brGetBit
    rw [hf]; rfl

theorem walkArrive_swap {s t : State} (h : walkArrive s = .ok t) :
    t.inPtr = s.inPtr ∧ t.rdNbits = s.rdNbits ∧ t.inBuf = s.inBuf ∧
    ∀ (m : Memory) (n : Word), walkArrive { s with inBuf := m, len := n } = .ok { t with inBuf := m, len := n } := by
  unfold walkArrive at h ⊢
  simp only at h ⊢
  split at h
  · rename_i hk; cases h; exact ⟨rfl, rfl, rfl, fun m n => rfl⟩
  · cases h; exact ⟨rfl, rfl, rfl, fun m n => rfl⟩
  · cases h

theorem brGetBit_inBuf {s t : State} {v : Bool} (h : brGetBit s = .ok (v, t)) :
    t.inBuf = s.inBuf ∧ t.outLen = s.outLen ∧ t.origLen = s.origLen := by
  rcases brGetBit_cases s with ⟨v', t', e, hf⟩ | ⟨e, -⟩ | ⟨f, e⟩
  · rw [e] at h; cases h
    refine ⟨by rw [hf.state], ?_, by rw [hf.state]⟩
    unfold brGetBit at e
    obtain ⟨s1, f1, g1⟩ := bind_eq_ok.1 e
    cases g1
    unfold brFill at f1
    split at f1
    · split at f1
      · cases f1
      · obtain ⟨b, -, g2⟩ := bind_eq_ok.1 f1
        cases g2; rfl
    · cases f1; rfl
  · rw [e] at h; cases h
  · rw [e] at h; cases h

/-- A walk that finishes is the same with any bytes from the `IN_PTR` it leaves on, and any `LEN` from there (46 R223). -/
theorem walkLoop_swap (fuel : Nat) : ∀ {s t : State}, walkLoop fuel s = .ok t →
    s.inPtr.toNat ≤ t.inPtr.toNat ∧
    ∀ (m : Memory) (n : Word) (fuel' : Nat), (∀ a, a < t.inPtr.toNat → m.read a = s.inBuf.read a) → t.inPtr ≤ n →
      s.rdNbits.val + 8 * (t.inPtr.toNat - s.inPtr.toNat) ≤ fuel' →
      walkLoop fuel' { s with inBuf := m, len := n } = .ok { t with inBuf := m, len := n } := by
  have stop : ∀ {s : State} (m : Memory) (n : Word) (fuel' : Nat), ¬ s.outLen < s.origLen →
      walkLoop fuel' { s with inBuf := m, len := n } = .ok { s with inBuf := m, len := n } := by
    intro s m n fuel' h
    cases fuel' <;> simp [walkLoop, h]
  induction fuel with
  | zero =>
    intro s t h
    unfold walkLoop at h
    split at h
    · cases h
    · rename_i hlt; cases h
      exact ⟨le_refl _, fun m n f _ _ _ => stop m n f hlt⟩
  | succ fuel ih =>
    intro s t h
    unfold walkLoop at h
    split at h
    · rename_i hlt
      obtain ⟨s2, e2, h2⟩ := bind_eq_ok.1 h
      unfold walkRound at e2
      obtain ⟨⟨v, s1⟩, e1, e3⟩ := bind_eq_ok.1 e2
      simp only at e3
      obtain ⟨⟨k1, k2⟩, k3⟩ := brGetBit_swap e1
      obtain ⟨a1, a2, a3, a4⟩ := walkArrive_swap e3
      have a1 : s2.inPtr = s1.inPtr := a1
      have a2 : s2.rdNbits = s1.rdNbits := a2
      have a3 : s2.inBuf = s1.inBuf := a3
      obtain ⟨l1, l2⟩ := ih h2
      rw [a1] at l1
      refine ⟨by omega, ?_⟩
      intro m n fuel' hm hn hf
      have l3 := l2 m n
      have hlt' := k3 m n (fun a ha => hm a (by omega)) (by rw [BitVec.le_def] at hn ⊢; omega)
      obtain ⟨fuel', rfl⟩ : ∃ f, fuel' = f + 1 := ⟨fuel' - 1, by omega⟩
      unfold walkLoop
      rw [if_pos (by exact hlt)]
      have : walkRound { s with inBuf := m, len := n } = .ok { s2 with inBuf := m, len := n } := by
        unfold walkRound
        rw [hlt', ok_bind]
        exact a4 m n
      rw [this, ok_bind]
      refine l3 fuel' ?_ hn (by rw [a1, a2]; omega)
      rw [a3, (brGetBit_inBuf e1).1]; exact hm
    · rename_i hlt; cases h
      exact ⟨le_refl _, fun m n f _ _ _ => stop m n f hlt⟩

end Sys2Proof.Machine
end

