-- ==== Sys2Proof/Tests/Slice0.lean ====
section
/-! SUPPORT. The model's own tests: the selectors the checks refuse, the decoding of words written out from the spec's
tables, one or two small steps per instruction with results from spec/95_test_vectors.md, and a witness for the hypotheses
of every statement that has some. -/

-- One theorem at a time: each test waits for the kernel, and a waiting thread keeps its stack.
set_option Elab.async false

namespace Sys2Proof.Tests
open Sys2Proof.Machine

/-! ### Well-formedness: what the checks refuse -/

/-- 30_encoding R107: bit 2 set. -/
theorem test_wf_refuses_low_reserved_bit : (Selector.ctrl 0x0000000000000004).wf = false := by decide

/-- 30_encoding R107: bit 63 set on an otherwise legal word. -/
theorem test_wf_refuses_high_reserved_bit : (Selector.ctrl 0x8000000000000001).wf = false := by decide

/-- 30_encoding R93: code 0 is "none". -/
theorem test_wf_refuses_phase_none : (Selector.phase 0b0000).wf = false := by decide

/-- 30_encoding R93: code 12 is never produced. -/
theorem test_wf_refuses_phase_twelve : (Selector.phase 0b1100).wf = false := by decide

/-! ### Decoding: one word of every row of 30_encoding R91 and R93, written out bit by bit -/

theorem test_decode_nop : decode (.ctrl 0b0000000000000000000000000000000000000000000000000000000000000000) = .ok .nop := by
  decide

theorem test_decode_encode :
    decode (.ctrl 0b0000000000000000000000000000000000000000000000000000000000000001) = .ok .encode := by decide

theorem test_decode_decode :
    decode (.ctrl 0b0000000000000000000000000000000000000000000000000000000000000010) = .ok .decode := by decide

theorem test_decode_clear :
    decode (.ctrl 0b0000000000000000000000000000000000000000000000000000000000000011) = .ok .clear := by decide

theorem test_decode_fcClear : decode (.phase 0b0001) = .ok .fcClear := by decide
theorem test_decode_fcCount : decode (.phase 0b0010) = .ok .fcCount := by decide
theorem test_decode_tbLeaves : decode (.phase 0b0011) = .ok .tbLeaves := by decide
theorem test_decode_tbMerge : decode (.phase 0b0100) = .ok .tbMerge := by decide
theorem test_decode_ctWalk : decode (.phase 0b0101) = .ok .ctWalk := by decide
theorem test_decode_hdrEmit : decode (.phase 0b0110) = .ok .hdrEmit := by decide
theorem test_decode_encBody : decode (.phase 0b0111) = .ok .encBody := by decide
theorem test_decode_bwFlush : decode (.phase 0b1000) = .ok .bwFlush := by decide
theorem test_decode_hdrParse : decode (.phase 0b1001) = .ok .hdrParse := by decide
theorem test_decode_hdrCheck : decode (.phase 0b1010) = .ok .hdrCheck := by decide
theorem test_decode_decWalk : decode (.phase 0b1011) = .ok .decWalk := by decide

/-- 30_encoding R107. -/
theorem test_decode_illegal_word : decode (.ctrl 0x0000000000000004) = .error .reservedBits := by decide

/-! ### One step on a small state -/

/-- The outcome is a next state, and it satisfies `p`. -/
def holdsNext (p : State → Bool) (o : Host.Outcome State Fault Refusal) : Bool :=
  match o with
  | .next t => p t
  | .fault _ => false
  | .refused _ => false

theorem exists_of_holdsNext {p : State → Bool} {o : Host.Outcome State Fault Refusal} (h : holdsNext p o = true) :
    ∃ t, o = .next t ∧ p t = true := by
  cases o with
  | next t => exact ⟨t, rfl, h⟩
  | fault f => cases h
  | refused r => cases h

/-- The outcome is the fault `f`. -/
def holdsFault (f : Fault) (o : Host.Outcome State Fault Refusal) : Bool :=
  match o with
  | .next _ => false
  | .fault g => g == f
  | .refused _ => false

/-- The input "aab" loaded (vector V1), IDLE. -/
def aab : State := { State.reset with inBuf := [(0, 0x61), (1, 0x61), (2, 0x62)], inLen := 3 }

/-- A command in phase `p` on the input of `s`. -/
def busyIn (op : Op) (p : BitVec 4) (s : State) : State := { s with state := .busy, op := op, phase := p, len := s.inLen }

/-- The counts of "aab" (V1, FC_COUNT). -/
def freqAab : Freq := freqSet (freqSet (Vector.replicate 256 0) 0x61 2) 0x62 1

/-- The leaves of "aab" (V1, TB_LEAVES): `NODE[0] = LEAF a 2`, `NODE[1] = LEAF b 1`, `HEAP = [1, 0]`. -/
def leavesAab : TreeBuilder :=
  { node := nodeSet (nodeSet TreeBuilder.zero.node 0 { kind := .leaf, sym := 0x61, weight := 2, left := 0, right := 0 })
      1 { kind := .leaf, sym := 0x62, weight := 1, left := 0, right := 0 }
    heap := heapSet TreeBuilder.zero.heap 0 1, next := 2, root := 0, pqSize := 2 }

/-- The tree of "aab" (V1, TB_MERGE): `NODE[2] = INT 3 L=0 R=1`. -/
def treeAab : TreeBuilder :=
  { leavesAab with
    node := nodeSet leavesAab.node 2 { kind := .internal, sym := 0, weight := 3, left := 0, right := 1 }
    next := 3, root := 2, pqSize := 0 }

/-- The codes of "aab" (V1, CT_WALK): a = "0", b = "1". -/
def codesAab : CodeTable :=
  { CodeTable.zero with code := codeSet (codeSet CodeTable.zero.code 0x61 { len := 1, bits := 0 }) 0x62 { len := 1, bits := 1 } }

/-- 40_commands R126. -/
theorem test_nop_while_busy : exec .nop (busyIn .encode 7 aab) = .next (busyIn .encode 7 aab) := rfl

/-- 40_commands R124: ENCODE outside IDLE is rejected. -/
theorem test_encode_rejected_when_done :
    holdsNext (fun t => t.cmdRej && t.state == .done) (exec .encode { aab with state := .done }) = true := by decide +kernel

/-- 40_commands R124: DECODE while BUSY is rejected. -/
theorem test_decode_rejected_while_busy :
    holdsNext (fun t => t.cmdRej && t.phase == 7) (exec .decode (busyIn .encode 7 aab)) = true := by decide +kernel

/-- 40_commands R129 (vector V26): CLEAR in DONE clears `CMD_REJ` and returns to IDLE; `IN_LEN` stays. -/
theorem test_clear_when_done : holdsNext (fun t => t.state == .idle && !t.cmdRej && t.out == [] && t.inLen == 3)
    (exec .clear { aab with state := .done, phase := 8, cmdRej := true, out := [1, 2], outLen := 2 }) = true := by
  decide +kernel

/-- 40_commands R129: CLEAR while BUSY is rejected. -/
theorem test_clear_rejected_while_busy :
    holdsNext (fun t => t.cmdRej && t.state == .busy) (exec .clear (busyIn .encode 7 aab)) = true := by decide +kernel

/-- 41 R141: counts cleared, `ORIG_LEN` of an ENCODE is the length, phase 2. -/
theorem test_fcClear_encode : holdsNext (fun t => freqAt t.freq 0x61 == 0 && t.origLen == 3 && t.phase == 2 && t.acc == 0)
    (exec .fcClear { busyIn .encode 1 aab with freq := freqAab, acc := 0xff }) = true := by decide +kernel

/-- 41 R141: a DECODE goes to phase 9 and leaves `ORIG_LEN`. -/
theorem test_fcClear_decode : holdsNext (fun t => t.origLen == 0 && t.phase == 9) (exec .fcClear (busyIn .decode 1 aab)) = true := by
  decide +kernel

/-- V1, FC_COUNT. -/
theorem test_fcCount_aab : holdsNext (fun t => freqAt t.freq 0x61 == 2 && freqAt t.freq 0x62 == 1 && freqAt t.freq 0x63 == 0 &&
      t.inPtr == 3 && t.phase == 3)
    (exec .fcCount (busyIn .encode 2 aab)) = true := by decide +kernel

/-- V2: the empty input goes to phase 6. -/
theorem test_fcCount_empty : holdsNext (fun t => t.phase == 6) (exec .fcCount (busyIn .encode 2 State.reset)) = true := by
  decide +kernel

/-- V1, TB_LEAVES. -/
theorem test_tbLeaves_aab : holdsNext (fun t => nodeAt t.tree.node 0 == nodeAt leavesAab.node 0 &&
      nodeAt t.tree.node 1 == nodeAt leavesAab.node 1 && heapAt t.tree.heap 0 == 1 && heapAt t.tree.heap 1 == 0 &&
      t.tree.next == 2 && t.symCount == 2 && t.phase == 4)
    (exec .tbLeaves { busyIn .encode 3 aab with freq := freqAab }) = true := by decide +kernel

/-- V1, TB_MERGE: the lighter `b` is the RIGHT child. -/
theorem test_tbMerge_aab : holdsNext (fun t => nodeAt t.tree.node 2 ==
      { kind := .internal, sym := 0, weight := 3, left := 0, right := 1 } && t.tree.root == 2 && t.tree.next == 3 && t.phase == 5)
    (exec .tbMerge { busyIn .encode 4 aab with tree := leavesAab, symCount := 2 }) = true := by decide +kernel

/-- V3: one symbol, `NODE[1] = PH`, `NODE[2] = INT 4 L=0 R=1`. -/
theorem test_tbMerge_one_symbol : holdsNext (fun t => (nodeAt t.tree.node 1).kind == .placeholder && nodeAt t.tree.node 2 ==
      { kind := .internal, sym := 0, weight := 4, left := 0, right := 1 } && t.tree.root == 2 && t.tree.next == 3 && t.phase == 11)
    (exec .tbMerge { busyIn .decode 4 aab with
      symCount := 1
      tree := { TreeBuilder.zero with
        node := nodeSet TreeBuilder.zero.node 0 { kind := .leaf, sym := 0x61, weight := 4, left := 0, right := 0 }
        next := 1, pqSize := 1 } }) = true := by decide +kernel

/-- V1, CT_WALK: `CODE[0x61] = "0"`, `CODE[0x62] = "1"`, others absent. -/
theorem test_ctWalk_aab : holdsNext (fun t => (codeAt t.ct.code 0x61).toBits == [false] && (codeAt t.ct.code 0x62).toBits == [true] &&
      (codeAt t.ct.code 0x63).len == 0 && t.phase == 6)
    (exec .ctWalk { busyIn .encode 5 aab with tree := treeAab }) = true := by decide +kernel

/-- V1, HDR_EMIT: `03` at offset 7, `02` at 791, `01` at 799 of 2056 bytes. -/
theorem test_hdrEmit_aab : holdsNext (fun t => t.out.length == 2056 && t.out[7]? == some 3 && t.out[791]? == some 2 &&
      t.out[799]? == some 1 && t.outLen == 2056 && t.phase == 7)
    (exec .hdrEmit { busyIn .encode 6 aab with freq := freqAab, origLen := 3 }) = true := by decide +kernel

/-- V2: an empty input ends here with EMPTY_INPUT. -/
theorem test_hdrEmit_empty : holdsNext (fun t => t.state == .done && t.cond == { code := .emptyInput, sub := 0 } && t.outLen == 2056)
    (exec .hdrEmit (busyIn .encode 6 State.reset)) = true := by decide +kernel

/-- V1, ENC_BODY: bits 0 0 1, `ACC = 0b00100000`, `NBITS = 3`. -/
theorem test_encBody_aab : holdsNext (fun t => t.acc == 0b00100000 && t.nbits == 3 && t.bitCount == 3 && t.inPtr == 3 && t.phase == 8)
    (exec .encBody { busyIn .encode 7 aab with ct := codesAab }) = true := by decide +kernel

/-- 45 R203, R204: the first byte without a code, here `b` at index 2. -/
theorem test_encBody_absent : holdsNext (fun t => t.state == .error && t.fatal && t.errPos == 2 &&
      t.cond == { code := .invariantViolation, sub := 1 })
    (exec .encBody { busyIn .encode 7 aab with ct := { codesAab with code := codeSet codesAab.code 0x62 CodeEntry.empty } }) = true := by
  decide +kernel

/-- V1, BW_FLUSH emits `20`. -/
theorem test_bwFlush_partial : holdsNext (fun t => t.out == [0x20] && t.state == .done && t.nbits == 0 && t.acc == 0)
    (exec .bwFlush { busyIn .encode 8 aab with acc := 0x20, nbits := 3 }) = true := by decide +kernel

/-- V6: nothing to flush after a full byte. -/
theorem test_bwFlush_full : holdsNext (fun t => t.out == [0x0d] && t.state == .done)
    (exec .bwFlush { busyIn .encode 8 aab with out := [0x0d] }) = true := by decide +kernel

/-- 46 R216: three bytes are shorter than the header. -/
theorem test_hdrParse_short : holdsNext (fun t => t.state == .error && t.cond == { code := .malformedArtifact, sub := 1 } && t.errPos == 0)
    (exec .hdrParse (busyIn .decode 9 aab)) = true := by decide +kernel

/-- 46 R217 on the header of "aab". -/
theorem test_hdrCheck_ok : holdsNext (fun t => t.phase == 3 && t.symCount == 2 && t.sum == 3)
    (exec .hdrCheck { busyIn .decode 10 aab with freq := freqAab, origLen := 3 }) = true := by decide +kernel

/-- 46 R217: counts that sum to 3 under a declared length 4. -/
theorem test_hdrCheck_mismatch : holdsNext (fun t => t.state == .error && t.cond == { code := .malformedArtifact, sub := 3 })
    (exec .hdrCheck { busyIn .decode 10 aab with freq := freqAab, origLen := 4 }) = true := by decide +kernel

/-- V11: body `20` gives back "aab", three bits used. -/
theorem test_decWalk_aab : holdsNext (fun t => t.out == [0x61, 0x61, 0x62] && t.bitCount == 3 && t.state == .done && t.inPtr == 2057)
    (exec .decWalk { State.reset with
      state := .busy, op := .decode, phase := 11, len := 2057, inPtr := 2056, origLen := 3, tree := treeAab
      inBuf := [(2056, 0x20)] }) = true := by decide +kernel

/-- V19's shape: ten symbols declared, one body byte: eight come out, then TruncatedBitstream. -/
theorem test_decWalk_truncated : holdsNext (fun t => t.out.length == 8 && t.state == .error && t.errPos == 2057 &&
      t.cond == { code := .truncatedBitstream, sub := 0 })
    (exec .decWalk { State.reset with
      state := .busy, op := .decode, phase := 11, len := 2057, inPtr := 2056, origLen := 10, tree := treeAab
      inBuf := [(2056, 0x20)] }) = true := by decide +kernel

/-- 10_state R23: `0x022` is "ENCODE done" (spec/95, notation). -/
theorem test_status_encode_done : regValue { State.reset with state := .done, phase := 8 } 1 = 0x022 := by decide +kernel

/-- 10_state R23: `0x09F` is "ENCODE fatal error in ENC_BODY" (spec/95, notation). -/
theorem test_status_fatal : regValue { State.reset with state := .error, phase := 7, fatal := true } 1 = 0x09f := by decide +kernel

/-! ### Witnesses: states and operands that meet the hypotheses of the statements

Named after the statement in Certificates/Slice0/Obligations.lean; statements without hypotheses have none. -/

/-- The capacity is at least the header (00_scope R13), which the witnesses below need of the opaque parameter. -/
theorem inCap_bounds : 2056 ≤ Config.inCap ∧ Config.inCap ≤ 2 ^ 56 := by
  unfold Config.inCap
  have := Nat.mod_lt Config.inCapSeed (show 2 ^ 56 - 2055 > 0 by decide)
  omega

/-- The bytes `bs` from address `a` up, as a memory. -/
def memFrom : Nat → List Byte → Memory
  | _, [] => []
  | a, b :: bs => (a, b) :: memFrom (a + 1) bs

theorem memFrom_holds (bs : List Byte) : ∀ (a : Nat) (m : Memory), (∀ c ∈ m, c.1 < a) → Memory.holds (m ++ memFrom a bs) a bs := by
  have skip : ∀ (m m' : Memory) (a : Nat), (∀ c ∈ m, c.1 < a) → Memory.read (m ++ m') a = Memory.read m' a := by
    intro m m' a h
    induction m with
    | nil => rfl
    | cons c m ih =>
      have hc := h c List.mem_cons_self
      rw [List.cons_append, Memory.read, if_neg (by omega)]
      exact ih fun d hd => h d (List.mem_cons_of_mem _ hd)
  induction bs with
  | nil => intro a m _; exact Memory.holds_nil _ _
  | cons b bs ih =>
    intro a m h
    refine Memory.holds_cons.2 ⟨?_, ?_⟩
    · rw [skip m _ a h]; simp [memFrom, Memory.read]
    · have := ih (a + 1) (m ++ [(a, b)]) (by
        intro c hc
        rcases List.mem_append.1 hc with hc | hc
        · have := h c hc; omega
        · rw [List.mem_singleton.1 hc]; simp)
      rwa [List.append_assoc] at this

theorem memFrom_wf (bs : List Byte) : ∀ a, Memory.wf (memFrom a bs) = true ∧ ∀ c ∈ memFrom a bs, a ≤ c.1 ∧ c.1 < a + bs.length := by
  induction bs with
  | nil => intro a; exact ⟨rfl, by simp [memFrom]⟩
  | cons b bs ih =>
    intro a
    obtain ⟨h1, h2⟩ := ih (a + 1)
    refine ⟨Memory.wf_cons.2 ⟨fun d hd => ?_, h1⟩, fun c hc => ?_⟩
    · have := (h2 d (List.mem_of_mem_head? hd)).1
      show a < d.1
      omega
    · rcases List.mem_cons.1 hc with rfl | hc
      · simp
      · have := h2 c hc
        simp only [List.length_cons]; omega

/-- An IDLE block with the input `bs`, and a pending script. -/
def idleWith (bs : List Byte) (l : List HostOp) : State :=
  { State.reset with inBuf := memFrom 0 bs, inLen := BitVec.ofNat 64 bs.length, script := l }

theorem idleWith_inv {bs : List Byte} (h : bs.length ≤ Config.inCap) (l : List HostOp) : (idleWith bs l).Inv := by
  refine ⟨(memFrom_wf bs 0).1, ?_, rfl, Nat.zero_le _, fun _ => ⟨rfl, rfl, rfl, rfl, rfl, rfl, rfl, rfl, rfl, rfl⟩, ?_, ?_, ?_, ?_, ?_, ?_, ?_⟩
  · intro c hc
    have := ((memFrom_wf bs 0).2 c hc).2
    omega
  all_goals (intro e; cases e)

/-- Every input that fits can be loaded: a witness for every clause of EncodeProducesTheArtifact, EncodeOfEmptyInput,
DecodeAcceptsExactlyTheLegalArtifacts and EveryAcceptedCommandEnds. -/
theorem witness_loaded (cmd : Word) (bs : List Byte) (h : bs.length ≤ Config.inCap) :
    Loaded (idleWith bs [.regWrite 0 cmd]) cmd bs := by
  have := inCap_bounds.2
  refine ⟨idleWith_inv h _, rfl, rfl, ?_, h, ?_⟩
  · show (BitVec.ofNat 64 bs.length).toNat = _
    rw [BitVec.toNat_ofNat, Nat.mod_eq_of_lt (by omega)]
  · exact memFrom_holds bs 0 [] (by simp)

theorem witness_EncodeProducesTheArtifact : ∃ s, Loaded s 1 [0x61, 0x61, 0x62] ∧ ([0x61, 0x61, 0x62] : List Byte) ≠ [] :=
  ⟨_, witness_loaded 1 _ (by have := inCap_bounds.1; simp; omega), by simp⟩

theorem witness_EncodeOfEmptyInput : ∃ s, Loaded s 1 [] := ⟨_, witness_loaded 1 [] (Nat.zero_le _)⟩

/-- Clause by clause, at the boundaries: 2055 bytes (too short), 2056 zero bytes (the empty artifact), a length without
symbols, counts that do not sum to the length, and a legal header with no body. -/
theorem witness_DecodeAcceptsExactlyTheLegalArtifacts : ∀ bs ∈ [List.replicate 2055 0, List.replicate 2056 0,
      headerBytes 1 (Vector.replicate 256 0), headerBytes 4 freqAab, headerBytes 3 freqAab],
    ∃ s, Loaded s 2 bs := by
  have hb := inCap_bounds.1
  intro bs hbs
  refine ⟨_, witness_loaded 2 bs ?_⟩
  simp only [List.mem_cons, List.not_mem_nil, or_false] at hbs
  rcases hbs with rfl | rfl | rfl | rfl | rfl
  · rw [List.length_replicate]; omega
  · rw [List.length_replicate]; omega
  all_goals (rw [length_headerBytes]; omega)

/-- The round trip of the empty input: both commands can be loaded (its artifact is 2056 zero bytes, V2 and V12). -/
theorem witness_DecodeInvertsEncode : (∃ s, Loaded s 1 []) ∧ ∃ s, Loaded s 2 (List.replicate 2056 0) :=
  ⟨⟨_, witness_loaded 1 [] (Nat.zero_le _)⟩, ⟨_, witness_loaded 2 _ (by have := inCap_bounds.1; rw [List.length_replicate]; omega)⟩⟩

/-- Two states that differ in what history left in a working register. -/
theorem witness_ResultDoesNotDependOnHistory : ∃ s1 s2 : State, s1.acc ≠ s2.acc ∧ s1.freq ≠ s2.freq ∧ Loaded s1 1 [0x61] ∧ Loaded s2 1 [0x61] ∧
    Loaded s1 1 [0x61] := by
  have h := witness_loaded 1 [0x61] (by have := inCap_bounds.1; simp; omega)
  have i := h.inv
  refine ⟨_, { idleWith [0x61] [.regWrite 0 1] with acc := 0xff, freq := Vector.replicate 256 1 }, ?_, ?_, h,
    ⟨⟨i.memWf, i.memInside, i.outLen, i.outRd, i.idle, i.busy, i.inPtr, i.fresh, i.encodes, i.decodes, i.done, i.error⟩,
      h.idle, h.script, h.length, h.fits, h.present⟩, h⟩
  · decide
  · intro e
    have := congrArg (fun f : Freq => freqAt f 0) e
    simp [idleWith, State.reset] at this

theorem witness_EveryAcceptedCommandEnds : ∀ cmd ∈ [(1 : Word), 2], ∃ s, Loaded s cmd [0x61] := fun cmd _ =>
  ⟨_, witness_loaded cmd _ (by have := inCap_bounds.1; simp; omega)⟩

/-! States and scripts for one step. -/

theorem witness_ResetClearsEveryHostRegister : (({ aab with state := .busy, fatal := true, script := [.reset] } : State)).script =
    .reset :: [] := rfl

/-- A BUSY state in BW_FLUSH that has the invariant, from which a step answers a next state in DONE. -/
def flushing : State := { State.reset with state := .busy, phase := 8 }

theorem flushing_inv : flushing.Inv := by
  refine ⟨rfl, by simp [flushing, State.reset], rfl, Nat.zero_le _, ?_, fun _ => ⟨by decide, rfl, rfl, rfl, rfl, Nat.zero_le _⟩,
    fun _ _ => by decide, fun _ _ h => absurd rfl h, fun _ _ _ => rfl, ?_, ?_, ?_⟩
  all_goals first | (intro e; cases e; done) | (intro _ e; cases e)

theorem witness_EveryStepKeepsTheInvariant : flushing.Inv ∧ ∃ t, step flushing = .next t ∧ (t.state == .done) = true :=
  ⟨flushing_inv, exists_of_holdsNext (p := fun t => t.state == .done) (by decide +kernel)⟩

theorem witness_CommandEndsAreRowsOfTheErrorTable : flushing.Inv ∧ flushing.state = .busy ∧
    ∃ t, step flushing = .next t ∧ (t.state == .done) = true :=
  ⟨flushing_inv, rfl, witness_EveryStepKeepsTheInvariant.2⟩

theorem witness_InputBufferIsCanonical : Memory.wf [(0, 1), (3, 2)] = true ∧ ∀ a, Memory.read [(0, 1), (3, 2)] a = Memory.read [(0, 1), (3, 2)] a :=
  ⟨rfl, fun _ => rfl⟩

/-- Each clause: a command word, a phase alone, after a yield, beside a waiting host action, at rest, and a code no phase
has (the boundaries 11 and 12). -/
theorem witness_StepRunsTheSelectedInstruction :
    ({ aab with script := [.regWrite 0 3] } : State).script = .regWrite 0 3 :: [] ∧ decodeCtrl 3 = .ok .clear ∧
    (busyIn .decode 11 aab).state = .busy ∧ decodePhase (busyIn .decode 11 aab).phase = .ok .decWalk ∧
    (busyIn .decode 11 aab).script = [] ∧
    ({ busyIn .decode 11 aab with script := [.yield] } : State).script = .yield :: [] ∧
    opEnabled { busyIn .decode 11 aab with script := [.wait] } .wait = false ∧
    aab.state ≠ .busy ∧ aab.script = [] ∧
    decodePhase (busyIn .decode 12 aab).phase = .error .phaseNeverProduced := by
  refine ⟨rfl, rfl, rfl, rfl, rfl, rfl, rfl, by decide, rfl, rfl⟩

theorem witness_PlacedPatternIsRunNext : decodeCtrl 3 = .ok .clear ∧ decodePhase 1 = .ok .fcClear ∧ decodePhase 11 = .ok .decWalk :=
  ⟨rfl, rfl, rfl⟩

theorem witness_NopChangesNothing : ({ aab with script := [.regWrite 0 0] } : State).script = .regWrite 0 0 :: [] := rfl

/-- At the boundary `IN_LEN = IN_CAP`. -/
theorem witness_AcceptedCommandStarts : ∃ s : State, s.fatal = false ∧ s.state = .idle ∧ s.inLen.toNat = Config.inCap ∧ s.Inv := by
  have hc := inCap_bounds.2
  have i := idleWith_inv (bs := []) (Nat.zero_le _) []
  refine ⟨{ State.reset with inLen := BitVec.ofNat 64 Config.inCap }, rfl, rfl, ?_,
    ⟨i.memWf, i.memInside, i.outLen, i.outRd, i.idle, ?_, ?_, ?_, ?_, ?_, ?_, ?_⟩⟩
  · show (BitVec.ofNat 64 Config.inCap).toNat = _
    rw [BitVec.toNat_ofNat, Nat.mod_eq_of_lt (by omega)]
  all_goals (intro e; cases e)

theorem witness_ClearRestoresIdle : aab.fatal = false ∧ aab.state ≠ .busy ∧ (idleWith [] []).Inv ∧ (idleWith [] []).state = .idle ∧
    ({ aab with state := .done } : State).state ≠ .busy :=
  ⟨rfl, by decide, idleWith_inv (Nat.zero_le _) _, rfl, by decide⟩

/-- Every branch of the dispatch table: an illegal word, NOP, a fatal block, CLEAR while BUSY and in DONE, a start outside
IDLE, with `IN_LEN` one past `IN_CAP`, and the two accepted starts. -/
theorem witness_CtrlWriteFollowsTheDispatchTable :
    (4 : Word).extractLsb' 2 62 ≠ 0 ∧ (3 : Word).extractLsb' 2 62 = 0 ∧ (0 : Word).extractLsb' 2 62 = 0 ∧
    ({ aab with fatal := true, script := [.regWrite 0 1] } : State).script = .regWrite 0 1 :: [] ∧
    ({ busyIn .encode 7 aab with script := [.regWrite 0 3] } : State).state = .busy ∧
    ({ aab with state := .done, script := [.regWrite 0 3] } : State).state ≠ .busy ∧
    ({ aab with state := .done, script := [.regWrite 0 1] } : State).state ≠ .idle ∧
    (∃ s : State, s.state = .idle ∧ s.fatal = false ∧ Config.inCap < s.inLen.toNat) ∧
    ∃ s : State, s.state = .idle ∧ s.fatal = false ∧ ¬ Config.inCap < s.inLen.toNat := by
  have hc := inCap_bounds
  refine ⟨by decide, by decide, by decide, rfl, rfl, by decide, by decide,
    ⟨{ aab with inLen := BitVec.ofNat 64 (2 ^ 64 - 1) }, rfl, rfl, ?_⟩, aab, rfl, rfl, ?_⟩
  · have hn : (BitVec.ofNat 64 (2 ^ 64 - 1)).toNat = 2 ^ 64 - 1 := rfl
    show Config.inCap < (BitVec.ofNat 64 (2 ^ 64 - 1)).toNat
    rw [hn]; omega
  · show ¬ Config.inCap < (3 : Word).toNat
    have : (3 : Word).toNat = 3 := rfl
    omega

/-- A fatal block whose host tries CLEAR. -/
def fatalClear : State := { aab with state := .error, fatal := true, script := [.regWrite 0 3] }

theorem witness_FatalIsLeftOnlyByReset : fatalClear.fatal = true ∧ fatalClear.script.head? ≠ some .reset ∧
    ∃ t, step fatalClear = .next t ∧ t.cmdRej = true :=
  ⟨rfl, by decide, exists_of_holdsNext (p := fun t => t.cmdRej) (by decide +kernel)⟩

/-- Each change of a flag happens: rejected (set), CLEAR (cleared), the InvariantViolation of ENC_BODY (set), reset
(cleared). -/
theorem witness_FlagsChangeOnlyWhereStated :
    (∃ t, step fatalClear = .next t ∧ t.cmdRej = true) ∧
    (∃ t, step { aab with cmdRej := true, script := [.regWrite 0 3] } = .next t ∧ (!t.cmdRej) = true) ∧
    (∃ t, step (busyIn .encode 7 aab) = .next t ∧ t.fatal = true) ∧
    ∃ t, step { fatalClear with script := [.reset] } = .next t ∧ (!t.fatal) = true :=
  ⟨exists_of_holdsNext (p := fun t => t.cmdRej) (by decide +kernel), exists_of_holdsNext (p := fun t => !t.cmdRej) (by decide +kernel),
    exists_of_holdsNext (p := fun t => t.fatal) (by decide +kernel), exists_of_holdsNext (p := fun t => !t.fatal) (by decide +kernel)⟩

/-- Each reason of a rejection: a reserved bit, FATAL, CLEAR while BUSY, a start when not IDLE, a start with `IN_LEN` above
`IN_CAP`. -/
theorem witness_Rejected : Rejected aab 4 ∧ Rejected fatalClear 3 ∧ Rejected (busyIn .encode 1 aab) 3 ∧
    Rejected (busyIn .encode 1 aab) 1 ∧ Rejected { aab with inLen := 0xffffffffffffffff } 2 := by
  have := inCap_bounds.2
  exact ⟨.inl (by decide), .inr (.inl ⟨by decide, rfl⟩), .inr (.inr (.inl ⟨rfl, rfl⟩)),
    .inr (.inr (.inr ⟨.inl rfl, .inl (by decide)⟩)),
    .inr (.inr (.inr ⟨.inr rfl, .inr (by show Config.inCap < 18446744073709551615; omega)⟩))⟩

/-- Each transition of `STATE` happens: IDLE to BUSY, BUSY to DONE and to ERROR, DONE to IDLE, and reset; a phase changes. -/
theorem witness_ProtocolTransitionsAreTheStatedOnes :
    (∃ s t : State, s.state = .idle ∧ step s = .next t ∧ t.state = .busy) ∧
    (∃ t, step flushing = .next t ∧ (t.state == .done) = true) ∧
    (∃ t, step (busyIn .encode 7 aab) = .next t ∧ (t.state == .error) = true) ∧
    (∃ t, step { aab with state := .done, script := [.regWrite 0 3] } = .next t ∧ (t.state == .idle) = true) ∧
    (∃ t, step { aab with state := .error, script := [.reset] } = .next t ∧ (t.state == .idle) = true) ∧
    ∃ t, step (busyIn .encode 2 aab) = .next t ∧ (t.phase == 3) = true := by
  have h := witness_loaded 1 [0x61] (by have := inCap_bounds.1; simp; omega)
  exact ⟨⟨_, _, rfl, h.step_start (.inl ⟨rfl, rfl⟩), rfl⟩, witness_EveryStepKeepsTheInvariant.2,
    exists_of_holdsNext (p := fun t => t.state == .error) (by decide +kernel),
    exists_of_holdsNext (p := fun t => t.state == .idle) (by decide +kernel),
    exists_of_holdsNext (p := fun t => t.state == .idle) (by decide +kernel),
    exists_of_holdsNext (p := fun t => t.phase == 3) (by decide +kernel)⟩

/-- Every phase answers a next state somewhere, on both sides of its alternatives (the states of the tests above); here the
ones that raise or finish. -/
theorem witness_PhasesFollowTheirSequence :
    (∃ t, exec .hdrEmit (busyIn .encode 6 State.reset) = .next t ∧ (t.state == .done) = true) ∧
    (∃ t, exec .encBody (busyIn .encode 7 aab) = .next t ∧ (t.state == .error) = true) ∧
    (∃ t, exec .hdrParse (busyIn .decode 9 aab) = .next t ∧ (t.state == .error) = true) ∧
    (∃ t, exec .hdrCheck (busyIn .decode 10 State.reset) = .next t ∧ (t.state == .done) = true) ∧
    ∃ t, exec .decWalk (busyIn .decode 11 State.reset) = .next t ∧ (t.state == .done) = true :=
  ⟨exists_of_holdsNext (p := fun t => t.state == .done) (by decide +kernel), exists_of_holdsNext (p := fun t => t.state == .error) (by decide +kernel),
    exists_of_holdsNext (p := fun t => t.state == .error) (by decide +kernel), exists_of_holdsNext (p := fun t => t.state == .done) (by decide +kernel),
    exists_of_holdsNext (p := fun t => t.state == .done) (by decide +kernel)⟩

theorem witness_DoneLineFollowsState : doneLine { aab with state := .done } = true ∧
    ∃ t, step { aab with state := .done, script := [.regWrite 0 3] } = .next t ∧ (!doneLine t) = true :=
  ⟨rfl, exists_of_holdsNext (p := fun t => !doneLine t) (by decide +kernel)⟩

/-! Host transactions: every clause's register number, at its boundaries. -/

theorem witness_RegWriteActsByRegisterNumber :
    ({ aab with script := [.regWrite 4 7] } : State).script = .regWrite 4 7 :: [] ∧ (0 : Word).toNat = 0 ∧
    decodeCtrl 3 = .ok .clear ∧ decodeCtrl 4 = .error .reservedBits ∧ (4 : Word).toNat = 4 ∧ aab.state ≠ .busy ∧
    (busyIn .encode 7 aab).state = .busy ∧ decodePhase (busyIn .encode 7 aab).phase = .ok .encBody ∧
    (3 : Word).toNat ≠ 0 ∧ (3 : Word).toNat ≠ 4 ∧ (5 : Word).toNat ≠ 4 := by
  refine ⟨rfl, rfl, rfl, rfl, rfl, by decide, rfl, rfl, by decide, by decide, by decide⟩

theorem witness_RegReadReturnsTheRegister :
    ({ aab with script := [.regRead 8] } : State).script = .regRead 8 :: [] ∧ (0 : Word).toNat = 0 ∧ 9 ≤ (9 : Word).toNat ∧
    (1 : Word).toNat = 1 ∧ (8 : Word).toNat = 8 ∧ aab.state ≠ .busy ∧ (busyIn .encode 7 aab).state = .busy := by
  refine ⟨rfl, rfl, by decide, rfl, rfl, by decide, rfl⟩

/-- The last address below `IN_CAP`, the first one past it, and a write that waits. -/
theorem witness_InWriteStoresBelowCapacity :
    (BitVec.ofNat 64 (Config.inCap - 1)).toNat < Config.inCap ∧ Config.inCap ≤ (BitVec.ofNat 64 Config.inCap).toNat ∧
    aab.state ≠ .busy ∧ (busyIn .encode 7 aab).state = .busy ∧ decodePhase (busyIn .encode 7 aab).phase = .ok .encBody := by
  have := inCap_bounds
  refine ⟨?_, ?_, by decide, rfl, rfl⟩
  · rw [BitVec.toNat_ofNat, Nat.mod_eq_of_lt (by omega)]; omega
  · rw [BitVec.toNat_ofNat, Nat.mod_eq_of_lt (by omega)]

/-- The last unread byte, and none left, IDLE and BUSY. -/
theorem witness_OutPopDeliversInOrder :
    ({ aab with out := [1, 2], outRd := 1, script := [.outPop] } : State).outRd.toNat < [1, 2].length ∧
    ({ aab with out := [1, 2], outRd := 2, script := [.outPop] } : State).out.length ≤ (2 : Word).toNat ∧ aab.state ≠ .busy ∧
    (busyIn .encode 7 aab).out.length ≤ (busyIn .encode 7 aab).outRd.toNat ∧
    decodePhase (busyIn .encode 7 aab).phase = .ok .encBody := by
  refine ⟨by decide, by decide, by decide, by decide, rfl⟩

/-- A BUSY block whose host wants to write `IN_BUF`, and one whose host wants to write `IN_LEN`. -/
theorem witness_HostCannotChangeTheInputWhileBusy :
    (∃ t, step { flushing with script := [.inWrite 0 1] } = .next t ∧ (t.script == [.inWrite 0 1]) = true) ∧
    ∃ t, step { flushing with script := [.regWrite 4 1] } = .next t ∧ (t.script == [.regWrite 4 1]) = true :=
  ⟨exists_of_holdsNext (p := fun t => t.script == [.inWrite 0 1]) (by decide +kernel),
    exists_of_holdsNext (p := fun t => t.script == [.regWrite 4 1]) (by decide +kernel)⟩

/-- A phase that emits, a pop, and an accepted CLEAR. -/
theorem witness_OutputGrowsOnlyByAppending :
    (∃ t, step { flushing with acc := 0x20, nbits := 3 } = .next t ∧ (t.out == [0x20]) = true) ∧
    (∃ t, step { aab with out := [7], script := [.outPop] } = .next t ∧ (t.replies == [.byte 7]) = true) ∧
    ∃ t, step { aab with state := .done, out := [7], script := [.regWrite 0 3] } = .next t ∧ (t.out == []) = true :=
  ⟨exists_of_holdsNext (p := fun t => t.out == [0x20]) (by decide +kernel),
    exists_of_holdsNext (p := fun t => t.replies == [.byte 7]) (by decide +kernel),
    exists_of_holdsNext (p := fun t => t.out == []) (by decide +kernel)⟩

theorem witness_WaitAndDrainExpand : ({ aab with script := [.wait] } : State).script = .wait :: [] ∧ aab.state ≠ .busy ∧
    ({ aab with script := [.drain] } : State).script = .drain :: [] ∧ (busyIn .encode 7 aab).state = .busy ∧
    decodePhase (busyIn .encode 7 aab).phase = .ok .encBody := by
  refine ⟨rfl, by decide, rfl, rfl, rfl⟩

/-! The phases. -/

theorem aab_holds : aab.inBuf.holds 0 [0x61, 0x61, 0x62] := memFrom_holds [0x61, 0x61, 0x62] 0 [] (by simp)

theorem witness_FcCountCountsTheInput : ([0x61, 0x61, 0x62] : List Byte).length = (busyIn .encode 2 aab).len.toNat ∧
    (busyIn .encode 2 aab).inBuf.holds 0 [0x61, 0x61, 0x62] := ⟨rfl, aab_holds⟩

theorem witness_CountsAreExactAndSumToLength : (busyIn .encode 2 aab).freq = Vector.replicate 256 0 ∧
    (busyIn .encode 2 aab).inBuf.holds 0 [0x61, 0x61, 0x62] ∧
    (∃ t, exec .fcCount (busyIn .encode 2 aab) = .next t ∧ (t.phase == 3) = true) ∧
    ∃ t, exec .bwFlush flushing = .next t ∧ (t.state == .done) = true :=
  ⟨rfl, aab_holds, exists_of_holdsNext (p := fun t => t.phase == 3) (by decide +kernel),
    exists_of_holdsNext (p := fun t => t.state == .done) (by decide +kernel)⟩

/-- FC_COUNT and HDR_PARSE: byte 0 missing under a length of 2056. -/
theorem witness_UnwrittenInputByteFaults : ∃ s : State, 0 < s.len.toNat ∧ 0 < Config.inCap ∧ s.inBuf.read 0 = none ∧
    (∀ k, k < 0 → s.inBuf.read k ≠ none) ∧ 2056 ≤ s.len.toNat := by
  have := inCap_bounds.1
  exact ⟨{ State.reset with len := 2056 }, by decide, by omega, rfl, by omega, by decide⟩

/-- ENC_BODY: the bytes of "aab" are there and coded, the fourth is missing. -/
theorem witness_UnwrittenInputByteOfEncBody : aab.inBuf.holds 0 [0x61, 0x61, 0x62] ∧
    (∀ b ∈ ([0x61, 0x61, 0x62] : List Byte), (codeAt codesAab.code b).len ≠ 0) ∧
    3 < ({ aab with ct := codesAab, len := 4 } : State).len.toNat ∧ 3 < Config.inCap ∧ aab.inBuf.read 3 = none := by
  have := inCap_bounds.1
  exact ⟨aab_holds, by decide +kernel, by decide, by omega, by decide +kernel⟩

/-- A queue of two leaves, an empty queue and a full one. -/
theorem witness_QueueKeepsItsContract : leavesAab.HeapOk ∧ 1 ≤ leavesAab.pqSize.val ∧ leavesAab.pqSize.val < 256 ∧
    TreeBuilder.zero.HeapOk ∧ TreeBuilder.zero.pqSize.val = 0 ∧ ({ TreeBuilder.zero with pqSize := 256 } : TreeBuilder).HeapOk := by
  refine ⟨?_, by decide, by decide, ?_, rfl, ?_⟩
  · intro k h1 h2
    have hk : k = 1 := Fin.ext (by have : leavesAab.pqSize.val = 2 := rfl; omega)
    subst hk
    decide +kernel
  · intro k _ h
    exact absurd h (by show ¬ k.val < 0; omega)
  · intro k _ _
    have e : ∀ j : Fin 256, heapAt TreeBuilder.zero.heap j = 0 := fun j => by simp [heapAt, TreeBuilder.zero]
    show less _ (heapAt TreeBuilder.zero.heap k) (heapAt TreeBuilder.zero.heap (parent k)) = false
    rw [e, e]
    exact less_irrefl _ 0

/-- The clause of two leaves and more. -/
theorem witness_TbMergeMergesTheLeastTwo :
    ({ aab with tree := leavesAab, symCount := 2 } : State).symCount ≠ 1 ∧
    leavesAab.QueueOk ∧ 1 ≤ leavesAab.pqSize.val ∧ leavesAab.next.val + leavesAab.pqSize.val ≤ 512 ∧ leavesAab.members = [1, 0] := by
  have hm : leavesAab.members = [1, 0] := by decide +kernel
  refine ⟨by decide, ⟨witness_QueueKeepsItsContract.1, by rw [hm]; decide, by rw [hm]; decide +kernel⟩, by decide, by decide, hm⟩

/-- The clause of one leaf. -/
theorem witness_TbMergeOfOneSymbol : ∃ s : State, s.symCount = 1 ∧ s.tree.pqSize = 1 :=
  ⟨{ aab with tree := { leavesAab with pqSize := 1 }, symCount := 1 }, rfl, rfl⟩

/-- The counts of "aab", on which both phases answer (build_next). -/
theorem aab_symbols : symbolsOf freqAab = [0x61, 0x62] := by decide +kernel

/-- A state about to build the tree of "aab". -/
def building : State := { busyIn .encode 3 aab with freq := freqAab, origLen := 3 }

theorem witness_BuiltTree : symbolsOf building.freq ≠ [] ∧ countSum building.freq = building.origLen.toNat ∧
    ∃ a, exec .tbLeaves building = .next a ∧ (a.phase == 4) = true := by
  refine ⟨?_, by decide +kernel, exists_of_holdsNext (p := fun t => t.phase == 4) (by decide +kernel)⟩
  show symbolsOf freqAab ≠ []
  rw [aab_symbols]; simp

/-- For BuiltTreeHasTheStatedShape, BuiltTreeHasTheTreeInvariants and TreeDependsOnCountsAlone (the second state differs in its arena). -/
theorem witness_TreeDependsOnCountsAlone : symbolsOf building.freq ≠ [] ∧
    (∃ a, exec .tbLeaves building = .next a ∧ (a.phase == 4) = true) ∧
    ∃ a, exec .tbLeaves { building with tree := treeAab } = .next a ∧ (a.phase == 4) = true :=
  ⟨witness_BuiltTree.1, witness_BuiltTree.2.2, exists_of_holdsNext (p := fun t => t.phase == 4) (by decide +kernel)⟩

theorem treeAab_reads : Reads treeAab.node 3 treeAab.root (.node (.leaf 0x61) (.leaf 0x62)) := by
  simp only [Reads]
  decide +kernel

/-- For CtWalkRecordsThePaths and CodesFormAPrefixCode: the tree of "aab", and CT_WALK answers on it. -/
theorem witness_CtWalk : TreeOk treeAab.node treeAab.root ∧
    (∃ t, exec .ctWalk { busyIn .encode 5 aab with tree := treeAab } = .next t ∧ (t.phase == 6) = true) ∧
    LeafPath treeAab.node treeAab.root [true] 0x62 :=
  ⟨treeOk_of_reads treeAab_reads (by decide) (by decide), exists_of_holdsNext (p := fun t => t.phase == 6) (by decide +kernel),
    (leafPath_iff treeAab_reads).2 ⟨rfl, rfl⟩⟩

theorem witness_ExactlyTheCountedBytesHaveCodes : building.op = .encode ∧ symbolsOf building.freq ≠ [] ∧
    ∃ a, exec .tbLeaves building = .next a ∧ ∃ b, exec .tbMerge a = .next b := by
  refine ⟨rfl, witness_BuiltTree.1, ?_⟩
  obtain ⟨u, v, l, r, -, e1, e2, -⟩ := build_next building witness_BuiltTree.1
  exact ⟨_, e1, _, e2 4⟩

theorem witness_HdrEmitWritesTheHeader : (busyIn .encode 6 aab).len ≠ 0 ∧ (busyIn .encode 6 State.reset).len = 0 := by decide

/-- Every byte coded; and `b` without a code at index 2. -/
theorem witness_EncBodyWritesTheCodes : aab.inBuf.holds 0 [0x61, 0x61, 0x62] ∧
    ([0x61, 0x61, 0x62] : List Byte).length = (busyIn .encode 7 aab).len.toNat ∧
    (∀ b ∈ ([0x61, 0x61, 0x62] : List Byte), (codeAt codesAab.code b).len ≠ 0) ∧
    ([0x61, 0x61, 0x62] : List Byte) = [0x61, 0x61] ++ 0x62 :: [] ∧
    (∀ x ∈ ([0x61, 0x61] : List Byte), (codeAt (codeSet codesAab.code 0x62 CodeEntry.empty) x).len ≠ 0) ∧
    (codeAt (codeSet codesAab.code 0x62 CodeEntry.empty) 0x62).len = 0 := by
  refine ⟨aab_holds, rfl, by decide +kernel, rfl, by decide +kernel, by decide +kernel⟩

theorem witness_BwPutBitFillsFromTheTop : ({ aab with nbits := 7 } : State).nbits = 7 ∧ aab.nbits ≠ 7 := by decide

theorem witness_WriterDropsNoBit : aab.nbits = 0 ∧ aab.acc = 0 := ⟨rfl, rfl⟩

theorem witness_BwFlushPadsAndFinishes : aab.nbits = 0 ∧ ({ aab with nbits := 1 } : State).nbits ≠ 0 := by decide

/-- The writer's bits 0 0 1 become the byte `20`, which a reader with one more byte after it has before it. -/
theorem witness_ReaderReturnsWhatTheWriterWrote : aab.nbits = 0 ∧ aab.acc = 0 ∧
    (∃ t, exec .bwFlush (bwPutBits [false, false, true] aab) = .next t ∧ (t.out == aab.out ++ [0x20]) = true) ∧
    ∃ r : State, r.rdNbits = 0 ∧ Unread r ([0x20] ++ [0xff]) := by
  refine ⟨rfl, rfl, exists_of_holdsNext (p := fun t => t.out == aab.out ++ [0x20]) (by decide +kernel),
    { State.reset with inBuf := memFrom 0 [0x20, 0xff], len := 2 }, rfl, memFrom_holds [0x20, 0xff] 0 [] (by simp), rfl⟩

/-- No byte left; a byte to fetch; one bit held and eight bits held. -/
theorem witness_BrGetBitDeliversTheTopBit : aab.rdNbits = 0 ∧ aab.len ≤ aab.inPtr ∧
    (busyIn .decode 11 aab).inPtr < (busyIn .decode 11 aab).len ∧ aab.inBuf.read aab.inPtr.toNat = some 0x61 ∧
    ({ aab with rdNbits := 1 } : State).rdNbits.val = (0 : Fin 9).val + 1 ∧
    ({ aab with rdNbits := 8 } : State).rdNbits.val = (7 : Fin 9).val + 1 := by
  refine ⟨rfl, by decide, by decide, rfl, rfl, rfl⟩

/-- 2055 and 2056 bytes. -/
theorem witness_HdrParseReadsTheHeader : ({ State.reset with len := 2055 } : State).len.toNat < 2056 ∧
    ∃ (s : State) (hdr : List Byte), 2056 ≤ s.len.toNat ∧ hdr.length = 2056 ∧ s.inBuf.holds 0 hdr :=
  ⟨by decide, { State.reset with inBuf := memFrom 0 (headerBytes 3 freqAab), len := 2056 }, headerBytes 3 freqAab, by decide,
    length_headerBytes _ _, memFrom_holds _ 0 [] (by simp)⟩

/-- No symbols but a length; symbols and a wrong sum; both zero; a legal header. -/
theorem witness_HdrCheckChecksCountsAgainstLength : symbolsOf (Vector.replicate 256 0) = [] ∧
    countSum (Vector.replicate 256 0) = (0 : Word).toNat ∧ symbolsOf freqAab ≠ [] ∧ countSum freqAab ≠ (4 : Word).toNat ∧
    countSum freqAab = (3 : Word).toNat := by
  refine ⟨by decide +kernel, by decide +kernel, ?_, by decide +kernel, by decide +kernel⟩
  rw [aab_symbols]; simp

/-- DEC_WALK with the body `20` before it. -/
def walking : State :=
  { State.reset with
    state := .busy, op := .decode, phase := 11, len := 2057, inPtr := 2056, origLen := 3, tree := treeAab
    inBuf := [(2056, 0x20)] }

theorem witness_DecWalkFollowsTheBits : walking.rdNbits = 0 ∧ Unread walking [0x20] :=
  ⟨rfl, memFrom_holds [0x20] 2056 [] (by simp), rfl⟩

/-- DEC_WALK: one byte of the body of "aab" is there, the next is missing; three symbols need only the first, nine need
more, and with `IN_PTR` moved past the first byte `BR_GET_BIT` needs the missing one. -/
def missing : State := { walking with len := 2, inPtr := 0, inBuf := [(0, 0x20)] }

theorem witness_UnwrittenInputByteOfDecWalk : missing.rdNbits = 0 ∧ missing.inBuf.holds missing.inPtr.toNat [0x20] ∧
    1 < missing.len.toNat ∧ 1 < Config.inCap ∧ missing.inBuf.read 1 = none ∧
    (refWalk treeAab.node treeAab.root treeAab.root .atRoot 3 (bytesBits [0x20])).how ≠ .truncated ∧
    (refWalk treeAab.node treeAab.root treeAab.root .atRoot 9 (bytesBits [0x20])).how = .truncated ∧
    ({ missing with inPtr := 1 } : State).inPtr < ({ missing with inPtr := 1 } : State).len := by
  have := inCap_bounds.1
  exact ⟨rfl, memFrom_holds [0x20] 0 [] (by simp), by decide, by omega, by decide, by decide +kernel, by decide +kernel, by decide⟩

/-- The walk finishes at 2057, with other bytes from there on and a longer `LEN`. -/
theorem witness_DecWalkIgnoresSurplusInput :
    ∃ t, exec .decWalk walking = .next t ∧ (t.state == .done && t.inPtr == 2057) = true ∧ t.inPtr ≤ 2058 ∧
      ∀ a, a < t.inPtr.toNat → Memory.read [(2056, 0x20), (2057, 0xff)] a = walking.inBuf.read a := by
  obtain ⟨t, e, h⟩ := exists_of_holdsNext (p := fun t => t.state == .done && t.inPtr == 2057) (o := exec .decWalk walking) (by decide +kernel)
  have hp : t.inPtr = 2057 := by simp at h; exact h.2
  refine ⟨t, e, h, by rw [hp]; decide, fun a ha => ?_⟩
  rw [hp] at ha
  have hn : (2057 : Word).toNat = 2057 := rfl
  rw [hn] at ha
  have h : ¬ 2057 = a := by omega
  simp only [walking, Memory.read, if_neg h]

/-- Each phase's frame is about states that exist: two of them, one with a store to `OUT`. -/
theorem witness_PhasesKeepTheirFrames : (∃ t, exec .encBody { busyIn .encode 7 aab with ct := codesAab, nbits := 5 } = .next t ∧ (t.out.length == 1) = true) ∧
    ∃ t, exec .decWalk walking = .next t ∧ (t.out.length == 3) = true :=
  ⟨exists_of_holdsNext (p := fun t => t.out.length == 1) (by decide +kernel),
    exists_of_holdsNext (p := fun t => t.out.length == 3) (by decide +kernel)⟩

theorem witness_RaiseStopsTheCommand : (busyIn .encode 7 aab).script = [] := rfl

end Sys2Proof.Tests
end

section
/-! The tree invariants of 10_state R46: every leaf entry of the arena that TB_MERGE leaves is reached by exactly one path,
and each counted byte value has exactly one leaf entry; no later phase changes the tree. -/
namespace Sys2Proof.Machine

/-! ### Leaf entries of the arena -/

/-- Following a path inside a tree stays below the tree's bound. -/
theorem Reads.follow_lt {node : Arena} {bound : Nat} {p : List Bool} :
    ∀ {T : Shape} {i j : NodeIx}, Reads node bound i T → follow node i p = some j → j.val < bound := by
  induction p with
  | nil =>
    intro T i j h hf
    obtain rfl := Option.some.inj hf
    exact h.lt
  | cons v p ih =>
    intro T i j h hf
    cases T with
    | leaf y => simp [follow, h.2.1] at hf
    | placeholder => simp [follow, h.2] at hf
    | node l r =>
      obtain ⟨-, hk, hl, hr⟩ := h
      simp only [follow, hk, if_true] at hf
      cases v
      · exact ih hl hf
      · exact ih hr hf

/-- A written entry of the arena that holds a leaf. -/
def IsLeafEntry (t : TreeBuilder) (i : NodeIx) : Prop := i.val < t.next.val ∧ (nodeAt t.node i).kind = .leaf

/-- The leaf entries are the first indices, one for each symbol in ascending order (42 R158, R164). -/
structure LeafEntries (freq : Freq) (t : TreeBuilder) : Prop where
  iff_lt : ∀ i, IsLeafEntry t i ↔ i.val < (symbolsOf freq).length
  node : ∀ (i : NodeIx) (h : i.val < (symbolsOf freq).length), nodeAt t.node i = leafNode freq (symbolsOf freq)[i.val]

theorem LeafEntries.sym_eq {freq : Freq} {t : TreeBuilder} (h : LeafEntries freq t) {i : NodeIx}
    (hi : i.val < (symbolsOf freq).length) : (nodeAt t.node i).sym = (symbolsOf freq)[i.val] := by
  rw [h.node i hi]; rfl

theorem LeafEntries.counted {freq : Freq} {t : TreeBuilder} (h : LeafEntries freq t) {i : NodeIx} (hi : IsLeafEntry t i) :
    freqAt freq (nodeAt t.node i).sym ≠ 0 := by
  have hlt := (h.iff_lt i).1 hi
  rw [h.sym_eq hlt]
  exact mem_symbolsOf.1 (List.getElem_mem hlt)

theorem LeafEntries.eq_of_sym {freq : Freq} {t : TreeBuilder} (h : LeafEntries freq t) {i j : NodeIx}
    (hi : IsLeafEntry t i) (hj : IsLeafEntry t j) (e : (nodeAt t.node i).sym = (nodeAt t.node j).sym) : i = j := by
  have hilt := (h.iff_lt i).1 hi
  have hjlt := (h.iff_lt j).1 hj
  rw [h.sym_eq hilt, h.sym_eq hjlt] at e
  exact Fin.ext ((nodup_symbolsOf freq).getElem_inj_iff.1 e)

theorem LeafEntries.exists_sym {freq : Freq} {t : TreeBuilder} (h : LeafEntries freq t) {x : Byte} (hx : freqAt freq x ≠ 0) :
    ∃ i, IsLeafEntry t i ∧ (nodeAt t.node i).sym = x := by
  obtain ⟨k, hk, rfl⟩ := List.mem_iff_getElem.1 (mem_symbolsOf.2 hx)
  have hlen := length_symbolsOf freq
  have hk' : (⟨k, by omega⟩ : NodeIx).val < (symbolsOf freq).length := hk
  exact ⟨_, (h.iff_lt _).2 hk', h.sym_eq hk'⟩

theorem Merged.leafEntries {freq : Freq} {t0 u v : TreeBuilder} (hm : Merged (symbolsOf freq).length u v)
    (hu : LeavesOk freq t0 256 u) : LeafEntries freq v := by
  have hs := symsBelow_all freq
  have hnode : ∀ (i : NodeIx) (h : i.val < (symbolsOf freq).length),
      nodeAt v.node i = leafNode freq (symbolsOf freq)[i.val] := fun i h => by
    rw [hm.leaves i h, hu.leaves i (hs ▸ h)]
    simp only [hs]
  refine ⟨fun i => ⟨fun ⟨hlt, hk⟩ => ?_, fun h => ⟨?_, by rw [hnode i h]; rfl⟩⟩, hnode⟩
  · by_contra hge
    rw [(hm.internal i (by omega) hlt).1] at hk
    cases hk
  · have := hm.next
    omega

/-- The degenerate tree: entry 0 is the leaf, 1 the placeholder and 2 the internal root (42 R162). -/
theorem Built.leafEntries_of_single {freq : Freq} {v : TreeBuilder} {l r : Shape} {x : Byte} (hb : Built freq v l r)
    (hx : symbolsOf freq = [x]) (hn : v.next = 3) (h0 : nodeAt v.node 0 = leafNode freq x)
    (h1 : (nodeAt v.node 1).kind = .placeholder) : LeafEntries freq v := by
  have hn3 : v.next.val = 3 := congrArg Fin.val hn
  have hroot := hb.root
  have zero_of_lt : ∀ i : NodeIx, i.val < (symbolsOf freq).length → i = 0 := fun i hi => by
    rw [hx, List.length_singleton] at hi
    exact Fin.ext (by simpa using hi)
  refine ⟨fun i => ⟨fun ⟨hlt, hk⟩ => ?_, fun hi => ?_⟩, fun i hi => ?_⟩
  · have ne1 : i ≠ 1 := by rintro rfl; rw [h1] at hk; cases hk
    have ne2 : i ≠ v.root := by rintro rfl; rw [hb.treeOk.rootInternal] at hk; cases hk
    have ne1' : i.val ≠ 1 := fun e => ne1 (Fin.ext e)
    have ne2' : i.val ≠ v.root.val := fun e => ne2 (Fin.ext e)
    rw [hx, List.length_singleton]
    omega
  · rw [zero_of_lt i hi]
    exact ⟨by rw [hn3]; decide, by rw [h0]; rfl⟩
  · obtain rfl := zero_of_lt i hi
    simp [h0, hx]

/-! ### One path to every leaf entry -/

/-- Every leaf entry is reached from the root by exactly one path, which is not empty: its byte value is counted, so some
path ends at a leaf of that value, and no other entry holds the value. -/
theorem Built.path_to_leafEntry {freq : Freq} {t : TreeBuilder} {l r : Shape} (hb : Built freq t l r)
    (hl : LeafEntries freq t) {i : NodeIx} (hi : IsLeafEntry t i) :
    ∃ p, follow t.node t.root p = some i ∧ 1 ≤ p.length ∧ ∀ q, follow t.node t.root q = some i → q = p := by
  obtain ⟨p, j, hj, hjk, hjs⟩ := hb.symbols.2 (hl.counted hi)
  obtain rfl : j = i := hl.eq_of_sym ⟨hb.reads.follow_lt hj, hjk⟩ hi hjs
  refine ⟨p, hj, List.length_pos_iff.2 ?_, fun q hq => ?_⟩
  · rintro rfl
    obtain rfl : t.root = j := Option.some.inj hj
    rw [hb.treeOk.rootInternal] at hjk
    cases hjk
  · exact hb.treeOk.onePath q p _ ⟨j, hq, hjk, rfl⟩ ⟨j, hj, hjk, rfl⟩

/-- When the exact sum of the counts fits a word, it is the root's weight. -/
theorem Built.weight_of_countSum {freq : Freq} {t : TreeBuilder} {l r : Shape} {v : Word} (hb : Built freq t l r)
    (hv : countSum freq = v.toNat) : (nodeAt t.node t.root).weight = v := by
  rw [hb.weight, sum_symbols, hv, BitVec.ofNat_toNat, BitVec.setWidth_eq]

/-- TB_LEAVES and then TB_MERGE on a table with a symbol: the tree is built and its leaf entries are the symbols. -/
theorem build_leafEntries {s a : State} (hne : symbolsOf s.freq ≠ []) (ha : exec .tbLeaves s = .next a) :
    ∃ b l r, exec .tbMerge a = .next b ∧ Built s.freq b.tree l r ∧ LeafEntries s.freq b.tree := by
  obtain ⟨u, v, l, r, hu, e1, e2, hb, single, several⟩ := build_next s hne
  obtain rfl := Host.Outcome.next.inj (e1.symm.trans ha)
  refine ⟨_, l, r, e2 4, hb, ?_⟩
  have hpos := List.length_pos_iff.2 hne
  by_cases h1 : (symbolsOf s.freq).length = 1
  · obtain ⟨x, hx, -, -, hn, h0, hp⟩ := single h1
    exact hb.leafEntries_of_single hx hn h0 hp
  · exact (several (by omega)).leafEntries hu

/-! ### The tree in the later phases -/

theorem bwPutBits_tree (w : List Bool) (s : State) : (bwPutBits w s).tree = s.tree := by
  rw [bwPutBits_frame]

theorem WalkFrame.tree {s t : State} (h : WalkFrame s t) : t.tree = s.tree := by
  rw [h.state]

theorem execHdrEmit_tree {s t : State} (h : execHdrEmit s = .next t) : t.tree = s.tree := by
  rw [execHdrEmit_eq] at h
  obtain rfl := Host.Outcome.next.inj h
  split <;> rfl

theorem execEncBody_tree {s t : State} (h : execEncBody s = .next t) : t.tree = s.tree := by
  rcases execEncBody_next h with ⟨bs, -, -, -, rfl⟩ | ⟨bs, b, -, -, -, -, rfl⟩
  · exact bwPutBits_tree _ s
  · exact bwPutBits_tree _ s

theorem execBwFlush_tree {s t : State} (h : execBwFlush s = .next t) : t.tree = s.tree := by
  rw [execBwFlush_eq] at h
  obtain rfl := Host.Outcome.next.inj h
  split <;> rfl

theorem execDecWalk_tree {s t : State} (h : execDecWalk s = .next t) : t.tree = s.tree := by
  rcases execDecWalk_next h with ⟨u, hu, -, rfl⟩ | ⟨u, hu, -, ⟨rfl, -⟩ | ⟨rfl, -⟩⟩
  · exact hu.tree
  · exact hu.tree
  · exact hu.tree

/-- No phase after TB_MERGE changes the tree (10_state R46). -/
theorem laterPhases_keep_tree {i : Instr} {s t : State} (hi : i ∈ [Instr.ctWalk, .hdrEmit, .encBody, .bwFlush, .decWalk])
    (h : exec i s = .next t) : t.tree = s.tree := by
  simp only [List.mem_cons, List.not_mem_nil, or_false] at hi
  rcases hi with rfl | rfl | rfl | rfl | rfl
  · obtain ⟨c, -, rfl⟩ := execCtWalk_next h
    rfl
  · exact execHdrEmit_tree h
  · exact execEncBody_tree h
  · exact execBwFlush_tree h
  · exact execDecWalk_tree h

/-- Settles O35: the finished tree's leaf entries are the symbols, one each, and its shape has one path per symbol. -/
theorem builtTreeHasTheTreeInvariants : Obligations.BuiltTreeHasTheTreeInvariants := by
  refine ⟨fun s a ha hne hsum => ?_, fun i s t hi h => laterPhases_keep_tree hi h⟩
  obtain ⟨b, l, r, e, hb, hl⟩ := build_leafEntries hne ha
  refine ⟨b, e, hb.treeOk.rootInternal, fun i hlt hk => hb.path_to_leafEntry hl ⟨hlt, hk⟩, fun x hx => ?_,
    hb.weight_of_countSum hsum, hb.treeOk, fun x => hb.symbols⟩
  obtain ⟨i, hi, hix⟩ := hl.exists_sym hx
  exact ⟨i, ⟨hi.1, hi.2, hix⟩, fun j hlt hk hjx => hl.eq_of_sym ⟨hlt, hk⟩ hi (hjx.trans hix.symm)⟩

end Sys2Proof.Machine
end

section
/-! The host's access to the input while BUSY (20_memory R80): no step but the reset input changes `IN_BUF` or `IN_LEN`, and
a transaction that would change them waits at the head of the script. -/
namespace Sys2Proof.Machine

/-! ### What a step does to the input -/

/-- The bytes of the input and their number are the same in both states. -/
structure SameInput (s t : State) : Prop where
  inBuf : t.inBuf = s.inBuf
  inLen : t.inLen = s.inLen

theorem TurnOf.sameInput {s s0 : State} (h : TurnOf s s0) : SameInput s s0 := by
  obtain ⟨l, rfl⟩ := h.fields
  exact ⟨rfl, rfl⟩

/-- A phase never touches the input, be the turn the core's own or given to it by a `yield`. -/
theorem TurnOf.phase_sameInput {p : BitVec 4} {i : Instr} {s s0 t : State} (turn : TurnOf s s0)
    (hp : decodePhase p = .ok i) (h : exec i s0 = .next t) : SameInput s t := by
  have effect := phase_effect hp h
  exact ⟨effect.inBuf.trans turn.sameInput.inBuf, effect.inLen.trans turn.sameInput.inLen⟩

/-- No command touches the input; ENCODE and DECODE copy `IN_LEN` to `LEN` (40_commands R130). -/
theorem command_sameInput {v : Word} {i : Instr} {s t : State} (hd : decodeCtrl v = .ok i) (h : exec i s = .next t) :
    SameInput s t := by
  rcases command_cases hd h with ⟨-, rfl⟩ | ⟨-, rfl⟩ | ⟨-, -, op, rfl⟩ | ⟨-, -, rfl⟩
  · exact ⟨rfl, rfl⟩
  · exact ⟨rfl, rfl⟩
  · exact ⟨rfl, rfl⟩
  · exact ⟨rfl, rfl⟩

/-- `IN_LEN` is the only register a plain register write has an effect on (40_commands R120). -/
theorem regWrite_of_ne_inLen {r v : Word} {s : State} (hr : r.toNat ≠ 4) : regWrite r v s = s := if_neg hr

/-- Among the steps of the machine only a write to `IN_LEN`, an `InWrite` and the reset input can change the input; the
first two do not happen while BUSY. -/
theorem Stepped.sameInput_of_busy {s t : State} (h : Stepped s t) (busy : s.state = .busy)
    (noReset : s.script.head? ≠ some .reset) : SameInput s t := by
  cases h with
  | phase i s0 turn _ dec run => exact turn.phase_sameInput dec run
  | quiet s0 turn notBusy eq => exact absurd busy notBusy
  | command r v rest i head ctrl dec run =>
    obtain ⟨inBuf, inLen⟩ := command_sameInput dec run
    exact ⟨inBuf, inLen⟩
  | illegal r v rest e head ctrl dec eq => subst eq; exact ⟨rfl, rfl⟩
  | regWrite r v rest head other free eq =>
    rw [regWrite_of_ne_inLen fun h4 => free h4 busy] at eq
    subst eq
    exact ⟨rfl, rfl⟩
  | regRead r rest head eq => subst eq; exact ⟨rfl, rfl⟩
  | inWrite a b rest head free eq => exact absurd busy free
  | outPop rest head hlt eq => subst eq; exact ⟨rfl, rfl⟩
  | drain rest head eq => subst eq; exact ⟨rfl, rfl⟩
  | reset rest head eq => exact absurd (by rw [head]; rfl) noReset

/-! ### The transactions that wait -/

/-- An `InWrite` or a write to `IN_LEN` cannot complete while BUSY (20_memory R80). -/
theorem opEnabled_eq_false_of_busy {s : State} {op : HostOp} (busy : s.state = .busy)
    (writes : (∃ a b, op = .inWrite a b) ∨ ∃ r v, op = .regWrite r v ∧ r.toNat = 4) : opEnabled s op = false := by
  rcases writes with ⟨a, b, rfl⟩ | ⟨r, v, rfl, hr⟩
  · simp [opEnabled, busy]
  · simp [opEnabled, busy, hr]

/-- While BUSY a host action that has to wait leaves the step to the core, on the state as it is. -/
theorem nextAction_of_waiting {s : State} {op : HostOp} {rest : List HostOp} (head : s.script = op :: rest)
    (waits : opEnabled s op = false) (busy : s.state = .busy) : nextAction s = coreTurn s := by
  simp [nextAction, head, waits, busy]

/-- A step with a waiting action at the head is a phase of the running command, and the action is still pending. -/
theorem step_script_of_waiting {s t : State} {op : HostOp} {rest : List HostOp} (head : s.script = op :: rest)
    (waits : opEnabled s op = false) (busy : s.state = .busy) (h : step s = .next t) : t.script = s.script := by
  rw [step, nextAction_of_waiting head waits busy] at h
  cases hd : decodePhase s.phase with
  | ok i =>
    have run : exec i s = .next t := by simpa [coreTurn, busy, hd] using h
    exact (phase_effect hd run).script
  | error e => simp [coreTurn, busy, hd] at h

/-- Settles O23: the input is the same after every kind of step, and the head that would change it has to wait. -/
theorem hostCannotChangeTheInputWhileBusy : Obligations.HostCannotChangeTheInputWhileBusy := by
  intro s t busy h noReset
  obtain ⟨inBuf, inLen⟩ := (step_stepped h).sameInput_of_busy busy noReset
  exact ⟨inBuf, inLen, fun op rest head writes =>
    step_script_of_waiting head (opEnabled_eq_false_of_busy busy writes) busy h⟩

end Sys2Proof.Machine
end

section
/-! The decoder and the encoder of selectors (30_encoding R91, R93): each is the inverse of the other, and the selectors that
decode are the well-formed ones. -/
namespace Sys2Proof.Laws
open Sys2Proof.Machine

/-- Every instruction has a legal selector, which decodes to it (30_encoding R91, R93). -/
theorem roundTrip (i : Instr) : RoundTrip.Statement i := by
  cases i with
  | nop => exact RoundTrip.nop
  | encode => exact RoundTrip.encode
  | decode => exact RoundTrip.decode
  | clear => exact RoundTrip.clear
  | fcClear => exact RoundTrip.fcClear
  | fcCount => exact RoundTrip.fcCount
  | tbLeaves => exact RoundTrip.tbLeaves
  | tbMerge => exact RoundTrip.tbMerge
  | ctWalk => exact RoundTrip.ctWalk
  | hdrEmit => exact RoundTrip.hdrEmit
  | encBody => exact RoundTrip.encBody
  | bwFlush => exact RoundTrip.bwFlush
  | hdrParse => exact RoundTrip.hdrParse
  | hdrCheck => exact RoundTrip.hdrCheck
  | decWalk => exact RoundTrip.decWalk

theorem wf_encode (i : Instr) : (encode i).wf = true := (roundTrip i).1

theorem decode_encode (i : Instr) : decode (encode i) = .ok i := (roundTrip i).2

theorem eq_encode_of_decode {sel : Selector} {i : Instr} (h : decode sel = .ok i) : sel = encode i := by
  cases sel with
  | ctrl w => rcases decodeCtrl_ok h with ⟨rfl, rfl⟩ | ⟨rfl, rfl⟩ | ⟨rfl, rfl⟩ | ⟨rfl, rfl⟩ <;> rfl
  | phase p =>
    rcases decodePhase_ok h with ⟨rfl, rfl⟩ | ⟨rfl, rfl⟩ | ⟨rfl, rfl⟩ | ⟨rfl, rfl⟩ | ⟨rfl, rfl⟩ | ⟨rfl, rfl⟩ | ⟨rfl, rfl⟩ |
      ⟨rfl, rfl⟩ | ⟨rfl, rfl⟩ | ⟨rfl, rfl⟩ | ⟨rfl, rfl⟩ <;> rfl

theorem decode_eq_ok_iff {sel : Selector} {i : Instr} : decode sel = .ok i ↔ sel = encode i :=
  ⟨eq_encode_of_decode, fun h => h ▸ decode_encode i⟩

/-- The four legal command words (30_encoding R91). -/
theorem decode_ctrl_eq_ok_iff {w : Word} {i : Instr} : decode (.ctrl w) = .ok i ↔
    (w = 0x0 ∧ i = .nop) ∨ (w = 0x1 ∧ i = .encode) ∨ (w = 0x2 ∧ i = .decode) ∨ (w = 0x3 ∧ i = .clear) := by
  refine ⟨decodeCtrl_ok, ?_⟩
  rintro (⟨rfl, rfl⟩ | ⟨rfl, rfl⟩ | ⟨rfl, rfl⟩ | ⟨rfl, rfl⟩)
  · exact decode_encode .nop
  · exact decode_encode .encode
  · exact decode_encode .decode
  · exact decode_encode .clear

theorem decode_ctrl_eq_reservedBits_iff {w : Word} :
    decode (.ctrl w) = .error .reservedBits ↔ w.extractLsb' 2 62 ≠ 0 :=
  ⟨fun h => (decodeCtrl_error h).1, fun h => if_neg h⟩

/-- Of the sixteen phase codes those from 1 to 11 decode (30_encoding R93, R108). -/
theorem isOk_decodePhase (p : BitVec 4) : (decodePhase p).isOk = phaseCodeOk p := by
  revert p
  decide

/-- A selector that decodes to nothing is not well formed. -/
theorem not_wf_of_decode_error {sel : Selector} {e : DecodeError} (h : decode sel = .error e) : sel.wf = false := by
  cases sel with
  | ctrl w => exact beq_false_of_ne (decodeCtrl_error h).1
  | phase p =>
    have hp : decodePhase p = .error e := h
    have hok := isOk_decodePhase p
    rw [hp] at hok
    exact hok.symm

theorem wf_iff_decodes {sel : Selector} : sel.wf = true ↔ ∃ i, decode sel = .ok i := by
  constructor
  · intro hwf
    cases hd : decode sel with
    | ok i => exact ⟨i, rfl⟩
    | error e => simp [not_wf_of_decode_error hd] at hwf
  · rintro ⟨i, h⟩
    rw [eq_encode_of_decode h]
    exact wf_encode i

/-- Settles O7: what decodes is the encoding of what it decodes to, and the four command words are named one by one. -/
theorem decodeAndEncodeAgree : Obligations.DecodeAndEncodeAgree :=
  ⟨fun _ _ => decode_eq_ok_iff, fun _ _ => decode_ctrl_eq_ok_iff, fun _ => decode_ctrl_eq_reservedBits_iff,
    fun _ => wf_iff_decodes⟩

end Sys2Proof.Laws
end

section
/-! Which artifacts a DECODE accepts (30_encoding R109). The runs of `Laws/Runs.lean` say which state each kind of input ends
in; here they are read off, and the walk's end at the placeholder is settled by the shape of the tree. -/
namespace Sys2Proof.Machine

/-! ### The shape that a table of counts determines -/

theorem exists_canon {f : Freq} (hne : symbolsOf f ≠ []) : ∃ l r, Canon f l r := build_unique f hne

/-- One symbol: the degenerate tree, whichever state it is built in (42 R162). -/
theorem Canon.degenerate {f : Freq} {l r : Shape} (C : Canon f l r) (h1 : (symbolsOf f).length = 1) :
    ∃ x, l = .leaf x ∧ r = .placeholder := by
  obtain ⟨next, root, build⟩ := C
  obtain ⟨-, -, -, -, -, -, -, single, -⟩ := build { State.reset with freq := f } rfl
  obtain ⟨x, -, hl, hr⟩ := single h1
  exact ⟨x, hl, hr⟩

/-- Two or more symbols: no placeholder (42 R164). -/
theorem Canon.full {f : Freq} {l r : Shape} (C : Canon f l r) (h2 : 2 ≤ (symbolsOf f).length) : (Shape.node l r).Full := by
  obtain ⟨next, root, build⟩ := C
  obtain ⟨-, -, -, -, -, -, -, -, several⟩ := build { State.reset with freq := f } rfl
  exact several h2

/-! ### The walk over a built tree -/

/-- The decoder's walk from the root of a tree, `need` symbols to come (46 R220). -/
def TreeBuilder.walk (t : TreeBuilder) (need : Nat) (bits : List Bool) : WalkResult :=
  refWalk t.node t.root t.root .atRoot need bits

theorem TreeBuilder.walk_used_le (t : TreeBuilder) (need : Nat) (bits : List Bool) : (t.walk need bits).used ≤ bits.length :=
  refWalk_used_le t.node t.root bits t.root .atRoot need

theorem TreeBuilder.length_walk_of_finished {t : TreeBuilder} {need : Nat} {bits : List Bool}
    (h : (t.walk need bits).how = .finished) : (t.walk need bits).bytes.length = need :=
  (refWalk_bytes t.node t.root bits t.root .atRoot need).2.1 h

/-- A walk that does not finish emits fewer bytes than were needed. -/
theorem TreeBuilder.length_walk_lt {t : TreeBuilder} {need : Nat} {bits : List Bool}
    (h : (t.walk need bits).how ≠ .finished) : (t.walk need bits).bytes.length < need := by
  obtain ⟨atMost, finished_iff⟩ := refWalk_bytes t.node t.root bits t.root .atRoot need
  exact lt_of_le_of_ne atMost fun e => h (finished_iff.2 e)

/-- With two or more symbols no walk meets the placeholder (46 R222). -/
theorem Canon.walk_how_ne_placeholder {f : Freq} {t : TreeBuilder} {l r : Shape} (C : Canon f l r) (hb : Built f t l r)
    (h2 : 2 ≤ (symbolsOf f).length) (need : Nat) (bits : List Bool) : (t.walk need bits).how ≠ .placeholder :=
  refWalk_full hb.reads (C.full h2) bits hb.reads (C.full h2)

/-- With one symbol a walk meets it exactly at a 1 among the bits it needs (46 R222). -/
theorem Canon.walk_how_eq_placeholder_iff {f : Freq} {t : TreeBuilder} {l r : Shape} (C : Canon f l r) (hb : Built f t l r)
    (h1 : (symbolsOf f).length = 1) (need : Nat) (bits : List Bool) :
    (t.walk need bits).how = .placeholder ↔ true ∈ bits.take need := by
  obtain ⟨x, rfl, rfl⟩ := C.degenerate h1
  exact refWalk_degenerate hb.reads bits

/-! ### How a DECODE of a legal header ends -/

/-- `STATE` after a walk that ended so (46 R220). -/
def WalkEnd.state : WalkEnd → Proto
  | .finished => .done
  | .truncated => .error
  | .placeholder => .error

/-- `COND` after a walk that ended so (60_exceptions R236). -/
def WalkEnd.cond : WalkEnd → Cond
  | .finished => { code := .ok, sub := 0 }
  | .truncated => { code := .truncatedBitstream, sub := 0 }
  | .placeholder => { code := .malformedArtifact, sub := 4 }

/-- The last step of DEC_WALK: `finish` or the raise that the walk's end asks for (46 R220). -/
def WalkEnd.close (e : WalkEnd) (t : State) : State :=
  match e with
  | .finished => { t with cond := { code := .ok, sub := 0 }, errPos := 0, state := .done }
  | .truncated => { t with cond := { code := .truncatedBitstream, sub := 0 }, errPos := t.inPtr, state := .error }
  | .placeholder => { t with cond := { code := .malformedArtifact, sub := 4 }, errPos := t.inPtr, state := .error }

@[simp] theorem WalkEnd.close_state (e : WalkEnd) (t : State) : (e.close t).state = e.state := by cases e <;> rfl
@[simp] theorem WalkEnd.close_cond (e : WalkEnd) (t : State) : (e.close t).cond = e.cond := by cases e <;> rfl
@[simp] theorem WalkEnd.close_tree (e : WalkEnd) (t : State) : (e.close t).tree = t.tree := by cases e <;> rfl
@[simp] theorem WalkEnd.close_out (e : WalkEnd) (t : State) : (e.close t).out = t.out := by cases e <;> rfl
@[simp] theorem WalkEnd.close_bitCount (e : WalkEnd) (t : State) : (e.close t).bitCount = t.bitCount := by cases e <;> rfl

/-- The state `t` is what the walk `r` leaves: its bytes, its bits, its end. -/
structure WalkEnded (t : State) (r : WalkResult) : Prop where
  out : t.out = r.bytes
  bitCount : t.bitCount.toNat = r.used
  state : t.state = r.how.state
  cond : t.cond = r.how.cond

/-- Closing a walk keeps what it has emitted and counted, and sets `STATE` and `COND` by its end. -/
theorem walkEnded_close {t : State} {r : WalkResult} (hout : t.out = r.bytes) (hbits : t.bitCount.toNat = r.used) :
    WalkEnded (r.how.close t) r :=
  ⟨by simpa using hout, by simpa using hbits, by simp, by simp⟩

/-- `STATE`, `COND` and the number of bytes on `OUT` for each end of the walk (30_encoding R109). -/
theorem WalkEnded.report {t : State} {u : TreeBuilder} {need : Nat} {bits : List Bool} (w : WalkEnded t (u.walk need bits)) :
    match (u.walk need bits).how with
    | .finished => (t.state = .done ∧ t.cond = { code := .ok, sub := 0 }) ∧ t.out.length = need
    | .truncated => (t.state = .error ∧ t.cond = { code := .truncatedBitstream, sub := 0 }) ∧ t.out.length < need
    | .placeholder => (t.state = .error ∧ t.cond = { code := .malformedArtifact, sub := 4 }) ∧ t.out.length < need := by
  have hstate := w.state
  have hcond := w.cond
  rw [w.out]
  cases how : (u.walk need bits).how with
  | finished =>
    rw [how] at hstate hcond
    exact ⟨⟨hstate, hcond⟩, TreeBuilder.length_walk_of_finished how⟩
  | truncated =>
    rw [how] at hstate hcond
    exact ⟨⟨hstate, hcond⟩, TreeBuilder.length_walk_lt (by simp [how])⟩
  | placeholder =>
    rw [how] at hstate hcond
    exact ⟨⟨hstate, hcond⟩, TreeBuilder.length_walk_lt (by simp [how])⟩

theorem Loaded.out_eq_nil {s : State} {cmd : Word} {bs : List Byte} (h : Loaded s cmd bs) : s.out = [] := by
  obtain ⟨-, -, -, -, -, -, -, -, hout, -⟩ := h.inv.idle h.idle
  exact hout

/-- The upper end of the range of `IN_CAP` (00_scope R13). -/
theorem inCap_le : Config.inCap ≤ 2 ^ 56 := by
  unfold Config.inCap
  omega

/-- `BIT_COUNT` can count every bit of a body (00_scope R13). -/
theorem Loaded.length_bodyBits_lt {s : State} {cmd : Word} {bs : List Byte} (h : Loaded s cmd bs) (k : Nat) :
    (bytesBits (bs.drop k)).length < 2 ^ 64 := by
  have hcap := inCap_le
  have hfits := h.fits
  rw [length_bytesBits, List.length_drop]
  omega

/-- A counter that starts at 0 holds what is added to it, if that fits. -/
theorem toNat_zero_add_ofNat {n : Nat} (h : n < 2 ^ 64) : (0 + BitVec.ofNat 64 n : Word).toNat = n := by
  simp only [BitVec.ofNat_eq_ofNat, BitVec.zero_add, BitVec.toNat_ofNat]
  exact Nat.mod_eq_of_lt h

/-- A DECODE of a legal header ends as the walk over the body's bits does (46 R220). -/
theorem Loaded.decode_ends_as_walk {s : State} {bs : List Byte} (h : Loaded s 2 bs) (hl : 2056 ≤ bs.length)
    (hsum : countSum (headerFreq (bs.take 2056)) = (fieldAt (bs.take 2056) 0).toNat) (hne : fieldAt (bs.take 2056) 0 ≠ 0)
    {l r : Shape} (C : Canon (headerFreq (bs.take 2056)) l r) :
    ∃ t, steps 7 s = some t ∧ Built (headerFreq (bs.take 2056)) t.tree l r ∧
      WalkEnded t (t.tree.walk (fieldAt (bs.take 2056) 0).toNat (bytesBits (bs.drop 2056))) := by
  obtain ⟨tr, rb, rn, p, hb, -, run⟩ := decWalk h hl _ rfl _ rfl hsum hne C
  refine ⟨(tr.walk (fieldAt (bs.take 2056) 0).toNat (bytesBits (bs.drop 2056))).how.close _, run, ?_, ?_⟩
  · rw [WalkEnd.close_tree]
    exact hb
  · rw [WalkEnd.close_tree]
    refine walkEnded_close ?_ ?_
    · show s.out ++ _ = _
      rw [h.out_eq_nil]
      rfl
    · exact toNat_zero_add_ofNat ((tr.walk_used_le _ _).trans_lt (h.length_bodyBits_lt 2056))

/-- Settles O56: the checks of the header in their order, then the walk over the body. -/
theorem decodeAcceptsExactlyTheLegalArtifacts : Obligations.DecodeAcceptsExactlyTheLegalArtifacts := by
  intro s bs h
  by_cases short : bs.length < 2056
  · refine ⟨3, _, by decide, decShort h short, ?_⟩
    intro hdr bits len counts ends
    rw [if_pos short]
    exact ⟨rfl, rfl⟩
  have long : 2056 ≤ bs.length := not_lt.1 short
  obtain ⟨zeroSymbols, weightMismatch, emptyArtifact, -⟩ := decRun h long _ rfl _ rfl
  by_cases zero : symbolsOf (headerFreq (bs.take 2056)) = [] ∧ (fieldAt (bs.take 2056) 0).toNat ≠ 0
  · refine ⟨4, _, by decide, zeroSymbols zero.1 fun e => zero.2 (by rw [e]; rfl), ?_⟩
    intro hdr bits len counts ends
    rw [if_neg short, if_pos zero]
    exact ⟨rfl, rfl⟩
  by_cases mismatch : countSum (headerFreq (bs.take 2056)) ≠ (fieldAt (bs.take 2056) 0).toNat
  · have symbols : symbolsOf (headerFreq (bs.take 2056)) ≠ [] := fun e =>
      mismatch (by rw [countSum_eq_zero.2 e]; exact (not_not.1 fun hl => zero ⟨e, hl⟩).symm)
    refine ⟨4, _, by decide, weightMismatch symbols mismatch, ?_⟩
    intro hdr bits len counts ends
    rw [if_neg short, if_neg zero, if_pos mismatch]
    exact ⟨rfl, rfl⟩
  have sum_eq := not_not.1 mismatch
  by_cases noLength : (fieldAt (bs.take 2056) 0).toNat = 0
  · refine ⟨4, _, by decide, emptyArtifact sum_eq (BitVec.eq_of_toNat_eq noLength), ?_⟩
    intro hdr bits len counts ends
    rw [if_neg short, if_neg zero, if_neg mismatch, if_pos noLength]
    exact ⟨⟨rfl, rfl⟩, h.out_eq_nil⟩
  obtain ⟨l, r, C⟩ := exists_canon fun e => zero ⟨e, noLength⟩
  obtain ⟨t, run, hb, w⟩ := h.decode_ends_as_walk long sum_eq (fun e => noLength (by rw [e]; rfl)) C
  refine ⟨7, t, le_rfl, run, ?_⟩
  intro hdr bits len counts ends
  rw [if_neg short, if_neg zero, if_neg mismatch, if_neg noLength]
  exact ⟨w.out, w.bitCount, w.report, fun h2 => C.walk_how_ne_placeholder hb h2 _ _,
    fun h1 => C.walk_how_eq_placeholder_iff hb h1 _ _⟩

end Sys2Proof.Machine
end

section
/-! What the host's transactions do when they are taken (40_commands R120 to R130): one rule per transaction for the step that
has it at the head of the script, and from these rules the dispatch table of a `CTRL` write, the accepted commands, the
registers as the host reads them, and the writes to `IN_BUF`. -/
namespace Sys2Proof.Machine

/-! ### The step, by the action it takes -/

theorem step_of_answer {s : State} {o : Host.Outcome State Fault Refusal} (h : nextAction s = .answer o) : step s = o := by
  rw [step, h]

theorem step_of_run {s s0 : State} {i : Instr} (h : nextAction s = .run i s0) : step s = exec i s0 := by
  rw [step, h]

theorem nextAction_of_enabled {s : State} {op : HostOp} {rest : List HostOp} (head : s.script = op :: rest)
    (enabled : opEnabled s op = true) : nextAction s = hostTurn op { s with script := rest } := by
  simp [nextAction, head, enabled]

theorem coreTurn_of_busy {s : State} {i : Instr} (busy : s.state = .busy) (dec : decodePhase s.phase = .ok i) :
    coreTurn s = .run i s := by
  simp [coreTurn, busy, dec]

/-- A host action that has to wait leaves the step to the phase that runs. -/
theorem step_of_waiting {s : State} {op : HostOp} {rest : List HostOp} {i : Instr} (head : s.script = op :: rest)
    (waits : opEnabled s op = false) (busy : s.state = .busy) (dec : decodePhase s.phase = .ok i) : step s = exec i s :=
  step_of_run ((nextAction_of_waiting head waits busy).trans (coreTurn_of_busy busy dec))

/-! ### One rule per host transaction -/

section
variable {s : State} {r v a : Word} {b : Byte} {rest : List HostOp}

/-- A write to any register but `IN_LEN` never waits (40_commands R120). -/
theorem opEnabled_regWrite_of_ne_inLen (hr : r.toNat ≠ 4) : opEnabled s (.regWrite r v) = true := by
  simp [opEnabled, hr]

theorem nextAction_of_ctrlWrite (head : s.script = .regWrite r v :: rest) (ctrl : r.toNat = 0) :
    nextAction s = ctrlWrite v { s with script := rest } :=
  (nextAction_of_enabled head (opEnabled_regWrite_of_ne_inLen (by omega))).trans (if_pos ctrl)

/-- A `CTRL` write of a legal word runs its command. -/
theorem step_of_command {i : Instr} (head : s.script = .regWrite r v :: rest) (ctrl : r.toNat = 0)
    (dec : decodeCtrl v = .ok i) : step s = exec i { s with script := rest } :=
  step_of_run ((nextAction_of_ctrlWrite head ctrl).trans (by rw [ctrlWrite, dec]))

/-- A `CTRL` write of a word that does not decode is rejected. -/
theorem step_of_illegalWord {e : DecodeError} (head : s.script = .regWrite r v :: rest) (ctrl : r.toNat = 0)
    (dec : decodeCtrl v = .error e) : step s = .next (reject { s with script := rest }) :=
  step_of_answer ((nextAction_of_ctrlWrite head ctrl).trans (by rw [ctrlWrite, dec]))

theorem step_of_regWrite (head : s.script = .regWrite r v :: rest) (other : r.toNat ≠ 0)
    (enabled : opEnabled s (.regWrite r v) = true) : step s = .next (regWrite r v { s with script := rest }) :=
  step_of_answer ((nextAction_of_enabled head enabled).trans (if_neg other))

theorem step_of_regRead (head : s.script = .regRead r :: rest) : step s = .next (regRead r { s with script := rest }) :=
  step_of_answer (nextAction_of_enabled head rfl)

theorem step_of_inWrite (head : s.script = .inWrite a b :: rest) (notBusy : s.state ≠ .busy) :
    step s = .next (inWrite a b { s with script := rest }) :=
  step_of_answer (nextAction_of_enabled head (by simp [opEnabled, notBusy]))

end

theorem regWrite_inLen {r v : Word} {s : State} (hr : r.toNat = 4) : regWrite r v s = { s with inLen := v } := if_pos hr

theorem inWrite_of_lt {a : Word} {b : Byte} {s : State} (ha : a.toNat < Config.inCap) :
    inWrite a b s = { s with inBuf := s.inBuf.write a.toNat b } := if_pos ha

theorem inWrite_of_ge {a : Word} {b : Byte} {s : State} (ha : Config.inCap ≤ a.toNat) : inWrite a b s = s :=
  if_neg (not_lt.2 ha)

/-! ### The commands -/

theorem exec_encode_of_accepted {s : State} (h : startAccepted s = true) : exec .encode s = .next (start .encode s) := by
  rw [(execStart_eq s).1, if_pos h]

theorem exec_decode_of_accepted {s : State} (h : startAccepted s = true) : exec .decode s = .next (start .decode s) := by
  rw [(execStart_eq s).2, if_pos h]

theorem exec_clear_eq (s : State) : exec .clear s = .next (if clearAccepted s then acknowledge s else reject s) := rfl

theorem exec_clear_of_accepted {s : State} (h : clearAccepted s = true) : exec .clear s = .next (acknowledge s) := by
  rw [exec_clear_eq, if_pos h]

theorem exec_clear_of_not_accepted {s : State} (h : ¬ clearAccepted s = true) : exec .clear s = .next (reject s) := by
  rw [exec_clear_eq, if_neg h]

/-- The checks of ENCODE and DECODE in the order of the table (40_commands R124). -/
theorem start_follows_the_checks {i : Instr} {op : Op} {s : State}
    (run : exec i s = .next (if startAccepted s then start op s else reject s)) :
    if s.fatal = true then exec i s = .next (reject s)
    else if s.state ≠ .idle then exec i s = .next (reject s)
    else if Config.inCap < s.inLen.toNat then exec i s = .next (reject s)
    else exec i s = .next (start op s) := by
  have rejected (h : ¬ startAccepted s = true) : exec i s = .next (reject s) := by rw [run, if_neg h]
  rw [startAccepted_iff] at rejected
  split_ifs with fatal notIdle tooLong
  · exact rejected fun ⟨notFatal, _, _⟩ => by simp [fatal] at notFatal
  · exact rejected fun ⟨_, idle, _⟩ => notIdle idle
  · exact rejected fun ⟨_, _, fits⟩ => absurd tooLong (not_lt.2 fits)
  · rw [run, if_pos (startAccepted_iff.2 ⟨by simpa using fatal, not_not.1 notIdle, not_lt.1 tooLong⟩)]

/-- The checks of CLEAR in the order of the table (40_commands R124, R129). -/
theorem clear_follows_the_checks (s : State) :
    if s.fatal = true then exec .clear s = .next (reject s)
    else if s.state = .busy then exec .clear s = .next (reject s)
    else exec .clear s = .next (acknowledge s) := by
  split_ifs with fatal busy
  · exact exec_clear_of_not_accepted fun h => by simp [fatal, clearAccepted_iff] at h
  · exact exec_clear_of_not_accepted fun h => (clearAccepted_iff.1 h).2 busy
  · exact exec_clear_of_accepted (clearAccepted_iff.2 ⟨by simpa using fatal, busy⟩)

/-- In IDLE every field that CLEAR resets has that value already, except `CMD_REJ` (40_commands R129). -/
theorem State.Inv.acknowledge_of_idle {s : State} (inv : s.Inv) (idle : s.state = .idle) :
    acknowledge s = { s with cmdRej := false } := by
  obtain ⟨phase, op, -, cond, errPos, bitCount, symCount, origLen, out, outRd⟩ := inv.idle idle
  have outLen : s.outLen = 0 := by rw [inv.outLen, out]; rfl
  simp only [acknowledge, idle, phase, op, cond, errPos, outLen, bitCount, symCount, origLen, out, outRd]

/-- Settles O10: NOP answers its state, and a write of its word runs it. -/
theorem nopChangesNothing : Obligations.NopChangesNothing :=
  fun _ => ⟨rfl, fun _ head => step_of_command head rfl rfl⟩

/-- Settles O11: the three conditions are those of acceptance, and the invariant knows `OUT` in IDLE. -/
theorem acceptedCommandStarts : Obligations.AcceptedCommandStarts := by
  intro s fatal idle fits
  have accepted : startAccepted s = true := startAccepted_iff.2 ⟨fatal, idle, fits⟩
  refine ⟨exec_encode_of_accepted accepted, exec_decode_of_accepted accepted, fun inv => ?_⟩
  obtain ⟨-, -, -, -, -, -, -, -, out, outRd⟩ := inv.idle idle
  exact ⟨out, outRd⟩

/-- Settles O12: the conditions are those of acceptance; in IDLE the state is already the acknowledged one. -/
theorem clearRestoresIdle : Obligations.ClearRestoresIdle := by
  intro s fatal notBusy
  have run := exec_clear_of_accepted (clearAccepted_iff.2 ⟨fatal, notBusy⟩)
  exact ⟨run, fun inv idle => by rw [run, inv.acknowledge_of_idle idle]⟩

/-- Settles O13: a word that does not decode is the first row; each of the four words that do selects its rows. -/
theorem ctrlWriteFollowsTheDispatchTable : Obligations.CtrlWriteFollowsTheDispatchTable := by
  intro s v rest head s0 rejected
  cases dec : decodeCtrl v with
  | error e =>
    rw [if_pos (decodeCtrl_error dec).1]
    exact step_of_illegalWord head rfl dec
  | ok i =>
    have legal : ¬ v.extractLsb' 2 62 ≠ 0 := fun h => nomatch (Laws.decode_ctrl_eq_reservedBits_iff.2 h).symm.trans dec
    rw [if_neg legal, step_of_command head rfl dec]
    rcases decodeCtrl_ok dec with ⟨rfl, rfl⟩ | ⟨rfl, rfl⟩ | ⟨rfl, rfl⟩ | ⟨rfl, rfl⟩
    · rw [if_pos rfl]; rfl
    · simp only [BitVec.reduceEq, reduceIte, false_and]
      exact start_follows_the_checks (execStart_eq s0).1
    · simp only [BitVec.reduceEq, reduceIte, false_and, true_and]
      exact start_follows_the_checks (execStart_eq s0).2
    · simp only [BitVec.reduceEq, reduceIte, true_and]
      exact clear_follows_the_checks s0

/-! ### The registers as the host reads them -/

theorem toNat_append_eq_add {m n : Nat} (x : BitVec m) (y : BitVec n) : (x ++ y).toNat = x.toNat * 2 ^ n + y.toNat := by
  rw [BitVec.toNat_append, ← Nat.shiftLeft_add_eq_or_of_lt y.isLt, Nat.shiftLeft_eq]

/-- `STATUS` (10_state R23): its fields do not overlap, so the word is their weighted sum. -/
theorem toNat_statusWord (s : State) : (statusWord s).toNat =
    s.state.code.toNat + 4 * s.phase.toNat + 64 * s.cmdRej.toNat + 128 * s.fatal.toNat + 256 * s.op.code.toNat := by
  have state := s.state.code.isLt
  have phase := s.phase.isLt
  have cmdRej := s.cmdRej.toNat_lt
  have fatal := s.fatal.toNat_lt
  have op := s.op.code.isLt
  simp only [statusWord, BitVec.toNat_setWidth, toNat_append_eq_add, BitVec.toNat_ofBool]
  omega

/-- `COND` (10_state R24): bit 3, between the two fields, reads 0. -/
theorem toNat_condWord (c : Cond) : (condWord c).toNat = c.code.code.toNat + 16 * c.sub.toNat := by
  have code := c.code.code.isLt
  have sub := c.sub.isLt
  have bit3 : (0 : BitVec 1).toNat = 0 := rfl
  simp only [condWord, BitVec.toNat_setWidth, toNat_append_eq_add, bit3]
  omega

/-- `CTRL` and unmapped numbers read 0 in every state (10_state R31). -/
theorem readValue_of_not_readable {r : Word} (s : State) (hr : r.toNat = 0 ∨ 9 ≤ r.toNat) : readValue r s = 0 := by
  have busyZero (x : Word) : busyValue r x = 0 := if_neg (by simp [regReadable]; omega)
  have regZero : regValue s r = 0 := by
    unfold regValue
    split
    case h_9 => rfl
    all_goals omega
  rw [readValue, busyZero, regZero, ite_self]

/-- While BUSY `STATUS.STATE` still reads 1 (10_state R32). -/
theorem readValue_status_of_busy {r : Word} {s : State} (busy : s.state = .busy) (hr : r.toNat = 1) :
    (readValue r s).toNat % 4 = 1 := by
  have readable : regReadable r = true := by simp [regReadable, hr]
  have code : Proto.busy.code.toNat = 1 := rfl
  rw [readValue, if_pos busy, busyValue, if_pos readable, if_pos hr, BitVec.toNat_setWidth, toNat_append_eq_add, code]
  omega

/-- Outside BUSY a read returns the entry of the register map, which the number selects. -/
theorem readValue_of_not_busy {r : Word} {s : State} {n : Nat} (notBusy : s.state ≠ .busy) (hr : r.toNat = n) :
    readValue r s = regValue s (BitVec.ofNat 64 n) := by
  rw [readValue, if_neg notBusy, ← hr, BitVec.ofNat_toNat, BitVec.setWidth_eq]

/-- Settles O20: the value is `readValue`'s; each number selects its register, and the words are sums of their fields. -/
theorem regReadReturnsTheRegister : Obligations.RegReadReturnsTheRegister := by
  intro s r rest head
  refine ⟨readValue r { s with script := rest }, step_of_regRead head, readValue_of_not_readable _,
    readValue_status_of_busy, fun notBusy => ?_⟩
  have value {n : Nat} (hr : r.toNat = n) : readValue r { s with script := rest } = regValue s (BitVec.ofNat 64 n) :=
    readValue_of_not_busy notBusy hr
  refine ⟨fun hr => ?_, fun hr => ?_, value, value, value, value, fun hr => ?_, value⟩
  · rw [value hr]
    refine (toNat_statusWord s).trans ?_
    cases s.state <;> cases s.op <;> rfl
  · rw [value hr]
    refine (toNat_condWord s.cond).trans ?_
    cases s.cond.code <;> rfl
  · rw [value hr]
    exact BitVec.toNat_setWidth_of_le (by decide)

/-! ### The host transactions -/

/-- Settles O19: the register number selects the transaction's rule, and `IN_LEN` waits while BUSY. -/
theorem regWriteActsByRegisterNumber : Obligations.RegWriteActsByRegisterNumber := by
  intro s r v rest head s0
  refine ⟨fun ctrl => ⟨fun i => step_of_command head ctrl, fun e => step_of_illegalWord head ctrl⟩, ?_, ?_, ?_⟩
  · intro inLen notBusy
    rw [step_of_regWrite head (by omega) (by simp [opEnabled, notBusy]), regWrite_inLen inLen]
  · intro inLen busy i
    exact step_of_waiting head (opEnabled_eq_false_of_busy busy (.inr ⟨r, v, rfl, inLen⟩)) busy
  · intro notCtrl notInLen
    rw [step_of_regWrite head notCtrl (opEnabled_regWrite_of_ne_inLen notInLen), regWrite_of_ne_inLen notInLen]

/-- Settles O21: below `IN_CAP` the memory reads as written there and as before elsewhere; while BUSY the write waits. -/
theorem inWriteStoresBelowCapacity : Obligations.InWriteStoresBelowCapacity := by
  intro s a b rest head
  refine ⟨?_, ?_, ?_⟩
  · intro notBusy inside
    refine ⟨s.inBuf.write a.toNat b, ?_, Memory.read_write_same _ _ _, fun a' other => Memory.read_write_other _ b other⟩
    rw [step_of_inWrite head notBusy, inWrite_of_lt inside]
  · intro notBusy outside
    rw [step_of_inWrite head notBusy, inWrite_of_ge outside]
  · intro busy i
    exact step_of_waiting head (opEnabled_eq_false_of_busy busy (.inl ⟨a, b, rfl⟩)) busy

end Sys2Proof.Machine
end

section
/-! The frequency counter (41_frequency_counter R140 to R146): what FC_CLEAR and FC_COUNT leave in `FREQ`, and that no later
phase of an ENCODE writes it. -/
namespace Sys2Proof.Machine

/-! ### Clearing and counting -/

/-- Settles O26: FC_CLEAR meets no condition, so its equation holds in every state. -/
theorem fcClearResult : Obligations.FcClearResult :=
  fun s => execFcClear_eq s

/-- Settles O27: the pass over the present bytes counts them into `FREQ`, and counting adds the occurrences. -/
theorem fcCountCountsTheInput : Obligations.FcCountCountsTheInput :=
  fun s bs length present =>
    ⟨countInto s.freq bs, execFcCount_of_holds length present, freqAt_countInto s.freq bs⟩

/-- From a cleared table FC_COUNT leaves the frequency map of the input (41 R145). -/
theorem execFcCount_freq_of_cleared {s t : State} {bs : List Byte} (length : bs.length = s.len.toNat)
    (present : s.inBuf.holds 0 bs) (cleared : s.freq = Vector.replicate 256 0) (h : execFcCount s = .next t) :
    t.freq = freqOf bs := by
  rw [execFcCount_of_holds length present] at h
  obtain rfl := Host.Outcome.next.inj h
  show countInto s.freq bs = freqOf bs
  rw [cleared, countInto_zero]

theorem toNat_freqAt_freqOf {bs : List Byte} (h : bs.length < 2 ^ 64) (x : Byte) :
    (freqAt (freqOf bs) x).toNat = bs.count x := by
  rw [← countInto_zero, toNat_countInto h x]

/-! ### `FREQ` in the later phases -/

theorem execTbLeaves_freq {s t : State} (h : execTbLeaves s = .next t) : t.freq = s.freq := by
  obtain ⟨u, -, e⟩ := execTbLeaves_eq s
  rw [e] at h
  obtain rfl := Host.Outcome.next.inj h
  rfl

theorem execTbMerge_freq {s t : State} (h : execTbMerge s = .next t) : t.freq = s.freq := by
  obtain ⟨u, -, rfl⟩ := execTbMerge_next h
  rfl

theorem execCtWalk_freq {s t : State} (h : execCtWalk s = .next t) : t.freq = s.freq := by
  obtain ⟨c, -, rfl⟩ := execCtWalk_next h
  rfl

theorem execHdrEmit_freq {s t : State} (h : execHdrEmit s = .next t) : t.freq = s.freq := by
  rw [execHdrEmit_eq] at h
  obtain rfl := Host.Outcome.next.inj h
  split <;> rfl

theorem bwPutBits_freq (w : List Bool) (s : State) : (bwPutBits w s).freq = s.freq := by
  rw [bwPutBits_frame]

theorem execEncBody_freq {s t : State} (h : execEncBody s = .next t) : t.freq = s.freq := by
  rcases execEncBody_next h with ⟨bs, -, -, -, rfl⟩ | ⟨bs, b, -, -, -, -, rfl⟩
  · exact bwPutBits_freq _ s
  · exact bwPutBits_freq _ s

theorem execBwFlush_freq {s t : State} (h : execBwFlush s = .next t) : t.freq = s.freq := by
  rw [execBwFlush_eq] at h
  obtain rfl := Host.Outcome.next.inj h
  split <;> rfl

/-- `FREQ` is immutable for the rest of an ENCODE (41 R145). -/
theorem encodePhases_keep_freq {i : Instr} {s t : State}
    (hi : i ∈ [Instr.tbLeaves, .tbMerge, .ctWalk, .hdrEmit, .encBody, .bwFlush]) (h : exec i s = .next t) :
    t.freq = s.freq := by
  simp only [List.mem_cons, List.not_mem_nil, or_false] at hi
  rcases hi with rfl | rfl | rfl | rfl | rfl | rfl
  · exact execTbLeaves_freq h
  · exact execTbMerge_freq h
  · exact execCtWalk_freq h
  · exact execHdrEmit_freq h
  · exact execEncBody_freq h
  · exact execBwFlush_freq h

/-- Settles O28: the table is the frequency map of the input, whose counts fit because `LEN` does. -/
theorem countsAreExactAndSumToLength : Obligations.CountsAreExactAndSumToLength := by
  refine ⟨fun s t bs length present cleared h => ?_, fun i s t hi h => encodePhases_keep_freq hi h⟩
  have fits : bs.length < 2 ^ 64 := length ▸ s.len.isLt
  rw [execFcCount_freq_of_cleared length present cleared h]
  exact ⟨toNat_freqAt_freqOf fits, (countSum_freqOf fits).trans length⟩

end Sys2Proof.Machine
end

section
/-! The family of 42_priority_queue_tree_builder: `Less` is a strict total order (R151), TB_LEAVES makes the leaves (R158),
TB_MERGE makes what a linear scan for the least makes (R156, R160, R162), and the tree depends on the counts alone (R165). -/
namespace Sys2Proof.Machine

/-! ### The order -/

theorem less_trans {node : Arena} {i j k : NodeIx} (hij : less node i j = true) (hjk : less node j k = true) :
    less node i k = true := by
  rw [less_iff] at *; omega

/-- Of two distinct indices one is less (42 R151). -/
theorem less_or_less_of_ne {node : Arena} {i j : NodeIx} (h : i ≠ j) : less node i j = true ∨ less node j i = true := by
  by_contra! hn
  obtain ⟨hij, hji⟩ := hn
  exact h (eq_of_not_less (by simpa using hij) (by simpa using hji))

/-- Settles O30: `Less` is the lexicographic order of weight and index. -/
theorem lessIsAStrictTotalOrder : Obligations.LessIsAStrictTotalOrder := by
  refine fun node => ⟨fun i j => ?_, less_irrefl node, fun i j k => less_trans, fun i j hne => ?_⟩
  · rw [less_iff, BitVec.lt_def, BitVec.toNat_inj, Fin.lt_def]
  · rcases less_or_less_of_ne (node := node) hne with h | h
    · exact .inl ⟨h, not_less_of_less h⟩
    · exact .inr ⟨h, not_less_of_less h⟩

/-! ### The leaves -/

/-- Settles O32: the leaf loop's invariant at its end, once all 256 byte values have been looked at. -/
theorem tbLeavesBuildsTheLeaves : Obligations.TbLeavesBuildsTheLeaves := by
  intro s
  obtain ⟨u, built, run⟩ := execTbLeaves_eq s
  obtain ⟨next, size, leaves, rest, members, queue, root⟩ := built
  simp only [symsBelow_all] at next size leaves rest members
  rw [next] at run
  exact ⟨u, run, next, size, root, leaves, rest, members, queue⟩

/-! ### The last member of the queue -/

/-- `PQ_REMOVE_MIN` of the only member leaves `HEAP` as it is: nothing is sifted (42 R154). -/
theorem pqRemoveMin_of_pqSize_eq_one {t : TreeBuilder} (h : t.pqSize = 1) :
    ∃ r, t.members = [r] ∧ pqRemoveMin t = .ok (r, { t with pqSize := 0 }) := by
  have run : pqRemoveMin t = .ok (heapAt t.heap 0, { t with pqSize := 0 }) := by simp [pqRemoveMin, h]
  obtain ⟨-, -, perm, -⟩ := pqRemoveMin_spec run
  exact ⟨_, List.perm_singleton.1 (by simpa [TreeBuilder.members] using perm), run⟩

/-- The degenerate tree, whatever the one member of the queue is (42 R162). -/
theorem degenerateTree_of_pqSize_eq_one {t : TreeBuilder} (h : t.pqSize = 1) :
    degenerateTree t = .ok (topOverLeaf { t with pqSize := 0 }) := by
  obtain ⟨r, -, run⟩ := pqRemoveMin_of_pqSize_eq_one h
  rw [degenerateTree, run, ok_bind]

/-- The member that the merge loop leaves in the queue is the root (42 R160). -/
theorem mergedTree_of_mergeLoop {t t' : TreeBuilder} {r : NodeIx} (run : mergeLoop t.pqSize.val t = .ok t')
    (one : t'.members = [r]) : mergedTree t = .ok { t' with root := r, pqSize := 0 } := by
  have size : t'.pqSize = 1 := Fin.ext (by rw [← length_members, one]; rfl)
  obtain ⟨r', one', last⟩ := pqRemoveMin_of_pqSize_eq_one size
  obtain rfl : r = r' := by simpa [one] using one'
  rw [mergedTree, run, ok_bind, last, ok_bind]

/-! ### TB_MERGE -/

/-- TB_MERGE on the queue builds the tree that the merge rounds build over any list of its members (42 R156, R160). -/
theorem mergedTree_scan {t : TreeBuilder} {q : List NodeIx} (hp : q.Perm t.members) (hq : t.QueueOk)
    (h1 : 1 ≤ t.pqSize.val) (hroom : t.next.val + t.pqSize.val ≤ 512) :
    ∃ u, mergedTree t = .ok u ∧ scanMerge q.length q t.node t.next.val = some (u.node, u.next.val, u.root) ∧
      u.pqSize = 0 := by
  obtain ⟨t', r, run, one, -, -, -, scan⟩ := mergeLoop_scan hp hq h1 hroom
  refine ⟨{ t' with root := r, pqSize := 0 }, mergedTree_of_mergeLoop run one, ?_, rfl⟩
  rw [hp.length_eq, length_members]
  exact scan

/-- Settles O33: one symbol makes the three nodes of R162; otherwise the merge loop over the heap simulates the rounds over
a list, since both take the two least members, which the members alone determine. -/
theorem tbMergeMergesTheLeastTwo : Obligations.TbMergeMergesTheLeastTwo := by
  refine fun s => ⟨fun single size => ?_, fun several queue nonempty room q perm => ?_⟩
  · exact execTbMerge_of_ok (by rw [if_pos single]; exact degenerateTree_of_pqSize_eq_one size)
  · obtain ⟨u, run, scan, empty⟩ := mergedTree_scan perm queue nonempty room
    exact ⟨u, execTbMerge_of_ok (by rw [if_neg several]; exact run), scan, empty⟩

/-- Settles O36: after TB_LEAVES both queues hold the same leaves, and two builds from the same leaves agree below `NEXT`. -/
theorem treeDependsOnCountsAlone : Obligations.TreeDependsOnCountsAlone := by
  intro s1 s2 a1 a2 sameCounts counted leaves1 leaves2
  obtain ⟨u1, built1, run1⟩ := execTbLeaves_eq s1
  obtain ⟨u2, built2, run2⟩ := execTbLeaves_eq s2
  obtain rfl := Host.Outcome.next.inj (run1.symm.trans leaves1)
  obtain rfl := Host.Outcome.next.inj (run2.symm.trans leaves2)
  rw [← sameCounts] at built2
  obtain ⟨v1, -, -, merge1, -⟩ := tbMerge_built built1 counted
  obtain ⟨v2, -, -, merge2, -⟩ := tbMerge_built built2 counted
  exact ⟨_, _, execTbMerge_of_ok merge1, execTbMerge_of_ok merge2, tbMerge_agree built1 built2 counted merge1 merge2⟩

end Sys2Proof.Machine
end

section
/-! The code table generator (43_code_table_generator R175 to R180): CT_WALK fills `CODE` with the paths to the leaves (R177),
so the codes inherit from the tree that none is empty or a prefix of another (R178) and that they belong to the counted byte
values (R179). -/
namespace Sys2Proof.Machine

/-! ### Paths to leaves -/

section
variable {node : Arena} {root : NodeIx} {p q : List Bool} {x y : Byte}

/-- A path ends at one leaf, which holds one byte value. -/
theorem LeafPath.sym_unique (hx : LeafPath node root p x) (hy : LeafPath node root p y) : x = y := by
  obtain ⟨i, hi, -, rfl⟩ := hx
  obtain ⟨j, hj, -, rfl⟩ := hy
  obtain rfl : i = j := Option.some.inj (hi.symm.trans hj)
  rfl

/-- No leaf is the root, so no path to one is empty (10_state R46). -/
theorem TreeOk.length_pos (h : TreeOk node root) (hp : LeafPath node root p x) : 1 ≤ p.length := by
  obtain ⟨i, hi, leaf, -⟩ := hp
  refine List.length_pos_iff.2 ?_
  rintro rfl
  obtain rfl : root = i := Option.some.inj hi
  rw [h.rootInternal] at leaf
  cases leaf

theorem TreeOk.length_le (h : TreeOk node root) (hp : LeafPath node root p x) : p.length ≤ 255 := by
  obtain ⟨i, hi, -⟩ := hp
  exact h.short p i hi

/-- A leaf has no children: the path to it is a prefix of no path to another byte value (43 R178). -/
theorem TreeOk.eq_of_prefix (h : TreeOk node root) (hp : LeafPath node root p x)
    (hq : LeafPath node root q y) (pre : p <+: q) : x = y := by
  obtain ⟨l, r, reads, -, -⟩ := h.shape
  obtain rfl : p = q := Shape.prefix_free ((leafPath_iff reads).1 hp) ((leafPath_iff reads).1 hq) pre
  exact hp.sym_unique hq

end

/-! ### The codes that CT_WALK leaves -/

/-- `CODE` holds the path of every leaf and nothing else (43 R177). -/
structure CodesArePaths (node : Arena) (root : NodeIx) (code : Vector CodeEntry 256) : Prop where
  path : ∀ p x, LeafPath node root p x → (codeAt code x).toBits = p ∧ (codeAt code x).Clean
  absent : ∀ x, (¬ ∃ p, LeafPath node root p x) → codeAt code x = CodeEntry.empty

section
variable {node : Arena} {root : NodeIx} {code : Vector CodeEntry 256} {p : List Bool} {x : Byte}

theorem CodesArePaths.len_eq (c : CodesArePaths node root code) (hp : LeafPath node root p x) :
    (codeAt code x).len.toNat = p.length := by
  rw [← length_toBits, (c.path p x hp).1]

/-- A byte value with a code is at a leaf, and the code is the path to it. -/
theorem CodesArePaths.leafPath_toBits (c : CodesArePaths node root code) (hx : (codeAt code x).len ≠ 0) :
    LeafPath node root (codeAt code x).toBits x := by
  have ⟨p, hp⟩ : ∃ p, LeafPath node root p x := by
    by_contra none
    exact hx (by rw [c.absent x none]; rfl)
  rwa [(c.path p x hp).1]

/-- The byte values with a code are those at the leaves. -/
theorem CodesArePaths.one_le_len_iff (c : CodesArePaths node root code) (h : TreeOk node root) :
    1 ≤ (codeAt code x).len.toNat ↔ ∃ p, LeafPath node root p x := by
  constructor
  · intro pos
    exact ⟨_, c.leafPath_toBits fun zero => by rw [zero] at pos; exact absurd pos (by decide)⟩
  · rintro ⟨p, hp⟩
    rw [c.len_eq hp]
    exact h.length_pos hp

end

/-- CT_WALK completes on a tree and changes nothing but `CODE`, the stack and `PHASE` (43 R177). -/
theorem exec_ctWalk_of_treeOk {s : State} (h : TreeOk s.tree.node s.tree.root) :
    ∃ c : CodeTable, exec .ctWalk s = .next { s with ct := c, phase := 6 } ∧ c.sp = 0 ∧
      CodesArePaths s.tree.node s.tree.root c.code := by
  obtain ⟨c, walk, empty, path, absent⟩ := execCtWalk_treeOk h
  exact ⟨c, execCtWalk_of_ok walk, empty, path, absent⟩

/-- Settles O37: on a tree the walk answers, with the path of every leaf in `CODE`. -/
theorem ctWalkRecordsThePaths : Obligations.CtWalkRecordsThePaths := by
  intro s h
  obtain ⟨c, run, empty, codes⟩ := exec_ctWalk_of_treeOk h
  exact ⟨c, run, empty, codes.path, codes.absent⟩

/-- Settles O38: the codes are paths to the leaves of a tree whose root is no leaf, and no leaf is above another. -/
theorem codesFormAPrefixCode : Obligations.CodesFormAPrefixCode := by
  intro s t h walk
  obtain ⟨c, run, -, codes⟩ := exec_ctWalk_of_treeOk h
  obtain rfl := Host.Outcome.next.inj (run.symm.trans walk)
  refine ⟨fun p x hp => ?_, fun x y hx hy pre => ?_⟩
  · rw [codes.len_eq hp]
    exact ⟨h.length_pos hp, h.length_le hp⟩
  · exact h.eq_of_prefix (codes.leafPath_toBits hx) (codes.leafPath_toBits hy) pre

/-- Settles O39: the leaves of the built tree are the counted byte values, and CT_WALK gives codes to the leaves. -/
theorem exactlyTheCountedBytesHaveCodes : Obligations.ExactlyTheCountedBytesHaveCodes := by
  intro s a b _ counted leaves merge
  obtain ⟨b', l, r, merge', built, -⟩ := build_leafEntries counted leaves
  obtain rfl := Host.Outcome.next.inj (merge'.symm.trans merge)
  obtain ⟨c, run, -, codes⟩ := exec_ctWalk_of_treeOk built.treeOk
  exact ⟨_, run, fun x => (codes.one_le_len_iff built.treeOk).trans built.symbols⟩

end Sys2Proof.Machine
end

section
/-! The bit writer and the bit reader (44_bit_writer_reader R185 to R192): one step of each, BW_FLUSH, and that the reader gets
back from the flushed bytes what the writer was given. -/
namespace Sys2Proof.Machine

/-! ### The writer -/

/-- Settles O42: the eighth bit emits the byte, any other one only fills it. -/
theorem bwPutBitFillsFromTheTop : Obligations.BwPutBitFillsFromTheTop := by
  refine fun s v => ⟨setBitTo s.acc (7 - s.nbits.toNat) v, fun k => ?_, bwPutBit_full v, bwPutBit_more v⟩
  have inByte : 7 - s.nbits.toNat < 8 := by omega
  simp only [getLsbD_setBitTo, inByte, and_true]

/-- Settles O44: the two cases of BW_FLUSH's equation. -/
theorem bwFlushPadsAndFinishes : Obligations.BwFlushPadsAndFinishes :=
  fun s => ⟨fun empty => (execBwFlush_eq s).trans (by rw [if_pos empty]),
    fun partly => (execBwFlush_eq s).trans (by rw [if_neg partly])⟩

/-- A body has no byte more than its bits need (30_encoding R99). -/
theorem IsBody.length_eq {w : List Bool} {body : List Byte} (h : IsBody w body) : body.length = (w.length + 7) / 8 := by
  have bits := congrArg List.length h
  rw [length_bytesBits, List.length_append, List.length_replicate] at bits
  omega

/-- BW_FLUSH completes what was emitted since the writer was empty to the body of the bits written (44 R188, R189). -/
theorem Wrote.bwFlush {s t : State} {w : List Bool} {body : List Byte} (h : Wrote s w t body) (empty : s.nbits = 0) :
    ∃ u padded, exec .bwFlush t = .next u ∧ u.out = s.out ++ padded ∧ IsBody w padded := by
  obtain ⟨whole, partly, -⟩ := h.body empty
  have out : t.out = s.out ++ body := by rw [h.state]
  by_cases drained : t.nbits = 0
  · exact ⟨_, body, execBwFlush_eq t, by rw [if_pos drained, out], whole drained⟩
  · exact ⟨_, body ++ [t.acc], execBwFlush_eq t, by rw [if_neg drained, out, List.append_assoc], partly drained⟩

/-- Settles O43: the invariant of the writer along the bits, started from the empty writer, and its flush. -/
theorem writerDropsNoBit : Obligations.WriterDropsNoBit := by
  intro s w empty zero
  obtain ⟨body, wrote⟩ := bwPutBits_wrote w (AccClean.zero zero)
  obtain ⟨t, padded, flush, out, isBody⟩ := wrote.bwFlush empty
  have bits : w = bytesBits body ++ pendingBits (bwPutBits w s) := by
    have noneHeld : pendingBits s = [] := List.length_eq_zero_iff.1 (by rw [length_pendingBits, empty]; rfl)
    rw [wrote.bits, noneHeld, List.nil_append]
  have count : w.length = 8 * body.length + (bwPutBits w s).nbits.toNat := by
    conv_lhs => rw [bits]
    rw [List.length_append, length_bytesBits, length_pendingBits]
  refine ⟨body, _, _, wrote.state, bits, count, fun k le => wrote.clean k ?_, t, padded, flush, out, isBody.length_eq, isBody⟩
  have := (bwPutBits w s).nbits.isLt
  omega

/-! ### The reader -/

/-- The fetch with no bit held and no byte left (44 R190). -/
theorem brFill_atEnd {s : State} (empty : s.rdNbits.val = 0) (atEnd : s.len ≤ s.inPtr) :
    brFill s = .error (.raised (raiseState .truncatedBitstream 0 s)) := by
  rw [brFill, if_pos empty, if_pos atEnd, raise_eq]

/-- The fetch with no bit held and a byte to read (44 R190). -/
theorem brFill_fetch {s : State} {b : Byte} (empty : s.rdNbits.val = 0) (more : s.inPtr < s.len)
    (byte : s.inBuf.read s.inPtr.toNat = some b) :
    brFill s = .ok { s with rdByte := b, inPtr := s.inPtr + 1, rdNbits := 8 } := by
  rw [brFill, if_pos empty, if_neg (BitVec.not_le.2 more), readByte_of_read byte, lift_ok, ok_bind]

/-- With a bit held nothing is fetched (44 R190). -/
theorem brFill_held {s : State} (held : s.rdNbits.val ≠ 0) : brFill s = .ok s := by
  rw [brFill, if_neg held]

/-- The delivery after the fetch (44 R190). -/
theorem brGetBit_of_brFill {s t : State} (h : brFill s = .ok t) :
    brGetBit s = .ok (t.rdByte.getLsbD 7, brShift t) := by
  rw [brGetBit, h, ok_bind, BitVec.msb_eq_getLsbD_last]

/-- Settles O46: the fetch raises, reads a byte or does nothing, and the delivery follows. -/
theorem brGetBitDeliversTheTopBit : Obligations.BrGetBitDeliversTheTopBit := by
  refine fun s => ⟨fun empty atEnd => ?_, fun b empty more byte => ?_, fun n held => ?_⟩
  · rw [brGetBit, brFill_atEnd (congrArg Fin.val empty) atEnd, error_bind]
    simp [raiseState]
  · rw [brGetBit_of_brFill (brFill_fetch (congrArg Fin.val empty) more byte)]
    rfl
  · have one : (brShift s).rdNbits = n := Fin.ext (by show s.rdNbits.val - 1 = n.val; omega)
    rw [brGetBit_of_brFill (brFill_held (by omega)), ← one]
    rfl

/-- Settles O45: the flushed bytes are the body of the bits, and the reader delivers the bits of its bytes in order. -/
theorem readerReturnsWhatTheWriterWrote : Obligations.ReaderReturnsWhatTheWriterWrote := by
  intro s t r w body more empty zero flush out noneHeld unread
  obtain ⟨_, wrote⟩ := bwPutBits_wrote w (AccClean.zero zero)
  obtain ⟨u, padded, flush', out', isBody⟩ := wrote.bwFlush empty
  obtain rfl := Host.Outcome.next.inj (flush.symm.trans flush')
  obtain rfl : body = padded := List.append_cancel_left (out.symm.trans out')
  have held : heldBits r = [] := List.length_eq_zero_iff.1 (by rw [length_heldBits, noneHeld]; rfl)
  have toCome : bitsToCome r (body ++ more) = w ++ (List.replicate ((8 - w.length % 8) % 8) false ++ bytesBits more) := by
    rw [bitsToCome, held, List.nil_append, bytesBits_append, isBody, List.append_assoc]
  obtain ⟨r', -, bits, -⟩ := brGetBits_take unread w _ toCome
  exact ⟨r', bits⟩

end Sys2Proof.Machine
end

section
/-! The encoder (45_encoder R200 to R207): the header and the body that HDR_EMIT and ENC_BODY write, the sequence of the
phases of both commands, and the two ends of an ENCODE. -/
namespace Sys2Proof.Machine

/-! ### HDR_EMIT -/

/-- Byte `k` of the length field of a header (30_encoding R97). -/
theorem getElem?_headerBytes_origLen (v : Word) (freq : Freq) {k : Nat} (hk : k < 8) :
    (headerBytes v freq)[k]? = some (v.extractLsb' (56 - 8 * k) 8) := by
  have field := getElem_flatMap_be64 (v :: freq.toList) 0 k (by simp) hk
  simp only [Nat.mul_zero, Nat.zero_add, List.getElem_cons_zero] at field
  rw [headerBytes_eq, List.getElem?_eq_some_iff]
  exact ⟨_, field⟩

/-- Byte `k` of the count of `x` in a header (30_encoding R97): the counts are the fields from 1 on. -/
theorem getElem?_headerBytes_freq (v : Word) (freq : Freq) (x : Byte) {k : Nat} (hk : k < 8) :
    (headerBytes v freq)[8 + 8 * x.toNat + k]? = some ((freqAt freq x).extractLsb' (56 - 8 * k) 8) := by
  have inTable : x.toNat + 1 < (v :: freq.toList).length := by
    have := x.isLt
    rw [List.length_cons, Vector.length_toList]
    omega
  have field := getElem_flatMap_be64 (v :: freq.toList) (x.toNat + 1) k inTable hk
  rw [show 8 + 8 * x.toNat + k = 8 * (x.toNat + 1) + k by omega, headerBytes_eq, List.getElem?_eq_some_iff]
  exact ⟨_, field⟩

/-- Settles O40: HDR_EMIT's equation, with the header's bytes read off its 257 fields. -/
theorem hdrEmitWritesTheHeader : Obligations.HdrEmitWritesTheHeader := by
  refine fun s => ⟨headerBytes s.origLen s.freq, length_headerBytes _ _, fun k => getElem?_headerBytes_origLen _ _,
    fun x k => getElem?_headerBytes_freq _ _ x, fun more => ?_, fun none => ?_⟩
  · exact (execHdrEmit_eq s).trans (by rw [if_neg more])
  · exact (execHdrEmit_eq s).trans (by rw [if_pos none])

/-! ### ENC_BODY -/

/-- With `LEN = 0` the loop of ENC_BODY makes no round (45 R203). -/
theorem execEncBody_of_len_eq_zero {s : State} (h : s.len = 0) : execEncBody s = .next (setPhase 8 s) := by
  rw [execEncBody, h]
  rfl

/-- At the first byte without a code ENC_BODY raises, after the codes before it (45 R203, R204). -/
theorem execEncBody_of_absent {s : State} {bs : List Byte} {b : Byte} (present : s.inBuf.holds 0 (bs ++ [b]))
    (inside : bs.length < s.len.toNat) (coded : ∀ x ∈ bs, (codeAt s.ct.code x).len ≠ 0)
    (absent : (codeAt s.ct.code b).len = 0) : execEncBody s = .next (raiseState .invariantViolation 1
      { bwPutBits (bodyBits s.ct bs) s with inPtr := BitVec.ofNat 64 bs.length }) := by
  rw [execEncBody, bodyLoop_absent present inside coded absent, error_bind, outcome_raised, Nat.zero_add]

/-- InvariantViolation sets `FATAL`, whatever it was (60_exceptions R240). -/
theorem raiseState_invariantViolation (sub : BitVec 4) (s : State) : raiseState .invariantViolation sub s =
    { s with cond := { code := .invariantViolation, sub := sub }, errPos := s.inPtr, fatal := true, state := .error } := by
  simp [raiseState]

/-- Settles O41: every code written, or the raise at the first byte without one. -/
theorem encBodyWritesTheCodes : Obligations.EncBodyWritesTheCodes := by
  refine fun s bs present => ⟨fun length coded => ?_, ?_⟩
  · by_cases empty : s.len = 0
    · obtain rfl : bs = [] := List.length_eq_zero_iff.1 (by rw [length, empty]; rfl)
      rw [if_pos empty]
      exact execEncBody_of_len_eq_zero empty
    · rw [if_neg empty]
      exact execEncBody_of_holds length present empty coded
  · rintro bs1 bs2 b rfl length coded absent
    rw [List.append_cons] at present
    rw [List.length_append, List.length_cons] at length
    exact (execEncBody_of_absent (Memory.holds_append.1 present).1 (by omega) coded absent).trans
      (congrArg _ (raiseState_invariantViolation 1 _))

/-! ### The sequence of the phases -/

/-- The command goes on with the phase of code `p` (00_scope R16). -/
def GoesTo (s t : State) (p : BitVec 4) : Prop := t.phase = p ∧ t.state = s.state ∧ t.cond = s.cond

/-- The command has finished with the code `c` (40_commands R131). -/
def Finishes (s t : State) (c : CondCode) : Prop := t.phase = s.phase ∧ t.state = .done ∧ t.cond = { code := c, sub := 0 }

/-- The condition `c` ended the command (60_exceptions R240). -/
def Raises (s t : State) (c : Cond) : Prop := t.phase = s.phase ∧ t.state = .error ∧ t.cond = c

theorem finishes_finish (c : CondCode) (s : State) : Finishes s (finish c s) c := ⟨rfl, rfl, rfl⟩

theorem raises_raiseState (kind : CondCode) (sub : BitVec 4) (s : State) :
    Raises s (raiseState kind sub s) { code := kind, sub := sub } := ⟨rfl, rfl, rfl⟩

/-- An end of the command looks only at `PHASE` of the state before. -/
theorem Finishes.of_phase_eq {s u t : State} {c : CondCode} (h : Finishes u t c) (e : u.phase = s.phase) :
    Finishes s t c := ⟨h.1.trans e, h.2⟩

theorem Raises.of_phase_eq {s u t : State} {c : Cond} (h : Raises u t c) (e : u.phase = s.phase) :
    Raises s t c := ⟨h.1.trans e, h.2⟩

section
variable {s t : State}

theorem execFcClear_goesTo (h : execFcClear s = .next t) : GoesTo s t (if s.op = .encode then 2 else 9) := by
  rw [execFcClear_eq] at h
  obtain rfl := Host.Outcome.next.inj h
  exact ⟨rfl, rfl, rfl⟩

theorem execFcCount_goesTo (h : execFcCount s = .next t) : GoesTo s t (if s.len = 0 then 6 else 3) := by
  obtain ⟨bs, -, -, rfl⟩ := execFcCount_next h
  exact ⟨rfl, rfl, rfl⟩

theorem execTbLeaves_goesTo (h : execTbLeaves s = .next t) : GoesTo s t 4 := by
  obtain ⟨u, -, e⟩ := execTbLeaves_eq s
  obtain rfl := Host.Outcome.next.inj (e.symm.trans h)
  exact ⟨rfl, rfl, rfl⟩

theorem execTbMerge_goesTo (h : execTbMerge s = .next t) : GoesTo s t (if s.op = .encode then 5 else 11) := by
  obtain ⟨u, -, rfl⟩ := execTbMerge_next h
  exact ⟨rfl, rfl, rfl⟩

theorem execCtWalk_goesTo (h : execCtWalk s = .next t) : GoesTo s t 6 := by
  obtain ⟨c, -, rfl⟩ := execCtWalk_next h
  exact ⟨rfl, rfl, rfl⟩

theorem execHdrEmit_finishes_or_goesTo (h : execHdrEmit s = .next t) :
    if s.len = 0 then Finishes s t .emptyInput else GoesTo s t 7 := by
  rw [execHdrEmit_eq] at h
  obtain rfl := Host.Outcome.next.inj h
  split
  · exact ⟨rfl, rfl, rfl⟩
  · exact ⟨rfl, rfl, rfl⟩

theorem execEncBody_goesTo_or_raises (h : execEncBody s = .next t) :
    GoesTo s t 8 ∨ Raises s t { code := .invariantViolation, sub := 1 } := by
  rcases execEncBody_next h with ⟨bs, -, -, -, rfl⟩ | ⟨bs, b, -, -, -, -, rfl⟩
  · rw [bwPutBits_frame]
    exact .inl ⟨rfl, rfl, rfl⟩
  · rw [bwPutBits_frame]
    exact .inr ⟨rfl, rfl, rfl⟩

theorem execBwFlush_finishes (h : execBwFlush s = .next t) : Finishes s t .ok := by
  rw [execBwFlush_eq] at h
  obtain rfl := Host.Outcome.next.inj h
  split
  · exact ⟨rfl, rfl, rfl⟩
  · exact ⟨rfl, rfl, rfl⟩

theorem execHdrParse_goesTo_or_raises (h : execHdrParse s = .next t) :
    GoesTo s t 10 ∨ Raises s t { code := .malformedArtifact, sub := 1 } := by
  rcases execHdrParse_next h with ⟨-, rfl⟩ | ⟨hdr, -, -, -, rfl⟩
  · exact .inr (raises_raiseState _ _ s)
  · exact .inl ⟨rfl, rfl, rfl⟩

theorem execHdrCheck_ends (h : execHdrCheck s = .next t) :
    (if s.origLen = 0 then Finishes s t .emptyInput else GoesTo s t 3) ∨
      Raises s t { code := .malformedArtifact, sub := 2 } ∨ Raises s t { code := .malformedArtifact, sub := 3 } := by
  rw [execHdrCheck_eq] at h
  obtain rfl := Host.Outcome.next.inj h
  by_cases noSymbol : symbolsOf s.freq = [] ∧ s.origLen ≠ 0
  · rw [if_pos noSymbol]
    exact .inr (.inl ⟨rfl, rfl, rfl⟩)
  rw [if_neg noSymbol]
  by_cases mismatch : countSum s.freq ≠ s.origLen.toNat
  · rw [if_pos mismatch]
    exact .inr (.inr ⟨rfl, rfl, rfl⟩)
  rw [if_neg mismatch]
  left
  by_cases empty : s.origLen = 0
  · rw [if_pos empty, if_pos empty]
    exact ⟨rfl, rfl, rfl⟩
  · rw [if_neg empty, if_neg empty]
    exact ⟨rfl, rfl, rfl⟩

theorem WalkFrame.phase (h : WalkFrame s t) : t.phase = s.phase := by
  rw [h.state]

theorem execDecWalk_ends (h : execDecWalk s = .next t) :
    Finishes s t .ok ∨ Raises s t { code := .truncatedBitstream, sub := 0 } ∨
      Raises s t { code := .malformedArtifact, sub := 4 } := by
  rcases execDecWalk_next h with ⟨u, frame, -, rfl⟩ | ⟨u, frame, -, ⟨rfl, -⟩ | ⟨rfl, -⟩⟩
  · exact .inl ((finishes_finish _ u).of_phase_eq frame.phase)
  · exact .inr (.inl ((raises_raiseState _ _ u).of_phase_eq frame.phase))
  · exact .inr (.inr ((raises_raiseState _ _ u).of_phase_eq frame.phase))

end

/-- Settles O17: phase by phase, where each one goes on or ends. -/
theorem phasesFollowTheirSequence : Obligations.PhasesFollowTheirSequence := by
  intro i s t h goesTo finishes raises
  refine ⟨?_, ?_, ?_, ?_, ?_, ?_, ?_, ?_, ?_, ?_, ?_⟩ <;> rintro rfl
  · exact execFcClear_goesTo h
  · exact execFcCount_goesTo h
  · exact execTbLeaves_goesTo h
  · exact execTbMerge_goesTo h
  · exact execCtWalk_goesTo h
  · exact execHdrEmit_finishes_or_goesTo h
  · exact execEncBody_goesTo_or_raises h
  · exact execBwFlush_finishes h
  · exact execHdrParse_goesTo_or_raises h
  · exact execHdrCheck_ends h
  · exact execDecWalk_ends h

/-! ### The whole ENCODE -/

/-- The header of the empty input is all zero (30_encoding R100). -/
theorem headerBytes_zero : headerBytes 0 (Vector.replicate 256 0) = List.replicate 2056 0 := by
  have field : bytesBE64 0 = List.replicate 8 0 := rfl
  rw [headerBytes_eq, Vector.toList_replicate, ← List.replicate_succ, List.flatMap_replicate, field,
    List.flatten_replicate_replicate]

/-- Settles O55: the end state of the empty ENCODE, whose header is that of a cleared table. -/
theorem encodeOfEmptyInput : Obligations.EncodeOfEmptyInput := by
  intro s h
  obtain ⟨t, rfl, run⟩ := encEmpty h
  have noInput : s.inLen = 0 := BitVec.eq_of_toNat_eq h.length
  refine ⟨_, run, rfl, rfl, rfl, rfl, rfl, rfl, rfl, noInput, ?_⟩
  show s.out ++ headerBytes s.inLen (Vector.replicate 256 0) = _
  rw [h.out_eq_nil, noInput, headerBytes_zero, List.nil_append]

/-- A loaded input is short enough that no counter of an ENCODE overflows (00_scope R13). -/
theorem Loaded.length_le {s : State} {cmd : Word} {bs : List Byte} (h : Loaded s cmd bs) : bs.length ≤ 2 ^ 56 :=
  h.fits.trans inCap_le

section
variable {s : State} {bs body : List Byte} {v : TreeBuilder} {c : CodeTable}

/-- `SYM_COUNT` at the end of an ENCODE: 256 symbols fit its nine bits. -/
theorem toNat_symCount_encEnd : (encEnd s bs v c body).symCount.toNat = (symbolsOf (freqOf bs)).length := by
  have := length_symbolsOf (freqOf bs)
  show (BitVec.ofNat 9 _).toNat = _
  rw [BitVec.toNat_ofNat]
  exact Nat.mod_eq_of_lt (by omega)

/-- `BIT_COUNT` at the end of an ENCODE: the code bits of the input fit it. -/
theorem toNat_bitCount_encEnd (fits : bs.length ≤ 2 ^ 56) : (encEnd s bs v c body).bitCount.toNat = (bodyBits c bs).length := by
  have := length_bodyBits_le c bs
  exact toNat_zero_add_ofNat (by omega)

/-- `OUT_LEN` at the end of an ENCODE: header and body. -/
theorem toNat_outLen_encEnd (fits : bs.length ≤ 2 ^ 56) (isBody : IsBody (bodyBits c bs) body) :
    (encEnd s bs v c body).outLen.toNat = 2056 + ((bodyBits c bs).length + 7) / 8 := by
  have bits := length_bodyBits_le c bs
  have bytes := isBody.length_eq
  have sum : (encEnd s bs v c body).outLen = 0 + BitVec.ofNat 64 (2056 + body.length) := by
    rw [BitVec.ofNat_add, ← BitVec.add_assoc]
    rfl
  rw [sum, toNat_zero_add_ofNat (by omega), bytes]

end

/-- Settles O54: the nine steps of `encRun`, whose counters do not overflow on an input that was loaded. -/
theorem encodeProducesTheArtifact : Obligations.EncodeProducesTheArtifact := by
  intro s bs h ne
  have fits := h.length_le
  have fitsWord : bs.length < 2 ^ 64 := by omega
  obtain ⟨l, r, C⟩ := exists_canon (symbols_ne ne fitsWord)
  obtain ⟨v, c, body, -, -, -, isBody, run⟩ := encRun bs ne fitsWord C s h
  have bits := toNat_bitCount_encEnd (s := s) (body := body) (v := v) (c := c) fits
  refine ⟨encEnd s bs v c body, body, run, rfl, rfl, rfl, rfl, rfl, rfl, rfl, toNat_symCount_encEnd, ?_, ?_, rfl, rfl, rfl,
    ?_, isBody, ?_, rfl, rfl⟩
  · exact bits.trans ((length_bodyBits c bs).trans (sum_by_count _ bs))
  · rw [bits, toNat_outLen_encEnd fits isBody]
  · show s.out ++ _ ++ body = _
    rw [h.out_eq_nil, List.nil_append]
  · rw [bits, isBody.length_eq]

end Sys2Proof.Machine
end

section
/-! The decoder (46_decoder R215 to R227): what HDR_PARSE and HDR_CHECK make of a header, DEC_WALK as the walk over the body's
bits, and the round trip through ENCODE and DECODE. -/
namespace Sys2Proof.Machine

/-! ### HDR_PARSE and HDR_CHECK -/

/-- MalformedArtifact leaves `FATAL` as it is (60_exceptions R240). -/
theorem raiseState_malformedArtifact (sub : BitVec 4) (s : State) : raiseState .malformedArtifact sub s =
    { s with cond := { code := .malformedArtifact, sub := sub }, errPos := s.inPtr, state := .error } := by
  simp [raiseState]

/-- An artifact too short for its header (46 R216). -/
theorem execHdrParse_of_short {s : State} (short : s.len.toNat < 2056) :
    execHdrParse s = .next (raiseState .malformedArtifact 1 s) := by
  rw [execHdrParse, Config.hdrBytes, if_pos short, raise_eq, outcome_raised]

/-- A field is the big-endian value of its eight bytes (20_memory R72). -/
theorem getElem?_eq_fieldAt_extract {hdr : List Byte} {o k : Nat} (inside : o + 8 ≤ hdr.length) (hk : k < 8) :
    hdr[o + k]? = some ((fieldAt hdr o).extractLsb' (56 - 8 * k) 8) := by
  have eight : ((hdr.drop o).take 8).length = 8 := by
    rw [List.length_take, List.length_drop]
    omega
  rw [fieldAt, extract_be64 _ eight k hk, List.getElem_take, List.getElem_drop, List.getElem?_eq_getElem]

/-- The count of `x` is the field at offset `8 + 8x` (30_encoding R97). -/
theorem freqAt_headerFreq (hdr : List Byte) (x : Byte) : freqAt (headerFreq hdr) x = fieldAt hdr (8 + 8 * x.toNat) := by
  rw [headerFreq, freqAt_ofFn]

/-- Settles O47: the two cases of HDR_PARSE, with the bytes of the fields it assembles. -/
theorem hdrParseReadsTheHeader : Obligations.HdrParseReadsTheHeader := by
  refine fun s => ⟨fun short => ?_, fun hdr long length present => ?_⟩
  · exact (execHdrParse_of_short short).trans (by rw [raiseState_malformedArtifact])
  refine ⟨fieldAt hdr 0, headerFreq hdr, execHdrParse_of_holds long length present, fun k hk => ?_, fun x k hk => ?_⟩
  · simpa using getElem?_eq_fieldAt_extract (o := 0) (by omega) hk
  · have inHeader : 8 + 8 * x.toNat + 8 ≤ hdr.length := by
      have := x.isLt
      omega
    rw [freqAt_headerFreq, getElem?_eq_fieldAt_extract inHeader hk]

/-- A sum equal to `ORIG_LEN` makes "no symbol" and `ORIG_LEN = 0` the same condition (46 R218). -/
theorem symbolsOf_eq_nil_iff_of_countSum {freq : Freq} {v : Word} (sum : countSum freq = v.toNat) :
    symbolsOf freq = [] ↔ v = 0 := by
  rw [← countSum_eq_zero, sum]
  exact ⟨fun h => BitVec.eq_of_toNat_eq h, fun h => by rw [h]; rfl⟩

/-- Settles O48: the branches of HDR_CHECK's equation, in their order. -/
theorem hdrCheckChecksCountsAgainstLength : Obligations.HdrCheckChecksCountsAgainstLength := by
  intro s s1
  have answer : exec .hdrCheck s = .next _ := execHdrCheck_eq s
  refine ⟨countSum_lt s.freq, fun noSymbol pos => ?_, fun symbol mismatch => ?_, fun sum zero => ?_, fun sum pos => ?_⟩
  · rw [answer, if_pos ⟨noSymbol, pos⟩, raiseState_malformedArtifact]
  · rw [answer, if_neg fun h => symbol h.1, if_pos mismatch, raiseState_malformedArtifact]
  · refine ⟨(symbolsOf_eq_nil_iff_of_countSum sum).2 zero, ?_⟩
    rw [answer, if_neg fun h => h.2 zero, if_neg (not_not.2 sum), if_pos zero]
    rfl
  · have symbol : symbolsOf s.freq ≠ [] := fun h => pos ((symbolsOf_eq_nil_iff_of_countSum sum).1 h)
    refine ⟨symbol, ?_⟩
    rw [answer, if_neg fun h => symbol h.1, if_neg (not_not.2 sum), if_neg pos]
    rfl

/-! ### DEC_WALK -/

/-- Settles O49: `walkLoop_ahead` is the induction over the bits, `execDecWalk_ref` the phase around the loop. -/
theorem decWalkFollowsTheBits : Obligations.DecWalkFollowsTheBits :=
  fun _ _ noneHeld unread => execDecWalk_ref noneHeld unread rfl

/-! ### The round trip -/

/-- The code of every byte value in the tree is the path to it (43 R177). -/
def CodesFollow (c : CodeTable) (T : Shape) : Prop := ∀ p x, T.HasPath p x → (codeAt c.code x).toBits = p

/-- The decoder's walk over the code bits of an input gives the input back and stops after the last of them, whatever
follows (46 R226). -/
theorem Built.walk_bodyBits {f : Freq} {t : TreeBuilder} {l r : Shape} {c : CodeTable} {bs : List Byte} (built : Built f t l r)
    (codes : CodesFollow c (.node l r)) (counted : ∀ x ∈ bs, freqAt f x ≠ 0) (tail : List Bool) :
    t.walk bs.length (bodyBits c bs ++ tail) =
      { bytes := bs, used := (bodyBits c bs).length, cur := t.root, at_ := .atRoot, how := .finished } := by
  refine refWalk_body built.reads tail fun x hx => ?_
  obtain ⟨p, path⟩ := Shape.mem_leaves_iff.1 (built.leaves.mem_iff.2 (mem_symbolsOf.2 (counted x hx)))
  rw [codes p x path]
  exact path

section
variable (v : Word) (f : Freq) (body : List Byte)

theorem take_artifact : (headerBytes v f ++ body).take 2056 = headerBytes v f := List.take_left' (length_headerBytes v f)

theorem drop_artifact : (headerBytes v f ++ body).drop 2056 = body := List.drop_left' (length_headerBytes v f)

theorem le_length_artifact : 2056 ≤ (headerBytes v f ++ body).length := by
  rw [List.length_append, length_headerBytes]
  omega

end

/-- DECODE of the artifact of a non-empty input: the decoder builds the tree of the counts again, whose paths are the
codes that the body was written with (46 R226). -/
theorem Loaded.decode_artifact {s : State} {bs body : List Byte} {v : Word} {l r : Shape} {c : CodeTable}
    (h : Loaded s 2 (headerBytes v (freqOf bs) ++ body)) (length : v.toNat = bs.length) (ne : bs ≠ [])
    (C : Canon (freqOf bs) l r) (codes : CodesFollow c (.node l r)) (isBody : IsBody (bodyBits c bs) body) :
    ∃ t, steps 7 s = some t ∧ t.state = .done ∧ t.cond = { code := .ok, sub := 0 } ∧ t.out = bs ∧
      t.bitCount.toNat = (bodyBits c bs).length := by
  have fits : bs.length < 2 ^ 64 := length ▸ v.isLt
  have run := h.decode_ends_as_walk (l := l) (r := r) (le_length_artifact _ _ _)
  rw [take_artifact, drop_artifact, fieldAt_headerBytes_len, headerFreq_headerBytes, isBody, length] at run
  have notEmpty : v ≠ 0 := by
    rintro rfl
    exact ne (List.length_eq_zero_iff.1 length.symm)
  obtain ⟨t, run, built, ended⟩ := run (countSum_freqOf fits) notEmpty C
  rw [built.walk_bodyBits codes fun x => (freqAt_freqOf fits x).2] at ended
  exact ⟨t, run, ended.state, ended.cond, ended.out, ended.bitCount⟩

/-- DECODE of the artifact of the empty input (46 R218). -/
theorem Loaded.decode_emptyArtifact {s : State} (h : Loaded s 2 (headerBytes 0 (Vector.replicate 256 0))) :
    ∃ t, steps 4 s = some t ∧ t.state = .done ∧ t.cond = { code := .emptyInput, sub := 0 } ∧ t.out = [] ∧ t.bitCount = 0 := by
  obtain ⟨-, -, run, -⟩ := decRun h (length_headerBytes _ _).ge _ rfl _ rfl
  rw [List.take_of_length_le (length_headerBytes _ _).le, fieldAt_headerBytes_len, headerFreq_headerBytes, ← freqOf_nil] at run
  exact ⟨_, run (countSum_freqOf (by decide)) rfl, rfl, rfl, h.out_eq_nil, rfl⟩

/-- ENCODE of the empty input (45 R201), as far as its DECODE depends on it. -/
theorem Loaded.encode_empty {s : State} (h : Loaded s 1 []) : ∃ t, steps 4 s = some t ∧ t.state = .done ∧
    t.cond = { code := .emptyInput, sub := 0 } ∧ t.out = headerBytes 0 (Vector.replicate 256 0) ∧ t.bitCount = 0 := by
  obtain ⟨t, rfl, run⟩ := encEmpty h
  refine ⟨_, run, rfl, rfl, ?_, rfl⟩
  have noInput : s.inLen = 0 := BitVec.eq_of_toNat_eq h.length
  show s.out ++ headerBytes s.inLen (Vector.replicate 256 0) = _
  rw [h.out_eq_nil, noInput, List.nil_append]

/-- ENCODE of a non-empty input (45 R205), as far as its DECODE depends on it. -/
theorem Loaded.encode_nonempty {s : State} {bs : List Byte} {l r : Shape} (h : Loaded s 1 bs) (ne : bs ≠ [])
    (C : Canon (freqOf bs) l r) : ∃ t c body, steps 9 s = some t ∧ t.state = .done ∧ t.cond = { code := .ok, sub := 0 } ∧
      t.out = headerBytes s.inLen (freqOf bs) ++ body ∧ CodesFollow c (.node l r) ∧ IsBody (bodyBits c bs) body ∧
      t.bitCount.toNat = (bodyBits c bs).length := by
  have fits := h.length_le
  obtain ⟨v, c, body, -, codes, -, isBody, run⟩ := encRun bs ne (by omega) C s h
  refine ⟨_, c, body, run, rfl, rfl, ?_, fun p x path => (codes p x path).1, isBody, toNat_bitCount_encEnd fits⟩
  show s.out ++ _ ++ body = _
  rw [h.out_eq_nil, List.nil_append]

/-- Settles O57: the two sides meet in the artifact and in the one tree that its counts determine. -/
theorem decodeInvertsEncode : Obligations.DecodeInvertsEncode := by
  intro s1 bs h1
  by_cases empty : bs = []
  · subst empty
    obtain ⟨t1, run1, done1, cond1, out1, bits1⟩ := h1.encode_empty
    refine ⟨4, t1, by decide, run1, done1, by rw [if_pos rfl, cond1], fun s2 h2 => ?_⟩
    rw [out1] at h2
    obtain ⟨t2, run2, done2, cond2, out2, bits2⟩ := h2.decode_emptyArtifact
    exact ⟨4, t2, by decide, run2, done2, by rw [if_pos rfl, cond2], out2, bits2.trans bits1.symm⟩
  · have fits := h1.length_le
    obtain ⟨l, r, C⟩ := exists_canon (symbols_ne empty (by omega))
    obtain ⟨t1, c, body, run1, done1, cond1, out1, codes, isBody, bits1⟩ := h1.encode_nonempty empty C
    refine ⟨9, t1, le_rfl, run1, done1, by rw [if_neg empty, cond1], fun s2 h2 => ?_⟩
    rw [out1] at h2
    obtain ⟨t2, run2, done2, cond2, out2, bits2⟩ := h2.decode_artifact h1.length empty C codes isBody
    exact ⟨7, t2, le_rfl, run2, done2, by rw [if_neg empty, cond2], out2, BitVec.eq_of_toNat_eq (bits2.trans bits1.symm)⟩

end Sys2Proof.Machine
end

section
/-! The ends of a command (60_exceptions): what a raise does and that nothing runs after it, which steps can change `STATE` and
`FATAL`, and the rows of the error table (R236) as the ways in which a running command ends. -/
namespace Sys2Proof.Machine

/-! ### The raise -/

/-- Without a command and a host action a step changes nothing (10_state R33, 60_exceptions R249). -/
theorem step_of_nothing_to_do {s : State} (quiet : s.script = []) (notBusy : s.state ≠ .busy) : step s = .next s :=
  step_of_answer (by simp [nextAction, quiet, coreTurn, notBusy])

/-- Settles O52: `FATAL` is 1 after the raise if it was before or if the kind sets it, and an ERROR block has no turn. -/
theorem raiseStopsTheCommand : Obligations.RaiseStopsTheCommand := by
  intro kind sub s
  refine ⟨?_, fun quiet => step_of_nothing_to_do quiet (by simp)⟩
  have fatal : (s.fatal || kind == .invariantViolation) = if kind = .invariantViolation then true else s.fatal := by
    split_ifs with violation <;> simp [violation]
  rw [raiseState, fatal]

/-! ### What a step does to `STATE` and `FATAL` -/

@[simp] theorem regWrite_state (r v : Word) (s : State) : (regWrite r v s).state = s.state := by
  unfold regWrite
  split <;> rfl

@[simp] theorem regWrite_fatal (r v : Word) (s : State) : (regWrite r v s).fatal = s.fatal := by
  unfold regWrite
  split <;> rfl

@[simp] theorem inWrite_state (a : Word) (b : Byte) (s : State) : (inWrite a b s).state = s.state := by
  unfold inWrite
  split <;> rfl

@[simp] theorem inWrite_fatal (a : Word) (b : Byte) (s : State) : (inWrite a b s).fatal = s.fatal := by
  unfold inWrite
  split <;> rfl

/-- What a step can do to `STATE` and `FATAL`: only a phase, a start, an acknowledge and the reset input touch them. -/
inductive StatusStep (s t : State) : Prop
  | kept (state : t.state = s.state) (fatal : t.fatal = s.fatal)
  /-- A phase runs, on the state before up to what the host's script still holds. -/
  | phase (i : Instr) (l : List HostOp) (busy : s.state = .busy) (dec : decodePhase s.phase = .ok i)
      (run : exec i { s with script := l } = .next t)
  | started (idle : s.state = .idle) (state : t.state = .busy) (fatal : t.fatal = s.fatal)
  | acknowledged (r : Word) (rest : List HostOp) (head : s.script = .regWrite r 3 :: rest) (ctrl : r.toNat = 0)
      (accepted : s.fatal = false) (state : t.state = .idle) (fatal : t.fatal = s.fatal)
  | reset (rest : List HostOp) (head : s.script = .reset :: rest) (state : t.state = .idle)

theorem Stepped.statusStep {s t : State} (h : Stepped s t) : StatusStep s t := by
  cases h with
  | phase i s0 turn busy dec run =>
    obtain ⟨l, rfl⟩ := turn.fields
    exact .phase i l busy dec run
  | quiet s0 turn notBusy eq =>
    obtain ⟨l, rfl⟩ := turn.fields
    subst eq
    exact .kept rfl rfl
  | command r v rest i head ctrl dec run =>
    rcases command_cases dec run with ⟨-, rfl⟩ | ⟨-, rfl⟩ | ⟨-, accepted, op, rfl⟩ | ⟨rfl, accepted, rfl⟩
    · exact .kept rfl rfl
    · exact .kept rfl rfl
    · obtain ⟨-, idle, -⟩ := startAccepted_iff.1 accepted
      exact .started idle rfl rfl
    · obtain ⟨notFatal, -⟩ := clearAccepted_iff.1 accepted
      exact .acknowledged r rest head ctrl notFatal rfl rfl
  | illegal r v rest e head ctrl dec eq => subst eq; exact .kept rfl rfl
  | regWrite r v rest head other free eq => subst eq; exact .kept (by simp) (by simp)
  | regRead r rest head eq => subst eq; exact .kept rfl rfl
  | inWrite a b rest head free eq => subst eq; exact .kept (by simp) (by simp)
  | outPop rest head unread eq => subst eq; exact .kept rfl rfl
  | drain rest head eq => subst eq; exact .kept rfl rfl
  | reset rest head eq => subst eq; exact .reset rest head rfl

/-- A phase never clears `FATAL` (60_exceptions R240). -/
theorem PhaseEnd.fatal_of_fatal {i : Instr} {s t : State} (h : PhaseEnd i s t) (fatal : s.fatal = true) : t.fatal = true := by
  cases h with
  | goesOn _ kept => exact kept.trans fatal
  | finishes _ _ kept => exact kept.trans fatal
  | raises _ _ kept => exact kept.trans fatal
  | violates _ _ set => exact set

theorem exec_encode_of_not_accepted {s : State} (h : ¬ startAccepted s = true) : exec .encode s = .next (reject s) := by
  rw [(execStart_eq s).1, if_neg h]

theorem exec_decode_of_not_accepted {s : State} (h : ¬ startAccepted s = true) : exec .decode s = .next (reject s) := by
  rw [(execStart_eq s).2, if_neg h]

/-- Settles O14: acceptance asks for `FATAL = 0`, and of the steps that touch `FATAL` only the reset input clears it. -/
theorem fatalIsLeftOnlyByReset : Obligations.FatalIsLeftOnlyByReset := by
  intro s fatal
  have noStart : ¬ startAccepted s = true := fun h => by simp [fatal, startAccepted_iff] at h
  have noClear : ¬ clearAccepted s = true := fun h => by simp [fatal, clearAccepted_iff] at h
  refine ⟨?_, rfl, fun t h noReset => ?_⟩
  · simp only [List.mem_cons, List.not_mem_nil, or_false]
    rintro i (rfl | rfl | rfl)
    · exact exec_encode_of_not_accepted noStart
    · exact exec_decode_of_not_accepted noStart
    · exact exec_clear_of_not_accepted noClear
  · cases (step_stepped h).statusStep with
    | kept _ kept => exact kept.trans fatal
    | phase i l _ dec run => exact (phase_effect dec run).ends.fatal_of_fatal fatal
    | started _ _ kept => exact kept.trans fatal
    | acknowledged _ _ _ _ _ _ kept => exact kept.trans fatal
    | reset rest head => exact absurd (by rw [head]; rfl) noReset

theorem doneLine_eq_true_iff {s : State} : doneLine s = true ↔ s.state = .done ∨ s.state = .error := by
  simp [doneLine]

/-- Settles O18: in DONE and ERROR no phase runs and no command starts, so `STATE` changes by CLEAR or reset alone. -/
theorem doneLineFollowsState : Obligations.DoneLineFollowsState := by
  refine fun s => ⟨doneLine_eq_true_iff, fun t h up down => ?_⟩
  rw [doneLine_eq_true_iff] at up
  cases (step_stepped h).statusStep with
  | kept state =>
    rw [← state, ← doneLine_eq_true_iff, down] at up
    cases up
  | phase _ _ busy => simp [busy] at up
  | started idle => simp [idle] at up
  | acknowledged r rest head ctrl accepted => exact .inr ⟨accepted, r, rest, head, ctrl⟩
  | reset rest head => exact .inl ⟨rest, head⟩

/-! ### The rows of the error table -/

/-- The rows of 60_exceptions R236: a command that runs in `s` ends in `t`, with the cause of the row in `s` (for the two rows
of DEC_WALK, in `t`, where the walk stands). -/
inductive ErrorTableRow (s t : State) : Prop
  | ok (state : t.state = .done) (cond : t.cond = { code := .ok, sub := 0 }) (errPos : t.errPos = 0)
      (phase : s.phase = 8 ∨ s.phase = 11)
  | emptyInput (state : t.state = .done) (cond : t.cond = { code := .emptyInput, sub := 0 }) (errPos : t.errPos = 0)
      (cause : s.phase = 6 ∧ s.len = 0 ∨ s.phase = 10 ∧ s.origLen = 0 ∧ symbolsOf s.freq = [])
  | headerShort (state : t.state = .error) (cond : t.cond = { code := .malformedArtifact, sub := 1 }) (errPos : t.errPos = 0)
      (phase : s.phase = 9) (short : s.len.toNat < 2056)
  | zeroSymbols (state : t.state = .error) (cond : t.cond = { code := .malformedArtifact, sub := 2 })
      (errPos : t.errPos = 2056) (phase : s.phase = 10) (noSymbol : symbolsOf s.freq = []) (nonEmpty : s.origLen ≠ 0)
  | weightMismatch (state : t.state = .error) (cond : t.cond = { code := .malformedArtifact, sub := 3 })
      (errPos : t.errPos = 2056) (phase : s.phase = 10) (mismatch : countSum s.freq ≠ s.origLen.toNat)
  | placeholderPath (state : t.state = .error) (cond : t.cond = { code := .malformedArtifact, sub := 4 })
      (errPos : t.errPos = t.inPtr) (phase : s.phase = 11) (kind : (nodeAt t.tree.node t.cur).kind = .placeholder)
  | truncatedBitstream (state : t.state = .error) (cond : t.cond = { code := .truncatedBitstream, sub := 0 })
      (errPos : t.errPos = s.len) (phase : s.phase = 11) (more : t.outLen < t.origLen)
  | codeAbsent (state : t.state = .error) (cond : t.cond = { code := .invariantViolation, sub := 1 })
      (fatal : t.fatal = true) (phase : s.phase = 7) (inside : t.errPos < s.len)
      (absent : ∃ b, s.inBuf.read t.errPos.toNat = some b ∧ (codeAt s.ct.code b).len = 0)

section
variable {s t : State}

/-! One lemma per phase that can end a command: the row it ends with. -/

theorem execHdrEmit_row (busy : s.state = .busy) (phase : s.phase = 6) (h : execHdrEmit s = .next t)
    (stopped : t.state ≠ .busy) : ErrorTableRow s t := by
  rw [execHdrEmit_eq] at h
  obtain rfl := Host.Outcome.next.inj h
  by_cases empty : s.len = 0
  · rw [if_pos empty]
    exact .emptyInput rfl rfl rfl (.inl ⟨phase, empty⟩)
  · rw [if_neg empty] at stopped
    exact absurd busy stopped

theorem execEncBody_row (busy : s.state = .busy) (phase : s.phase = 7) (h : execEncBody s = .next t)
    (stopped : t.state ≠ .busy) : ErrorTableRow s t := by
  rcases execEncBody_next h with ⟨bs, -, -, -, rfl⟩ | ⟨bs, b, more, present, -, absent, rfl⟩
  · rw [bwPutBits_frame] at stopped
    exact absurd busy stopped
  · have index : (BitVec.ofNat 64 bs.length).toNat = bs.length := by
      rw [BitVec.toNat_ofNat, Nat.mod_eq_of_lt (more.trans s.len.isLt)]
    have read : s.inBuf.read bs.length = some b := by
      simpa using present bs.length (by simp)
    refine .codeAbsent rfl rfl (by simp) phase ?_ ⟨b, ?_, absent⟩
    · rw [raiseState_errPos, BitVec.lt_def, index]
      exact more
    · rw [raiseState_errPos, index]
      exact read

theorem execBwFlush_row (phase : s.phase = 8) (h : execBwFlush s = .next t) : ErrorTableRow s t := by
  rw [execBwFlush_eq] at h
  obtain rfl := Host.Outcome.next.inj h
  split
  · exact .ok rfl rfl rfl (.inl phase)
  · exact .ok rfl rfl rfl (.inl phase)

/-! The invariant knows the command and `IN_PTR` of the phases that raise; the rows of the decoder's phases rest on it. -/

variable (inv : s.Inv) (busy : s.state = .busy)
include inv busy

/-- ENC_BODY is a phase of ENCODE only (45 R200). -/
theorem State.Inv.op_of_encBody (phase : s.phase = 7) : s.op = .encode := by
  obtain ⟨mem, -⟩ := inv.busy busy
  cases op : s.op with
  | encode => rfl
  | decode => simp [op, phase, Op.phases] at mem

/-- HDR_PARSE, HDR_CHECK and DEC_WALK are phases of DECODE only (46 R215). -/
theorem State.Inv.op_of_decoderPhase (phase : s.phase = 9 ∨ s.phase = 10 ∨ s.phase = 11) : s.op = .decode := by
  obtain ⟨mem, -⟩ := inv.busy busy
  cases op : s.op with
  | decode => rfl
  | encode => rcases phase with phase | phase | phase <;> simp [op, phase, Op.phases] at mem

/-- HDR_PARSE finds `IN_PTR` where FC_CLEAR left it (41 R141, 46 R216). -/
theorem State.Inv.inPtr_of_hdrParse (phase : s.phase = 9) : s.inPtr = 0 := by
  obtain ⟨-, start, -⟩ := inv.decodes busy (inv.op_of_decoderPhase busy (.inl phase)) (by simp [phase])
  exact start phase

/-- HDR_CHECK finds `IN_PTR` behind the header (46 R216, R217). -/
theorem State.Inv.inPtr_of_hdrCheck (phase : s.phase = 10) : s.inPtr = 2056 := by
  obtain ⟨-, -, behind⟩ := inv.decodes busy (inv.op_of_decoderPhase busy (.inr (.inl phase))) (by simp [phase])
  exact behind (by simp [phase])

theorem execHdrParse_row (phase : s.phase = 9) (h : execHdrParse s = .next t) (stopped : t.state ≠ .busy) :
    ErrorTableRow s t := by
  rcases execHdrParse_next h with ⟨short, rfl⟩ | ⟨hdr, -, -, -, rfl⟩
  · exact .headerShort rfl rfl (inv.inPtr_of_hdrParse busy phase) phase short
  · exact absurd busy stopped

theorem execHdrCheck_row (phase : s.phase = 10) (h : execHdrCheck s = .next t) (stopped : t.state ≠ .busy) :
    ErrorTableRow s t := by
  have errPos := inv.inPtr_of_hdrCheck busy phase
  rw [execHdrCheck_eq] at h
  obtain rfl := Host.Outcome.next.inj h
  split_ifs at stopped ⊢ with noSymbol mismatch empty
  · exact .zeroSymbols rfl rfl errPos phase noSymbol.1 noSymbol.2
  · exact .weightMismatch rfl rfl errPos phase mismatch
  · have zero : countSum s.freq = 0 := by rw [not_not.1 mismatch, empty]; rfl
    exact .emptyInput rfl rfl rfl (.inr ⟨phase, empty, countSum_eq_zero.1 zero⟩)
  · exact absurd busy stopped

/-- The walk never leaves the input, so it runs out of bits with `IN_PTR` at `LEN` (44 R190, 46 R224). -/
theorem execDecWalk_row (phase : s.phase = 11) (h : execDecWalk s = .next t) : ErrorTableRow s t := by
  rcases execDecWalk_next h with ⟨u, -, -, rfl⟩ | ⟨u, frame, more, ⟨rfl, -, atEnd⟩ | ⟨rfl, kind⟩⟩
  · exact .ok rfl rfl rfl (.inr phase)
  · have inside := frame.inPtr (inv.inPtr busy (by simp [phase]))
    have len : u.len = s.len := by rw [frame.state]
    exact .truncatedBitstream rfl rfl (BitVec.le_antisymm inside (len ▸ atEnd)) phase more
  · exact .placeholderPath rfl rfl rfl phase kind

/-- A phase that does not go on ends the command with a row of the error table. -/
theorem phase_row {i : Instr} (dec : decodePhase s.phase = .ok i) (run : exec i s = .next t) (stopped : t.state ≠ .busy) :
    ErrorTableRow s t := by
  have noEnd {p : BitVec 4} (goesOn : GoesTo s t p) : ErrorTableRow s t := by
    obtain ⟨-, state, -⟩ := goesOn
    exact absurd (state.trans busy) stopped
  rcases decodePhase_ok dec with ⟨phase, rfl⟩ | ⟨phase, rfl⟩ | ⟨phase, rfl⟩ | ⟨phase, rfl⟩ | ⟨phase, rfl⟩ | ⟨phase, rfl⟩ |
    ⟨phase, rfl⟩ | ⟨phase, rfl⟩ | ⟨phase, rfl⟩ | ⟨phase, rfl⟩ | ⟨phase, rfl⟩
  · exact noEnd (execFcClear_goesTo run)
  · exact noEnd (execFcCount_goesTo run)
  · exact noEnd (execTbLeaves_goesTo run)
  · exact noEnd (execTbMerge_goesTo run)
  · exact noEnd (execCtWalk_goesTo run)
  · exact execHdrEmit_row busy phase run stopped
  · exact execEncBody_row busy phase run stopped
  · exact execBwFlush_row phase run
  · exact execHdrParse_row inv busy phase run stopped
  · exact execHdrCheck_row inv busy phase run stopped
  · exact execDecWalk_row inv busy phase run

/-- "ENCODE can raise only code 4; DECODE can raise only codes 2 and 3" (60_exceptions R236). -/
theorem ErrorTableRow.violation_iff_encode (row : ErrorTableRow s t) (failed : t.state = .error) :
    t.cond.code = .invariantViolation ↔ s.op = .encode := by
  have decoding (phase : s.phase = 9 ∨ s.phase = 10 ∨ s.phase = 11) := inv.op_of_decoderPhase busy phase
  cases row with
  | ok state | emptyInput state => simp [state] at failed
  | headerShort _ cond _ phase => simp [cond, decoding (.inl phase)]
  | zeroSymbols _ cond _ phase | weightMismatch _ cond _ phase => simp [cond, decoding (.inr (.inl phase))]
  | placeholderPath _ cond _ phase | truncatedBitstream _ cond _ phase => simp [cond, decoding (.inr (.inr phase))]
  | codeAbsent _ cond _ phase => simp [cond, inv.op_of_encBody busy phase]

end

/-- The end of a command keeps `PHASE` (40_commands R131, 60_exceptions R240). -/
theorem PhaseEnd.phase_of_stopped {i : Instr} {s t : State} (h : PhaseEnd i s t) (busy : s.state = .busy)
    (stopped : t.state ≠ .busy) : t.phase = s.phase := by
  cases h with
  | goesOn state => exact absurd (state.trans busy) stopped
  | finishes _ phase | raises _ phase | violates _ phase => exact phase

/-- Only InvariantViolation sets `FATAL` (60_exceptions R240). -/
theorem PhaseEnd.fatal_eq_of_not_violation {i : Instr} {s t : State} (h : PhaseEnd i s t)
    (kind : t.cond.code ≠ .invariantViolation) : t.fatal = s.fatal := by
  cases h with
  | goesOn _ fatal | finishes _ _ fatal | raises _ _ fatal => exact fatal
  | violates _ _ _ _ _ cond => exact absurd (congrArg Cond.code cond) kind

/-- The invariant does not look at the host's script. -/
theorem State.Inv.withScript {s : State} (inv : s.Inv) (l : List HostOp) : { s with script := l }.Inv :=
  ⟨inv.memWf, inv.memInside, inv.outLen, inv.outRd, inv.idle, inv.busy, inv.inPtr, inv.fresh, inv.encodes, inv.decodes,
    inv.done, inv.error⟩

/-- The only steps that take a BUSY block to DONE or ERROR are those of a phase. -/
theorem exists_phase_of_end {s t : State} (busy : s.state = .busy) (h : step s = .next t)
    (ended : t.state = .done ∨ t.state = .error) :
    ∃ i l, decodePhase s.phase = .ok i ∧ exec i { s with script := l } = .next t := by
  cases (step_stepped h).statusStep with
  | kept state => simp [state, busy] at ended
  | phase i l _ dec run => exact ⟨i, l, dec, run⟩
  | started idle => simp [idle] at busy
  | acknowledged _ _ _ _ _ state | reset _ _ state => simp [state] at ended

/-- Settles O53: the step is one of a phase, and each phase ends with its rows; `FATAL` was 0, since the command ran. -/
theorem commandEndsAreRowsOfTheErrorTable : Obligations.CommandEndsAreRowsOfTheErrorTable := by
  intro s t inv busy h ended
  obtain ⟨i, l, dec, run⟩ := exists_phase_of_end busy h ended
  obtain ⟨-, notFatal, -⟩ := inv.busy busy
  have effect := phase_effect dec run
  have stopped : t.state ≠ .busy := by rintro state; simp [state] at ended
  have row := phase_row (inv.withScript l) busy dec run stopped
  refine ⟨effect.op, effect.ends.phase_of_stopped busy stopped, ?_,
    fun kind => (effect.ends.fatal_eq_of_not_violation kind).trans notFatal, fun failed => ?_⟩
  · cases row with
    | ok state cond errPos phase => exact .inl ⟨state, cond, errPos, phase⟩
    | emptyInput state cond errPos cause => exact .inr (.inl ⟨state, cond, errPos, cause⟩)
    | headerShort state cond errPos phase short => exact .inr (.inr (.inl ⟨state, cond, errPos, phase, short⟩))
    | zeroSymbols state cond errPos phase noSymbol nonEmpty =>
      exact .inr (.inr (.inr (.inl ⟨state, cond, errPos, phase, noSymbol, nonEmpty⟩)))
    | weightMismatch state cond errPos phase mismatch =>
      exact .inr (.inr (.inr (.inr (.inl ⟨state, cond, errPos, phase, mismatch⟩))))
    | placeholderPath state cond errPos phase kind =>
      exact .inr (.inr (.inr (.inr (.inr (.inl ⟨state, cond, errPos, phase, kind⟩)))))
    | truncatedBitstream state cond errPos phase more =>
      exact .inr (.inr (.inr (.inr (.inr (.inr (.inl ⟨state, cond, errPos, phase, more⟩))))))
    | codeAbsent state cond fatal phase inside absent =>
      exact .inr (.inr (.inr (.inr (.inr (.inr (.inr ⟨state, cond, fatal, phase, inside, absent⟩))))))
  · rw [effect.op]
    exact row.violation_iff_encode (inv.withScript l) busy failed

end Sys2Proof.Machine
end

section
/-! Whole commands, whatever came before them (40_commands R132, 70_reset R268): two blocks with the same input loaded and the
same command written run through the same phases in step and end with the same result. -/
namespace Sys2Proof.Machine

/-! ### The result of a command -/

/-- What 70_reset R268 calls the result: the registers the host reads after a command, and `OUT`. -/
structure Result where
  state : Proto
  phase : BitVec 4
  op : Op
  fatal : Bool
  cond : Cond
  errPos : Word
  inLen : Word
  outLen : Word
  bitCount : Word
  symCount : BitVec 9
  origLen : Word
  out : List Byte

/-- The result as it stands in a state. -/
def State.result (t : State) : Result where
  state := t.state
  phase := t.phase
  op := t.op
  fatal := t.fatal
  cond := t.cond
  errPos := t.errPos
  inLen := t.inLen
  outLen := t.outLen
  bitCount := t.bitCount
  symCount := t.symCount
  origLen := t.origLen
  out := t.out

/-- Two blocks end their command after the same number of steps, at most nine, with nothing pending and the same result. -/
def EndAlike (s1 s2 : State) : Prop :=
  ∃ (k : Nat) (t1 t2 : State), k ≤ 9 ∧ steps k s1 = some t1 ∧ steps k s2 = some t2 ∧
    (t1.state = .done ∨ t1.state = .error) ∧ t1.script = [] ∧ t1.result = t2.result

/-- What of the block before the command can reach the result of the command. -/
structure SameStart (s1 s2 : State) : Prop where
  inLen : s1.inLen = s2.inLen
  fatal : s1.fatal = s2.fatal
  out : s1.out = s2.out

theorem Loaded.fatal_eq_false {s : State} {cmd : Word} {bs : List Byte} (h : Loaded s cmd bs) : s.fatal = false := by
  obtain ⟨-, -, fatal, -⟩ := h.inv.idle h.idle
  exact fatal

theorem Loaded.sameStart {s1 s2 : State} {cmd : Word} {bs : List Byte} (h1 : Loaded s1 cmd bs) (h2 : Loaded s2 cmd bs) :
    SameStart s1 s2 where
  inLen := BitVec.eq_of_toNat_eq (h1.length.trans h2.length.symm)
  fatal := h1.fatal_eq_false.trans h2.fatal_eq_false.symm
  out := h1.out_eq_nil.trans h2.out_eq_nil.symm

/-! ### ENCODE -/

/-- The body is a function of the tree: the code of a byte is the path to its leaf, and the bits determine the bytes. -/
theorem bodyBits_eq_of_codesFollow {c1 c2 : CodeTable} {T : Shape} {bs : List Byte} (codes1 : CodesFollow c1 T)
    (codes2 : CodesFollow c2 T) (inTree : ∀ x ∈ bs, x ∈ T.leaves) : bodyBits c1 bs = bodyBits c2 bs := by
  refine List.flatMap_congr fun x hx => ?_
  obtain ⟨p, path⟩ := Shape.mem_leaves_iff.1 (inTree x hx)
  rw [codes1 p x path, codes2 p x path]

theorem IsBody.unique {w : List Bool} {body1 body2 : List Byte} (h1 : IsBody w body1) (h2 : IsBody w body2) : body1 = body2 :=
  bytesBits_injective (h1.trans h2.symm)

section
variable {s1 s2 : State} {bs : List Byte}

theorem encode_empty_alike (h1 : Loaded s1 1 []) (h2 : Loaded s2 1 []) : EndAlike s1 s2 := by
  obtain ⟨t1, e1, run1⟩ := encEmpty h1
  obtain ⟨t2, e2, run2⟩ := encEmpty h2
  refine ⟨4, t1, t2, by decide, run1, run2, .inl (by rw [e1]), by rw [e1], ?_⟩
  obtain ⟨inLen, fatal, out⟩ := h1.sameStart h2
  simp only [State.result, e1, e2, inLen, fatal, out]

theorem encode_nonempty_alike (h1 : Loaded s1 1 bs) (h2 : Loaded s2 1 bs) (ne : bs ≠ []) : EndAlike s1 s2 := by
  have fits : bs.length < 2 ^ 64 := h1.length ▸ s1.inLen.isLt
  obtain ⟨l, r, C⟩ := exists_canon (symbols_ne ne fits)
  obtain ⟨v1, c1, body1, built, codes1, -, isBody1, run1⟩ := encRun bs ne fits C s1 h1
  obtain ⟨v2, c2, body2, -, codes2, -, isBody2, run2⟩ := encRun bs ne fits C s2 h2
  have bits : bodyBits c1 bs = bodyBits c2 bs :=
    bodyBits_eq_of_codesFollow (fun p x path => (codes1 p x path).1) (fun p x path => (codes2 p x path).1)
      fun x hx => built.leaves.mem_iff.2 (mem_symbolsOf.2 ((freqAt_freqOf fits x).2 hx))
  rw [bits] at isBody1
  obtain rfl := isBody1.unique isBody2
  refine ⟨9, _, _, le_rfl, run1, run2, .inl rfl, rfl, ?_⟩
  obtain ⟨inLen, fatal, out⟩ := h1.sameStart h2
  simp only [State.result, encEnd, bits, inLen, fatal, out]

/-! ### DECODE -/

theorem decode_short_alike (h1 : Loaded s1 2 bs) (h2 : Loaded s2 2 bs) (short : bs.length < 2056) : EndAlike s1 s2 := by
  refine ⟨3, _, _, by decide, decShort h1 short, decShort h2 short, .inr rfl, rfl, ?_⟩
  obtain ⟨inLen, fatal, out⟩ := h1.sameStart h2
  simp only [State.result, raiseState, dPre, inLen, fatal, out]

/-- A header that HDR_CHECK does not let pass, or of the empty artifact: the command ends in HDR_CHECK (46 R217, R218). -/
theorem decode_header_alike (h1 : Loaded s1 2 bs) (h2 : Loaded s2 2 bs) (long : 2056 ≤ bs.length)
    (stops : countSum (headerFreq (bs.take 2056)) ≠ (fieldAt (bs.take 2056) 0).toNat ∨ fieldAt (bs.take 2056) 0 = 0) :
    EndAlike s1 s2 := by
  obtain ⟨noSymbol1, mismatch1, empty1, -⟩ := decRun h1 long _ rfl _ rfl
  obtain ⟨noSymbol2, mismatch2, empty2, -⟩ := decRun h2 long _ rfl _ rfl
  obtain ⟨inLen, fatal, out⟩ := h1.sameStart h2
  by_cases sum : countSum (headerFreq (bs.take 2056)) = (fieldAt (bs.take 2056) 0).toNat
  · have zero := stops.resolve_left (not_not.2 sum)
    refine ⟨4, _, _, by decide, empty1 sum zero, empty2 sum zero, .inl rfl, rfl, ?_⟩
    simp only [State.result, finish, dHdr, dPre, inLen, fatal, out]
  · by_cases symbols : symbolsOf (headerFreq (bs.take 2056)) = []
    · have pos : fieldAt (bs.take 2056) 0 ≠ 0 := fun zero =>
        sum ((countSum_eq_zero.2 symbols).trans (by rw [zero]; rfl))
      refine ⟨4, _, _, by decide, noSymbol1 symbols pos, noSymbol2 symbols pos, .inr rfl, rfl, ?_⟩
      simp only [State.result, raiseState, dHdr, dPre, inLen, fatal, out]
    · refine ⟨4, _, _, by decide, mismatch1 symbols sum, mismatch2 symbols sum, .inr rfl, rfl, ?_⟩
      simp only [State.result, raiseState, dHdr, dPre, inLen, fatal, out]

@[simp] theorem WalkEnd.close_script (e : WalkEnd) (t : State) : (e.close t).script = t.script := by cases e <;> rfl

theorem WalkEnd.close_ended (e : WalkEnd) (t : State) : (e.close t).state = .done ∨ (e.close t).state = .error := by
  cases e
  · exact .inl rfl
  · exact .inr rfl
  · exact .inr rfl

/-- The end of the walk adds nothing to the result but `IN_PTR`, in `ERR_POS` (60_exceptions R240). -/
theorem WalkEnd.close_result (e : WalkEnd) {t1 t2 : State} (result : t1.result = t2.result) (inPtr : t1.inPtr = t2.inPtr) :
    (e.close t1).result = (e.close t2).result := by
  simp only [State.result, Result.mk.injEq] at result
  cases e <;> simp only [WalkEnd.close, State.result, result, inPtr]

/-- The trees of the two blocks read as the same shape, so the walks over the same bits emit and use the same (46 R220). -/
theorem decode_walk_alike (h1 : Loaded s1 2 bs) (h2 : Loaded s2 2 bs) (long : 2056 ≤ bs.length)
    (sum : countSum (headerFreq (bs.take 2056)) = (fieldAt (bs.take 2056) 0).toNat) (pos : fieldAt (bs.take 2056) 0 ≠ 0) :
    EndAlike s1 s2 := by
  have symbols : symbolsOf (headerFreq (bs.take 2056)) ≠ [] := fun none =>
    pos ((symbolsOf_eq_nil_iff_of_countSum sum).1 none)
  obtain ⟨l, r, C⟩ := exists_canon symbols
  obtain ⟨tree1, rb1, rn1, p1, built1, used1, run1⟩ := decWalk h1 long _ rfl _ rfl sum pos C
  obtain ⟨tree2, rb2, rn2, p2, built2, used2, run2⟩ := decWalk h2 long _ rfl _ rfl sum pos C
  obtain ⟨bytes, used, how⟩ := refWalk_congr built1.reads built2.reads (bytesBits (bs.drop 2056)) (w := .atRoot)
    (w' := .atRoot) (need := (fieldAt (bs.take 2056) 0).toNat) built1.reads built2.reads
  have inPtr : p1 = p2 := BitVec.eq_of_toNat_eq (by rw [used1, used2, used])
  refine ⟨7, WalkEnd.close _ _, WalkEnd.close _ _, by decide, run1, run2, WalkEnd.close_ended _ _, by simp [dHdr, dPre], ?_⟩
  rw [how]
  obtain ⟨inLen, fatal, out⟩ := h1.sameStart h2
  refine WalkEnd.close_result _ ?_ inPtr
  simp only [State.result, dHdr, dPre, inLen, fatal, out, bytes, used]

/-! ### Any command -/

theorem encode_alike (h1 : Loaded s1 1 bs) (h2 : Loaded s2 1 bs) : EndAlike s1 s2 := by
  by_cases empty : bs = []
  · subst empty
    exact encode_empty_alike h1 h2
  · exact encode_nonempty_alike h1 h2 empty

theorem decode_alike (h1 : Loaded s1 2 bs) (h2 : Loaded s2 2 bs) : EndAlike s1 s2 := by
  rcases Nat.lt_or_ge bs.length 2056 with short | long
  · exact decode_short_alike h1 h2 short
  · by_cases stops : countSum (headerFreq (bs.take 2056)) ≠ (fieldAt (bs.take 2056) 0).toNat ∨ fieldAt (bs.take 2056) 0 = 0
    · exact decode_header_alike h1 h2 long stops
    · obtain ⟨sum, pos⟩ := not_or.1 stops
      exact decode_walk_alike h1 h2 long (not_not.1 sum) pos

theorem Loaded.endAlike {cmd : Word} (command : cmd = 1 ∨ cmd = 2) (h1 : Loaded s1 cmd bs) (h2 : Loaded s2 cmd bs) :
    EndAlike s1 s2 := by
  rcases command with rfl | rfl
  · exact encode_alike h1 h2
  · exact decode_alike h1 h2

end

/-- Settles O58: of the block before the command only `IN_LEN`, `FATAL` and `OUT` reach the result, and `Loaded` fixes them. -/
theorem resultDoesNotDependOnHistory : Obligations.ResultDoesNotDependOnHistory := by
  intro s1 s2 cmd bs command h1 h2
  obtain ⟨k, t1, t2, -, run1, run2, ended, -, result⟩ := h1.endAlike command h2
  simp only [State.result, Result.mk.injEq] at result
  exact ⟨k, t1, t2, run1, run2, ended, result⟩

/-- Settles O59: every branch of the two commands ends; here both blocks are the same one. -/
theorem everyAcceptedCommandEnds : Obligations.EveryAcceptedCommandEnds := by
  intro s cmd bs command h
  obtain ⟨k, t, -, bound, run, -, ended, script, -⟩ := h.endAlike command h
  exact ⟨k, t, bound, run, ended, script⟩

end Sys2Proof.Machine
end

section
/-! The queue's contract (42 R150) and the shape of the arena that TB_LEAVES and TB_MERGE leave (42 R164). -/
namespace Sys2Proof.Machine

/-! ### The queue -/

/-- `PQ_INSERT` writes `HEAP` and `PQ_SIZE` only (42 R153). -/
theorem pqInsert_frame {i : NodeIx} {t t' : TreeBuilder} (h : pqInsert i t = .ok t') :
    t' = { t with heap := t'.heap, pqSize := t'.pqSize } := by
  obtain ⟨-, -, -, node, next, root, -⟩ := pqInsert_spec h
  rw [← node, ← next, ← root]

/-- `PQ_REMOVE_MIN` writes `HEAP` and `PQ_SIZE` only (42 R154). -/
theorem pqRemoveMin_frame {t t' : TreeBuilder} {r : NodeIx} (h : pqRemoveMin t = .ok (r, t')) :
    t' = { t with heap := t'.heap, pqSize := t'.pqSize } := by
  obtain ⟨-, -, -, node, next, root, -⟩ := pqRemoveMin_spec h
  rw [← node, ← next, ← root]

theorem pqInsert_of_full {t : TreeBuilder} (full : t.pqSize.val = 256) (i : NodeIx) : pqInsert i t = .error .queueFull := by
  rw [pqInsert, dif_neg (by omega)]

theorem pqRemoveMin_of_empty {t : TreeBuilder} (empty : t.pqSize.val = 0) : pqRemoveMin t = .error .queueEmpty := by
  rw [pqRemoveMin, dif_neg (by omega)]

/-- Settles O31: the specifications of the two primitives; a member that is not the removed one and not less than it is
greater, since the order is total. -/
theorem queueKeepsItsContract : Obligations.QueueKeepsItsContract := by
  refine fun t ordered => ⟨fun i room => ?_, fun nonEmpty => ?_, pqInsert_of_full, pqRemoveMin_of_empty⟩
  · obtain ⟨t', run⟩ := pqInsert_ok (i := i) room
    obtain ⟨-, -, members, -, -, -, keeps⟩ := pqInsert_spec run
    refine ⟨t'.heap, t'.pqSize, ?_⟩
    rw [← pqInsert_frame run]
    exact ⟨run, members, keeps ordered⟩
  · obtain ⟨r, t', run⟩ := pqRemoveMin_ok nonEmpty
    obtain ⟨-, -, members, -, -, -, keeps⟩ := pqRemoveMin_spec run
    obtain ⟨ordered', least⟩ := keeps ordered
    refine ⟨r, t'.heap, t'.pqSize, ?_⟩
    rw [← pqRemoveMin_frame run]
    refine ⟨run, members, fun i mem other => ?_, ordered'⟩
    exact (less_or_less_of_ne other).resolve_left (by rw [least i mem]; decide)

/-! ### The arena -/

/-- TB_LEAVES and then TB_MERGE, from the state that TB_LEAVES answers (42 R158 to R164). -/
theorem build_shape {s a : State} (ne : symbolsOf s.freq ≠ []) (leaves : exec .tbLeaves s = .next a) :
    ∃ u b l r, LeavesOk s.freq s.tree 256 u ∧ exec .tbMerge a = .next b ∧ Built s.freq b.tree l r ∧
      ((symbolsOf s.freq).length = 1 → b.tree.next = 3) ∧
      (2 ≤ (symbolsOf s.freq).length → Merged (symbolsOf s.freq).length u b.tree) := by
  obtain ⟨u, v, l, r, leavesOk, leaves', merge, built, single, several⟩ := build_next s ne
  obtain rfl := Host.Outcome.next.inj (leaves'.symm.trans leaves)
  refine ⟨u, _, l, r, leavesOk, merge 4, built, fun one => ?_, several⟩
  obtain ⟨x, -, -, -, next, -⟩ := single one
  exact next

/-- Settles O34: `Merged` is the invariant of the merge rounds read at their end, `Built` the weight and the empty queue. -/
theorem builtTreeHasTheStatedShape : Obligations.BuiltTreeHasTheStatedShape := by
  intro s a leaves ne
  obtain ⟨u, b, l, r, leavesOk, merge, built, single, several⟩ := build_shape ne leaves
  have root := built.root
  refine ⟨b, merge, Fin.ext built.empty, built.weight, fun one => ?_, fun two => ?_⟩
  · have next := single one
    rw [next] at root
    exact ⟨next, Fin.ext (Nat.succ.inj root)⟩
  · have merged := several two
    have next := merged.next
    have below {j : NodeIx} : j.val ≤ 2 * (symbolsOf s.freq).length - 2 ↔ j.val < b.tree.next.val := by omega
    refine ⟨by omega, by omega, fun i hi => ?_, fun i low high => merged.internal i low (below.1 high), fun i inner => ?_⟩
    · have symbols := symsBelow_all s.freq
      rw [merged.leaves i hi, leavesOk.leaves i (by rw [symbols]; exact hi)]
      simp only [symbols, leafNode]
    · have notRoot : i ≠ b.tree.root := fun e => by
        rw [e] at inner
        omega
      obtain ⟨j, ⟨inside, internal, child⟩, only⟩ := merged.parent i (by omega) notRoot
      exact ⟨j, ⟨below.2 inside, internal, child⟩, fun k le kind child' => only k ⟨below.1 le, kind, child'⟩⟩

end Sys2Proof.Machine
end

section
/-! The input as the core reads it: `IN_BUF` is determined by its bytes (10_state R58), a missing byte stops every phase that
needs it (70_reset R264), and a finished walk has not looked behind the last byte it used (46 R223). -/
namespace Sys2Proof.Machine

/-! ### The canonical form -/

/-- In canonical form every address of the tail is above the first, so the tail lists nothing up to it. -/
theorem Memory.read_tail_of_le {m : Memory} :
    ∀ {c : Host.Cell} {a : Nat}, Memory.wf (c :: m) = true → a ≤ c.1 → m.read a = none := by
  induction m with
  | nil => exact fun _ _ => rfl
  | cons d m ih =>
    intro c a wf le
    obtain ⟨first, rest⟩ := Memory.wf_cons.1 wf
    have below : c.1 < d.1 := first d rfl
    rw [Memory.read, if_neg (by omega)]
    exact ih rest (by omega)

/-- A canonical memory lists nothing below its first address. -/
theorem Memory.read_of_lt_first {c : Host.Cell} {m : Memory} {a : Nat} (wf : Memory.wf (c :: m) = true) (lt : a < c.1) :
    Memory.read (c :: m) a = none := by
  rw [Memory.read, if_neg (by omega)]
  exact Memory.read_tail_of_le wf lt.le

theorem Memory.read_first (c : Host.Cell) (m : Memory) : Memory.read (c :: m) c.1 = some c.2 := if_pos rfl

/-- Two canonical memories that read the same begin at the same address. -/
theorem Memory.first_le_of_read_eq {c d : Host.Cell} {m m' : Memory} (wf' : Memory.wf (d :: m') = true)
    (reads : ∀ a, Memory.read (c :: m) a = Memory.read (d :: m') a) : d.1 ≤ c.1 := by
  by_contra lt
  have first := reads c.1
  rw [Memory.read_first, Memory.read_of_lt_first wf' (not_le.1 lt)] at first
  cases first

/-- The bytes of a canonical memory determine it. -/
theorem Memory.ext_of_read {m : Memory} : ∀ {m' : Memory}, Memory.wf m = true → Memory.wf m' = true →
    (∀ a, m.read a = m'.read a) → m = m' := by
  induction m with
  | nil =>
    intro m' _ _ reads
    cases m' with
    | nil => rfl
    | cons d m' => exact absurd (reads d.1) (by rw [Memory.read_first]; exact Option.some_ne_none _ ∘ Eq.symm)
  | cons c m ih =>
    intro m' wf wf' reads
    cases m' with
    | nil => exact absurd (reads c.1) (by rw [Memory.read_first]; exact Option.some_ne_none _)
    | cons d m' =>
      have address : c.1 = d.1 :=
        le_antisymm (Memory.first_le_of_read_eq wf fun a => (reads a).symm) (Memory.first_le_of_read_eq wf' reads)
      have byte : c.2 = d.2 := by
        have first := reads c.1
        rw [Memory.read_first, address, Memory.read_first] at first
        exact Option.some.inj first
      have tails : ∀ a, Memory.read m a = Memory.read m' a := by
        intro a
        by_cases h : c.1 = a
        · rw [Memory.read_tail_of_le wf h.ge, Memory.read_tail_of_le wf' (address ▸ h.ge)]
        · have same := reads a
          rwa [Memory.read, Memory.read, if_neg h, if_neg (address ▸ h)] at same
      rw [Prod.ext address byte, ih (Memory.wf_cons.1 wf).2 (Memory.wf_cons.1 wf').2 tails]

/-- Settles O5: `Memory.ext_of_read` is the induction over both lists; the laws of a write are those of `Memory.write`. -/
theorem inputBufferIsCanonical : Obligations.InputBufferIsCanonical :=
  ⟨fun _ _ => Memory.ext_of_read, fun m a b wf =>
    ⟨Memory.wf_write a b wf, Memory.read_write_same m a b, fun _ other => Memory.read_write_other m b other⟩⟩

/-! ### A byte that nobody wrote -/

/-- The bytes before the first missing one. -/
theorem Memory.exists_holds_of_written {m : Memory} {n : Nat} (written : ∀ k, k < n → m.read k ≠ none) :
    ∃ bs, bs.length = n ∧ m.holds 0 bs := by
  rcases Memory.holds_or_missing m 0 n with present | ⟨bs, short, -, missing⟩
  · exact present
  · rw [Nat.zero_add] at missing
    exact absurd missing (written _ short)

/-- A range read stops at the first missing byte (70_reset R264). -/
theorem readBytes_missing {m : Memory} {bs : List Byte} : ∀ {a n : Nat}, m.holds a bs → bs.length < n →
    a + bs.length < Config.inCap → m.read (a + bs.length) = none → readBytes m a n = .error .inBufUnwritten := by
  induction bs with
  | nil =>
    intro a n _ more inside missing
    obtain ⟨n, rfl⟩ := Nat.exists_eq_add_one.2 more
    have inside : a < Config.inCap := inside
    have missing : m.read a = none := missing
    rw [readBytes, readByte_none missing, if_pos inside, error_bind]
  | cons b bs ih =>
    intro a n present more inside missing
    obtain ⟨n, rfl⟩ := Nat.exists_eq_add_one.2 (Nat.zero_lt_of_lt more)
    obtain ⟨byte, rest⟩ := Memory.holds_cons.1 present
    have shift : a + (b :: bs).length = a + 1 + bs.length := by
      rw [List.length_cons]
      omega
    rw [shift] at inside missing
    rw [readBytes, readByte_of_read byte, ok_bind, ih rest (Nat.lt_of_succ_lt_succ more) inside missing, error_bind]

section
variable {s : State} {bs : List Byte}

/-- FC_COUNT needs every byte below `LEN` (41 R142). -/
theorem execFcCount_missing (present : s.inBuf.holds 0 bs) (more : bs.length < s.len.toNat)
    (inside : bs.length < Config.inCap) (missing : s.inBuf.read bs.length = none) :
    execFcCount s = .fault .inBufUnwritten := by
  rw [execFcCount, countLoop_fault present more (by rwa [Nat.zero_add]), Nat.zero_add, if_pos inside, error_bind, outcome_fault]

/-- ENC_BODY needs every byte below `LEN`, if no byte before is without a code (45 R203, R204). -/
theorem execEncBody_missing (present : s.inBuf.holds 0 bs) (coded : ∀ b ∈ bs, (codeAt s.ct.code b).len ≠ 0)
    (more : bs.length < s.len.toNat) (inside : bs.length < Config.inCap) (missing : s.inBuf.read bs.length = none) :
    execEncBody s = .fault .inBufUnwritten := by
  rw [execEncBody, bodyLoop_fault present more coded (by rwa [Nat.zero_add]), Nat.zero_add, if_pos inside, error_bind,
    outcome_fault]

/-- HDR_PARSE needs the bytes of the header (46 R216). -/
theorem execHdrParse_missing (long : 2056 ≤ s.len.toNat) (present : s.inBuf.holds 0 bs) (inHeader : bs.length < 2056)
    (inside : bs.length < Config.inCap) (missing : s.inBuf.read bs.length = none) :
    execHdrParse s = .fault .inBufUnwritten := by
  rw [execHdrParse, Config.hdrBytes, if_neg (by omega),
    readBytes_missing present inHeader (by rwa [Nat.zero_add]) (by rwa [Nat.zero_add]), lift_error, error_bind, outcome_fault]

/-- DEC_WALK as its loop ends: the walk's own end, or the model's stop (46 R220). -/
theorem execDecWalk_of_walkOutcome {r : WalkResult} {s' : State}
    (loop : walkLoop (bitsLeft s) { s with cur := s.tree.root, wstate := .atRoot } = walkOutcome r s') :
    ∃ t, execDecWalk s = .next t := by
  rw [execDecWalk, loop, walkOutcome]
  cases r.how <;> exact ⟨_, rfl⟩

/-- DEC_WALK starts with no bit held, so the bits to come are those of the body (46 R220). -/
theorem bitsToCome_of_noneHeld (noneHeld : s.rdNbits = 0) (body : List Byte) :
    bitsToCome { s with cur := s.tree.root, wstate := .atRoot } body = bytesBits body := by
  simp [bitsToCome, heldBits, noneHeld]

theorem length_bytesBits_lt_bitsLeft {body : List Byte} (more : s.inPtr.toNat + body.length < s.len.toNat) :
    (bytesBits body).length < bitsLeft s := by
  rw [length_bytesBits, bitsLeft]
  omega

section
variable {body : List Byte} (noneHeld : s.rdNbits = 0) (present : s.inBuf.holds s.inPtr.toNat body)
  (more : s.inPtr.toNat + body.length < s.len.toNat)
include noneHeld present more

/-- A walk that ends for want of a bit among the bytes before the missing one needs that one. -/
theorem execDecWalk_missing (inside : s.inPtr.toNat + body.length < Config.inCap)
    (missing : s.inBuf.read (s.inPtr.toNat + body.length) = none)
    (truncated : (refWalk s.tree.node s.tree.root s.tree.root .atRoot (s.origLen.toNat - s.outLen.toNat)
      (bytesBits body)).how = .truncated) : execDecWalk s = .fault .inBufUnwritten := by
  have loop := walkLoop_missing (bytesBits body) (s := { s with cur := s.tree.root, wstate := .atRoot }) ⟨present, more.le⟩
    (bitsToCome_of_noneHeld noneHeld body) (length_bytesBits_lt_bitsLeft more) rfl more missing truncated
  rw [execDecWalk, loop]
  simp only [inside, if_true]
  rfl

/-- A walk that ends among the bytes before the missing one does not need it. -/
theorem execDecWalk_next_of_not_truncated (ends : (refWalk s.tree.node s.tree.root s.tree.root .atRoot
    (s.origLen.toNat - s.outLen.toNat) (bytesBits body)).how ≠ .truncated) : ∃ t, execDecWalk s = .next t := by
  obtain ⟨s', -, loop, -⟩ := walkLoop_ahead (bytesBits body) (s := { s with cur := s.tree.root, wstate := .atRoot })
    ⟨present, more.le⟩ (bitsToCome_of_noneHeld noneHeld body) (length_bytesBits_lt_bitsLeft more).le rfl
    fun truncated => absurd truncated ends
  exact execDecWalk_of_walkOutcome loop

end

end

/-- Settles O29: each loop stops at the missing byte, with the bytes before it read. -/
theorem unwrittenInputByteFaults : Obligations.UnwrittenInputByteFaults := by
  refine ⟨fun s a more inside missing written => ?_, fun s bs present coded more inside missing =>
    execEncBody_missing present coded more inside missing, fun s noneHeld more inside missing => ?_,
    fun s body noneHeld present more inside missing => ⟨execDecWalk_missing noneHeld present more inside missing,
      execDecWalk_next_of_not_truncated noneHeld present more⟩⟩
  · obtain ⟨bs, rfl, present⟩ := Memory.exists_holds_of_written written
    exact ⟨execFcCount_missing present more inside missing, fun long inHeader =>
      execHdrParse_missing long present inHeader inside missing⟩
  · rw [brGetBit_missing (congrArg Fin.val noneHeld) more missing, if_pos inside]

/-! ### The input behind the walk -/

/-- DEC_WALK ends in DONE exactly by its loop (46 R220). -/
theorem execDecWalk_done {s t : State} (h : execDecWalk s = .next t) (done : t.state = .done) :
    ∃ u, walkLoop (bitsLeft s) { s with cur := s.tree.root, wstate := .atRoot } = .ok u ∧ t = finish .ok u := by
  rcases walkLoop_cases (bitsLeft s) { s with cur := s.tree.root, wstate := .atRoot } le_rfl with
    ⟨u, loop, -⟩ | ⟨u, loop, _, -, -, ⟨rfl, -⟩ | ⟨rfl, -⟩⟩ | ⟨f, loop⟩
  · rw [execDecWalk, loop] at h
    exact ⟨u, loop, (Host.Outcome.next.inj h).symm⟩
  · rw [execDecWalk, loop] at h
    obtain rfl := Host.Outcome.next.inj h
    cases done
  · rw [execDecWalk, loop] at h
    obtain rfl := Host.Outcome.next.inj h
    cases done
  · rw [execDecWalk, loop] at h
    cases h

/-- Settles O50: `walkLoop_swap`, with the bits that the other `LEN` leaves as the loop's bound. -/
theorem decWalkIgnoresSurplusInput : Obligations.DecWalkIgnoresSurplusInput := by
  intro s t m n h done same covers
  obtain ⟨u, loop, rfl⟩ := execDecWalk_done h done
  obtain ⟨forward, swap⟩ := walkLoop_swap (bitsLeft s) loop
  have enough : s.rdNbits.val + 8 * (u.inPtr.toNat - s.inPtr.toNat) ≤ bitsLeft { s with inBuf := m, len := n } := by
    have covers : u.inPtr.toNat ≤ n.toNat := covers
    show _ ≤ s.rdNbits.val + 8 * (n.toNat - s.inPtr.toNat)
    omega
  have swapped := swap m n _ same covers enough
  show execDecWalk _ = _
  rw [execDecWalk]
  exact congrArg (fun run => outcome (run >>= fun u => .ok (finish .ok u))) swapped

end Sys2Proof.Machine
end

section
/-! The steps (40_commands R120 to R133, 70_reset R260): how `STATE`, `PHASE`, the flags, `OUT` and `OUT_RD` can change, the
frame of every phase, and the host actions that the transactions before left open. -/
namespace Sys2Proof.Machine

/-! ### What a step does to the protocol and the output -/

/-- A step that leaves `STATE`, `PHASE`, the flags and `OUT` alone; it moves `OUT_RD` only with the byte there as the reply. -/
structure QuietStep (s t : State) : Prop where
  state : t.state = s.state
  phase : t.phase = s.phase
  cmdRej : t.cmdRej = s.cmdRej
  fatal : t.fatal = s.fatal
  out : t.out = s.out
  outRd : t.outRd = s.outRd ∨
    t.outRd = s.outRd + 1 ∧ ∃ h : s.outRd.toNat < s.out.length, t.replies = s.replies ++ [.byte s.out[s.outRd.toNat]]

/-- The kinds of steps, as the registers of the protocol tell them apart (40_commands R124 to R133): the host's script apart,
a command or the reset input is all that acts on them besides the phases. -/
inductive ProtocolStep (s t : State) : Prop
  | quiet (kept : QuietStep s t)
  | phase (i : Instr) (l : List HostOp) (busy : s.state = .busy) (dec : decodePhase s.phase = .ok i)
      (run : exec i { s with script := l } = .next t)
  | rejected (r v : Word) (rest : List HostOp) (head : s.script = .regWrite r v :: rest) (ctrl : r.toNat = 0)
      (why : Rejected s v) (eq : t = reject { s with script := rest })
  | started (r v : Word) (rest : List HostOp) (op : Op) (head : s.script = .regWrite r v :: rest) (ctrl : r.toNat = 0)
      (word : v = 1 ∨ v = 2) (accepted : startAccepted s = true) (eq : t = start op { s with script := rest })
  | acknowledged (r : Word) (rest : List HostOp) (head : s.script = .regWrite r 3 :: rest) (ctrl : r.toNat = 0)
      (accepted : clearAccepted s = true) (eq : t = acknowledge { s with script := rest })
  | reset (rest : List HostOp) (head : s.script = .reset :: rest) (eq : t = resetInput { s with script := rest })

theorem quietStep_withScript (s : State) (l : List HostOp) : QuietStep s { s with script := l } :=
  ⟨rfl, rfl, rfl, rfl, rfl, .inl rfl⟩

theorem quietStep_regWrite (r v : Word) (s : State) (l : List HostOp) : QuietStep s (regWrite r v { s with script := l }) := by
  unfold regWrite
  split
  · exact ⟨rfl, rfl, rfl, rfl, rfl, .inl rfl⟩
  · exact quietStep_withScript s l

theorem quietStep_inWrite (a : Word) (b : Byte) (s : State) (l : List HostOp) :
    QuietStep s (inWrite a b { s with script := l }) := by
  unfold inWrite
  split
  · exact ⟨rfl, rfl, rfl, rfl, rfl, .inl rfl⟩
  · exact quietStep_withScript s l

theorem Stepped.protocolStep {s t : State} (h : Stepped s t) : ProtocolStep s t := by
  cases h with
  | phase i s0 turn busy dec run =>
    obtain ⟨l, rfl⟩ := turn.fields
    exact .phase i l busy dec run
  | quiet s0 turn notBusy eq =>
    obtain ⟨l, rfl⟩ := turn.fields
    subst eq
    exact .quiet (quietStep_withScript s l)
  | command r v rest i head ctrl dec run =>
    rcases command_cases dec run with ⟨-, rfl⟩ | ⟨why, rfl⟩ | ⟨word, accepted, op, rfl⟩ | ⟨rfl, accepted, rfl⟩
    · exact .quiet (quietStep_withScript s rest)
    · exact .rejected r v rest head ctrl why rfl
    · exact .started r v rest op head ctrl word accepted rfl
    · exact .acknowledged r rest head ctrl accepted rfl
  | illegal r v rest e head ctrl dec eq => exact .rejected r v rest head ctrl (rejected_of_error dec) eq
  | regWrite r v rest head other free eq => exact .quiet (eq ▸ quietStep_regWrite r v s rest)
  | regRead r rest head eq => subst eq; exact .quiet ⟨rfl, rfl, rfl, rfl, rfl, .inl rfl⟩
  | inWrite a b rest head free eq => exact .quiet (eq ▸ quietStep_inWrite a b s rest)
  | outPop rest head unread eq => subst eq; exact .quiet ⟨rfl, rfl, rfl, rfl, rfl, .inr ⟨rfl, unread, rfl⟩⟩
  | drain rest head eq => subst eq; exact .quiet ⟨rfl, rfl, rfl, rfl, rfl, .inl rfl⟩
  | reset rest head eq => exact .reset rest head eq

section
variable {s t : State}

/-! ### The flags -/

/-- A phase changes `FATAL` only by the InvariantViolation of ENC_BODY (60_exceptions R240). -/
theorem PhaseEnd.fatal_changed {i : Instr} (h : PhaseEnd i s t) (changed : t.fatal ≠ s.fatal) :
    i = .encBody ∧ t.fatal = true ∧ t.state = .error ∧ t.cond = { code := .invariantViolation, sub := 1 } := by
  cases h with
  | goesOn _ fatal | finishes _ _ fatal | raises _ _ fatal => exact absurd fatal changed
  | violates state _ fatal _ instr cond => exact ⟨instr, fatal, state, cond⟩

theorem phase_of_encBody {p : BitVec 4} (dec : decodePhase p = .ok .encBody) : p = 7 := by
  simpa using decodePhase_ok dec

theorem ProtocolStep.cmdRej_changed (h : ProtocolStep s t) (changed : t.cmdRej ≠ s.cmdRej) :
    (t.cmdRej = true ∧ ∃ r v rest, s.script = .regWrite r v :: rest ∧ r.toNat = 0 ∧ Rejected s v) ∨
      (t.cmdRej = false ∧ s.fatal = false ∧ s.state ≠ .busy ∧ ∃ r rest, s.script = .regWrite r 3 :: rest ∧ r.toNat = 0) ∨
      (t.cmdRej = false ∧ ∃ rest, s.script = .reset :: rest) := by
  cases h with
  | quiet kept => exact absurd kept.cmdRej changed
  | phase i l _ dec run => exact absurd (phase_effect dec run).cmdRej changed
  | rejected r v rest head ctrl why eq => exact .inl ⟨by rw [eq, reject_cmdRej], r, v, rest, head, ctrl, why⟩
  | started _ _ _ _ _ _ _ _ eq => exact absurd (by rw [eq, start_cmdRej]) changed
  | acknowledged r rest head ctrl accepted eq =>
    obtain ⟨notFatal, notBusy⟩ := clearAccepted_iff.1 accepted
    exact .inr (.inl ⟨by rw [eq, acknowledge_cmdRej], notFatal, notBusy, r, rest, head, ctrl⟩)
  | reset rest head eq => exact .inr (.inr ⟨by rw [eq]; rfl, rest, head⟩)

theorem ProtocolStep.fatal_changed (h : ProtocolStep s t) (changed : t.fatal ≠ s.fatal) :
    (t.fatal = true ∧ s.state = .busy ∧ s.phase = 7 ∧ t.state = .error ∧
        t.cond = { code := .invariantViolation, sub := 1 }) ∨
      (t.fatal = false ∧ ∃ rest, s.script = .reset :: rest) := by
  cases h with
  | quiet kept => exact absurd kept.fatal changed
  | phase i l busy dec run =>
    obtain ⟨rfl, fatal, state, cond⟩ := (phase_effect dec run).ends.fatal_changed changed
    exact .inl ⟨fatal, busy, phase_of_encBody dec, state, cond⟩
  | rejected _ _ _ _ _ _ eq => exact absurd (by rw [eq, reject_fatal]) changed
  | started _ _ _ _ _ _ _ _ eq => exact absurd (by rw [eq, start_fatal]) changed
  | acknowledged _ _ _ _ _ eq => exact absurd (by rw [eq, acknowledge_fatal]) changed
  | reset rest head eq => exact .inr ⟨by rw [eq]; rfl, rest, head⟩

/-! ### `STATE` and `PHASE` -/

/-- A phase changes `STATE` only by ending the command (40_commands R131, 60_exceptions R240). -/
theorem PhaseEnd.state_changed {i : Instr} (h : PhaseEnd i s t) (changed : t.state ≠ s.state) :
    (t.state = .done ∧ t.errPos = 0 ∧ t.phase = s.phase ∧
        (t.cond = { code := .ok, sub := 0 } ∨ t.cond = { code := .emptyInput, sub := 0 })) ∨
      (t.state = .error ∧ t.errPos = t.inPtr ∧ t.phase = s.phase) := by
  cases h with
  | goesOn state => exact absurd state changed
  | finishes state phase _ errPos cond => exact .inl ⟨state, errPos, phase, cond⟩
  | raises state phase _ errPos | violates state phase _ errPos => exact .inr ⟨state, errPos, phase⟩

/-- A phase that moves `PHASE` leaves `STATE` alone: the ends of a command keep the code (40_commands R131). -/
theorem PhaseEnd.state_of_phase_changed {i : Instr} (h : PhaseEnd i s t) (changed : t.phase ≠ s.phase) :
    t.state = s.state := by
  cases h with
  | goesOn state => exact state
  | finishes _ phase | raises _ phase | violates _ phase => exact absurd phase changed

theorem ProtocolStep.state_changed (h : ProtocolStep s t) (changed : t.state ≠ s.state) :
    (s.state = .idle ∧ t.state = .busy ∧ s.fatal = false ∧ s.inLen.toNat ≤ Config.inCap ∧
        ∃ r v rest, s.script = .regWrite r v :: rest ∧ r.toNat = 0 ∧ (v = 1 ∨ v = 2)) ∨
      (s.state = .busy ∧ t.state = .done ∧ t.errPos = 0 ∧ t.phase = s.phase ∧
        (t.cond = { code := .ok, sub := 0 } ∨ t.cond = { code := .emptyInput, sub := 0 })) ∨
      (s.state = .busy ∧ t.state = .error ∧ t.errPos = t.inPtr ∧ t.phase = s.phase) ∨
      ((s.state = .done ∨ s.state = .error) ∧ t.state = .idle ∧ s.fatal = false ∧
        ∃ r rest, s.script = .regWrite r 3 :: rest ∧ r.toNat = 0) ∨
      (t.state = .idle ∧ ∃ rest, s.script = .reset :: rest) := by
  cases h with
  | quiet kept => exact absurd kept.state changed
  | phase i l busy dec run =>
    rcases (phase_effect dec run).ends.state_changed changed with ended | raised
    · exact .inr (.inl ⟨busy, ended⟩)
    · exact .inr (.inr (.inl ⟨busy, raised⟩))
  | rejected _ _ _ _ _ _ eq => exact absurd (by rw [eq, reject_state]) changed
  | started r v rest op head ctrl word accepted eq =>
    obtain ⟨notFatal, idle, fits⟩ := startAccepted_iff.1 accepted
    exact .inl ⟨idle, by rw [eq, start_state], notFatal, fits, r, v, rest, head, ctrl, word⟩
  | acknowledged r rest head ctrl accepted eq =>
    obtain ⟨notFatal, notBusy⟩ := clearAccepted_iff.1 accepted
    have idle : t.state = .idle := by rw [eq, acknowledge_state]
    rw [idle] at changed
    have ended : s.state = .done ∨ s.state = .error := by
      cases state : s.state with
      | idle => exact absurd state.symm changed
      | busy => exact absurd state notBusy
      | done => exact .inl rfl
      | error => exact .inr rfl
    exact .inr (.inr (.inr (.inl ⟨ended, idle, notFatal, r, rest, head, ctrl⟩)))
  | reset rest head eq => exact .inr (.inr (.inr (.inr ⟨by rw [eq]; rfl, rest, head⟩)))

theorem ProtocolStep.phase_changed (h : ProtocolStep s t) (changed : t.phase ≠ s.phase) :
    (s.state = .idle ∧ t.state = .busy ∧ t.phase = 1) ∨ (s.state = .busy ∧ t.state = .busy ∧ t.op = s.op) ∨
      (t.state = .idle ∧ t.phase = 0) := by
  cases h with
  | quiet kept => exact absurd kept.phase changed
  | phase i l busy dec run =>
    have effect := phase_effect dec run
    exact .inr (.inl ⟨busy, (effect.ends.state_of_phase_changed changed).trans busy, effect.op⟩)
  | rejected _ _ _ _ _ _ eq => exact absurd (by rw [eq, reject_phase]) changed
  | started _ _ _ _ _ _ _ accepted eq =>
    obtain ⟨-, idle, -⟩ := startAccepted_iff.1 accepted
    exact .inl ⟨idle, by rw [eq, start_state], by rw [eq, start_phase]⟩
  | acknowledged _ _ _ _ _ eq => exact .inr (.inr ⟨by rw [eq, acknowledge_state], by rw [eq, acknowledge_phase]⟩)
  | reset rest head eq => exact .inr (.inr ⟨by rw [eq]; rfl, by rw [eq]; rfl⟩)

end

/-- Settles O15: of the kinds of steps, each flag is changed by those that the statement names. -/
theorem flagsChangeOnlyWhereStated : Obligations.FlagsChangeOnlyWhereStated :=
  fun _ _ h => ⟨(step_stepped h).protocolStep.cmdRej_changed, (step_stepped h).protocolStep.fatal_changed⟩

/-- Settles O16: the kinds of steps that change `STATE` and `PHASE`, one lemma each. -/
theorem protocolTransitionsAreTheStatedOnes : Obligations.ProtocolTransitionsAreTheStatedOnes :=
  fun _ _ h => ⟨(step_stepped h).protocolStep.state_changed, (step_stepped h).protocolStep.phase_changed⟩

/-- Settles O24: only an acknowledge and the reset input empty `OUT`, only a phase extends it, only a pop moves `OUT_RD`. -/
theorem outputGrowsOnlyByAppending : Obligations.OutputGrowsOnlyByAppending := by
  intro s t h
  cases (step_stepped h).protocolStep with
  | quiet kept => exact .inr ⟨⟨[], by rw [kept.out, List.append_nil]⟩, kept.outRd⟩
  | phase i l _ dec run =>
    have effect := phase_effect dec run
    obtain ⟨bs, out, -⟩ := effect.out
    exact .inr ⟨⟨bs, out⟩, .inl effect.outRd⟩
  | rejected _ _ _ _ _ _ eq | started _ _ _ _ _ _ _ _ eq =>
    subst eq
    exact .inr ⟨⟨[], (List.append_nil _).symm⟩, .inl rfl⟩
  | acknowledged r rest head ctrl accepted =>
    obtain ⟨notFatal, notBusy⟩ := clearAccepted_iff.1 accepted
    exact .inl (.inr ⟨notFatal, notBusy, r, rest, head, ctrl⟩)
  | reset rest head => exact .inl (.inl ⟨rest, head⟩)

/-! ### The frames of the phases -/

section
variable {s t : State}

theorem execFcClear_frame (h : execFcClear s = .next t) : t =
    { s with freq := t.freq, inPtr := t.inPtr, acc := t.acc, nbits := t.nbits, rdNbits := t.rdNbits
             origLen := t.origLen, phase := t.phase } := by
  rw [execFcClear_eq] at h
  obtain rfl := Host.Outcome.next.inj h
  rfl

theorem execFcCount_frame (h : execFcCount s = .next t) : t =
    { s with freq := t.freq, inPtr := t.inPtr, phase := t.phase } := by
  obtain ⟨bs, -, -, rfl⟩ := execFcCount_next h
  rfl

theorem execTbLeaves_frame (h : execTbLeaves s = .next t) :
    t = { s with tree := t.tree, symCount := t.symCount, phase := t.phase } ∧ t.tree.root = s.tree.root := by
  obtain ⟨u, leaves, run⟩ := execTbLeaves_eq s
  obtain rfl := Host.Outcome.next.inj (run.symm.trans h)
  exact ⟨rfl, leaves.root⟩

theorem execTbMerge_frame (h : execTbMerge s = .next t) : t = { s with tree := t.tree, phase := t.phase } := by
  obtain ⟨u, -, rfl⟩ := execTbMerge_next h
  rfl

theorem execCtWalk_frame (h : execCtWalk s = .next t) : t = { s with ct := t.ct, phase := t.phase } := by
  obtain ⟨c, -, rfl⟩ := execCtWalk_next h
  rfl

theorem execHdrEmit_frame (h : execHdrEmit s = .next t) : t =
    { s with out := t.out, outLen := t.outLen, inPtr := t.inPtr, phase := t.phase, cond := t.cond
             errPos := t.errPos, state := t.state } := by
  rw [execHdrEmit_eq] at h
  obtain rfl := Host.Outcome.next.inj h
  split <;> rfl

theorem execEncBody_frame (h : execEncBody s = .next t) : t =
    { s with out := t.out, outLen := t.outLen, bitCount := t.bitCount, acc := t.acc, nbits := t.nbits
             inPtr := t.inPtr, phase := t.phase, cond := t.cond, errPos := t.errPos, fatal := t.fatal
             state := t.state } := by
  rcases execEncBody_next h with ⟨bs, -, -, -, rfl⟩ | ⟨bs, b, -, -, -, -, rfl⟩
  · rw [bwPutBits_frame]
    rfl
  · rw [bwPutBits_frame]
    rfl

theorem execBwFlush_frame (h : execBwFlush s = .next t) : t =
    { s with out := t.out, outLen := t.outLen, acc := t.acc, nbits := t.nbits, cond := t.cond
             errPos := t.errPos, state := t.state } := by
  rw [execBwFlush_eq] at h
  obtain rfl := Host.Outcome.next.inj h
  split <;> rfl

theorem execHdrParse_frame (h : execHdrParse s = .next t) : t =
    { s with origLen := t.origLen, freq := t.freq, inPtr := t.inPtr, phase := t.phase, cond := t.cond
             errPos := t.errPos, state := t.state } := by
  rcases execHdrParse_next h with ⟨-, rfl⟩ | ⟨hdr, -, -, -, rfl⟩
  · rw [raiseState_malformedArtifact]
  · rfl

theorem execHdrCheck_frame (h : execHdrCheck s = .next t) : t =
    { s with symCount := t.symCount, sum := t.sum, phase := t.phase, cond := t.cond, errPos := t.errPos
             state := t.state } := by
  rw [execHdrCheck_eq, raiseState_malformedArtifact, raiseState_malformedArtifact] at h
  obtain rfl := Host.Outcome.next.inj h
  split_ifs <;> rfl

/-- The end of the walk, whichever it is, adds `COND`, `ERR_POS` and `STATE` to the walk's own frame (46 R220). -/
theorem WalkFrame.frame_of_end {u : State} (frame : WalkFrame s u)
    (ends : t = { u with cond := t.cond, errPos := t.errPos, state := t.state }) : t =
    { s with out := t.out, outLen := t.outLen, bitCount := t.bitCount, cur := t.cur, wstate := t.wstate
             rdByte := t.rdByte, rdNbits := t.rdNbits, inPtr := t.inPtr, cond := t.cond, errPos := t.errPos
             state := t.state } := by
  rw [ends, frame.state]

theorem execDecWalk_frame (h : execDecWalk s = .next t) : t =
    { s with out := t.out, outLen := t.outLen, bitCount := t.bitCount, cur := t.cur, wstate := t.wstate
             rdByte := t.rdByte, rdNbits := t.rdNbits, inPtr := t.inPtr, cond := t.cond, errPos := t.errPos
             state := t.state } := by
  rcases execDecWalk_next h with ⟨u, frame, -, rfl⟩ | ⟨u, frame, -, ⟨rfl, -⟩ | ⟨rfl, -⟩⟩
  · exact frame.frame_of_end rfl
  · exact frame.frame_of_end (by simp [raiseState])
  · exact frame.frame_of_end (raiseState_malformedArtifact 4 u)

/-- A command's word selects a command, a phase's code a phase, and neither kind stores to `IN_BUF`. -/
theorem exec_inBuf {i : Instr} (h : exec i s = .next t) : t.inBuf = s.inBuf := by
  cases decoded : encode i with
  | ctrl v => exact (command_sameInput (v := v) ((congrArg decode decoded).symm.trans (Laws.decode_encode i)) h).inBuf
  | phase p => exact (phase_effect (p := p) ((congrArg decode decoded).symm.trans (Laws.decode_encode i)) h).inBuf

end

/-- Settles O51: one frame per phase, read off what the phase answers. -/
theorem phasesKeepTheirFrames : Obligations.PhasesKeepTheirFrames :=
  fun _ _ => ⟨execFcClear_frame, execFcCount_frame, execTbLeaves_frame, execTbMerge_frame, execCtWalk_frame, execHdrEmit_frame,
    execEncBody_frame, execBwFlush_frame, execHdrParse_frame, execHdrCheck_frame, execDecWalk_frame,
    fun _ h a => by rw [exec_inBuf h]⟩

end Sys2Proof.Machine
end

section
/-! Parameter, reset, selection (00_scope R13, 30_encoding R91 to R113, 70_reset R260): what the machine is right after reset,
which instruction a step runs, and the host actions `pop`, `wait` and `drain`. -/
namespace Sys2Proof.Machine

/-! ### The capacity and the decoder's rows -/

theorem le_inCap : 2056 ≤ Config.inCap := by
  unfold Config.inCap
  omega

/-- Settles O1: `Config.inCap` folds its seed into the range of R13, and the two bounds follow from its upper end. -/
theorem inputCapacityIsInRange : Obligations.InputCapacityIsInRange := by
  have upper := inCap_le
  exact ⟨le_inCap, upper, by omega, by omega⟩

/-- Settles O6: the decoder computes on the fourteen patterns. -/
theorem tableRowsDecode : Obligations.TableRowsDecode := by
  unfold Obligations.TableRowsDecode
  decide

/-! ### Reset -/

/-- Every register number reads 0 after reset, the words of `STATUS` and `COND` included (10_state R23, R24). -/
theorem regValue_reset (r : Word) : regValue State.reset r = 0 := by
  unfold regValue
  split <;> rfl

theorem step_of_reset {s : State} {rest : List HostOp} (head : s.script = .reset :: rest) :
    step s = .next (resetInput { s with script := rest }) :=
  step_of_answer (nextAction_of_enabled head rfl)

/-- Settles O2: the reset input answers the state after reset, up to the host's own fields, which no register shows. -/
theorem resetClearsEveryHostRegister : Obligations.ResetClearsEveryHostRegister := by
  intro s rest head
  refine ⟨_, step_of_reset head, fun u mem => ?_⟩
  rcases List.mem_pair.1 mem with rfl | rfl
  · exact ⟨rfl, rfl, rfl, rfl, rfl, rfl, rfl, rfl, rfl, rfl, rfl, rfl, rfl, rfl, rfl, regValue_reset⟩
  · exact ⟨rfl, rfl, rfl, rfl, rfl, rfl, rfl, rfl, rfl, rfl, rfl, rfl, rfl, rfl, rfl, regValue_reset⟩

/-! ### The core's turn -/

section
variable {s : State} {rest : List HostOp} {i : Instr}

theorem step_of_yield (head : s.script = .yield :: rest) (busy : s.state = .busy) (dec : decodePhase s.phase = .ok i) :
    step s = exec i { s with script := rest } :=
  step_of_run ((nextAction_of_enabled head rfl).trans (coreTurn_of_busy busy dec))

/-- BUSY with a code that no phase has is the model's stop (30_encoding R108, log 13). -/
theorem step_of_no_phase {e : DecodeError} (busy : s.state = .busy) (quiet : s.script = [])
    (dec : decodePhase s.phase = .error e) : step s = .fault .phaseNeverProduced :=
  step_of_answer (by simp [nextAction, quiet, coreTurn, busy, dec])

end

/-- Settles O8: the rules of a `CTRL` write, of the core's turn in its three forms, and of a step with nothing to do. -/
theorem stepRunsTheSelectedInstruction : Obligations.StepRunsTheSelectedInstruction :=
  ⟨fun _ _ _ _ _ => step_of_command,
    fun _ _ busy dec => ⟨fun quiet => step_phase quiet busy dec, fun _ head => step_of_yield head busy dec,
      fun _ _ head waits => step_of_waiting head waits busy dec⟩,
    fun _ notBusy quiet => step_of_nothing_to_do quiet notBusy,
    fun _ _ => step_of_no_phase⟩

/-! ### Placed patterns -/

/-- A 64-bit pattern is a `CTRL` word (30_encoding R114). -/
theorem tableSelector_ctrl (w : Word) : tableSelector 64 w.toNat = some (.ctrl w) := by
  simp [tableSelector]

/-- A pattern of one byte is a `PHASE` code (30_encoding R114). -/
theorem tableSelector_phase (p : BitVec 4) : tableSelector 8 p.toNat = some (.phase p) := by
  simp [tableSelector, p.isLt]

theorem decodeTableWord_of_selector {nbits w : Nat} {sel : Selector} {i : Instr} (selects : tableSelector nbits w = some sel)
    (dec : decode sel = .ok i) : decodeTableWord nbits w = some i := by
  simp [decodeTableWord, selects, dec]

theorem withFetchWord_of_selector {nbits w : Nat} {sel : Selector} (s : State) (selects : tableSelector nbits w = some sel) :
    s.withFetchWord nbits w = placeSelector s sel := by
  rw [State.withFetchWord, selects]

/-- Settles O9: a placed word is a `CTRL` write at the head of the script, a placed code a yield to the core. -/
theorem placedPatternIsRunNext : Obligations.PlacedPatternIsRunNext := by
  refine fun s i => ⟨fun w dec => ?_, fun p dec => ?_⟩
  · have selects := tableSelector_ctrl w
    refine ⟨decodeTableWord_of_selector selects dec, ?_⟩
    rw [withFetchWord_of_selector s selects]
    exact step_of_command rfl rfl dec
  · have selects := tableSelector_phase p
    refine ⟨decodeTableWord_of_selector selects dec, ?_⟩
    rw [withFetchWord_of_selector s selects]
    exact step_of_yield rfl rfl dec

/-! ### `pop`, `wait`, `drain` -/

section
variable {s : State} {rest : List HostOp}

theorem opEnabled_outPop_of_unread (unread : s.outRd.toNat < s.out.length) : opEnabled s .outPop = true := by
  simp [opEnabled, unread]

theorem opEnabled_outPop_of_read (read : s.out.length ≤ s.outRd.toNat) : opEnabled s .outPop = false := by
  simp [opEnabled, read]

theorem opEnabled_wait : opEnabled s .wait = true ↔ s.state ≠ .busy := by simp [opEnabled]

theorem step_of_outPop (head : s.script = .outPop :: rest) (unread : s.outRd.toNat < s.out.length) :
    step s = .next (outPop { s with script := rest } unread) :=
  step_of_answer ((nextAction_of_enabled head (opEnabled_outPop_of_unread unread)).trans (dif_pos unread))

/-- An action that has to wait outside BUSY waits for ever (93 U7, log 9). -/
theorem step_of_stuck {op : HostOp} (head : s.script = op :: rest) (waits : opEnabled s op = false)
    (notBusy : s.state ≠ .busy) : step s = .fault .popNeverCompletes :=
  step_of_answer (by simp [nextAction, head, waits, notBusy])

theorem step_of_wait (head : s.script = .wait :: rest) (notBusy : s.state ≠ .busy) :
    step s = .next (regRead 1 { s with script := rest }) :=
  step_of_answer (nextAction_of_enabled head (opEnabled_wait.2 notBusy))

theorem step_of_drain (head : s.script = .drain :: rest) : step s = .next
    { regRead 5 { s with script := rest } with
      script := List.replicate (readValue 5 { s with script := rest }).toNat .outPop ++ rest } :=
  step_of_answer (nextAction_of_enabled head rfl)

/-- Outside BUSY a read records the register and draws no free value (40_commands R121). -/
theorem regRead_of_not_busy (r : Word) (l : List HostOp) (notBusy : s.state ≠ .busy) :
    regRead r { s with script := l } = { s with script := l, replies := s.replies ++ [.reg r (regValue s r)] } := by
  have value : readValue r { s with script := l } = regValue s r := if_neg notBusy
  rw [regRead, value, if_neg notBusy]

end

/-- Settles O22: a pop of an unread byte is taken; without one it waits for the core, or for ever. -/
theorem outPopDeliversInOrder : Obligations.OutPopDeliversInOrder :=
  fun _ _ head => ⟨fun unread => step_of_outPop head unread,
    fun read notBusy => step_of_stuck head (opEnabled_outPop_of_read read) notBusy,
    fun read busy _ dec => step_of_waiting head (opEnabled_outPop_of_read read) busy dec⟩

/-- Settles O25: `wait` reads `STATUS` and `drain` reads `OUT_LEN`, as `regRead` does outside BUSY. -/
theorem waitAndDrainExpand : Obligations.WaitAndDrainExpand := by
  refine fun s rest => ⟨fun head notBusy => ?_, fun head busy i dec => ?_, fun head notBusy => ?_⟩
  · rw [step_of_wait head notBusy, regRead_of_not_busy 1 rest notBusy]
    rfl
  · exact step_of_waiting head (Bool.eq_false_iff.2 fun enabled => opEnabled_wait.1 enabled busy) busy dec
  · have count : readValue 5 { s with script := rest } = s.outLen := if_neg notBusy
    rw [step_of_drain head, regRead_of_not_busy 5 rest notBusy, count]
    rfl

end Sys2Proof.Machine
end

section
/-! The invariant (10_state R20 to R59, 40_commands R129 to R133): it holds after reset, and each kind of step keeps it. For a
phase the clauses are taken in two groups, those of the storage and those of the command that runs. -/
namespace Sys2Proof.Machine

/-- Settles O3: after reset the block is idle with nothing stored, so every other clause is about no state. -/
theorem resetHasTheInvariant : Obligations.ResetHasTheInvariant where
  memWf := rfl
  memInside := fun _ mem => absurd mem List.not_mem_nil
  outLen := rfl
  outRd := Nat.zero_le _
  idle := fun _ => ⟨rfl, rfl, rfl, rfl, rfl, rfl, rfl, rfl, rfl, rfl⟩
  busy := nofun
  inPtr := nofun
  fresh := nofun
  encodes := nofun
  decodes := nofun
  done := nofun
  error := nofun

/-! ### The host's steps -/

section
variable {s t : State} (inv : s.Inv)
include inv

/-- The invariant does not look at the host's script, its replies, the counter of free values or `CMD_REJ`. -/
theorem State.Inv.withHost (l : List HostOp) (rs : List Reply) (n : Nat) (c : Bool) :
    { s with script := l, replies := rs, freeCtr := n, cmdRej := c }.Inv :=
  ⟨inv.memWf, inv.memInside, inv.outLen, inv.outRd, inv.idle, inv.busy, inv.inPtr, inv.fresh, inv.encodes, inv.decodes,
    inv.done, inv.error⟩

theorem State.Inv.reject (l : List HostOp) : (reject { s with script := l }).Inv := inv.withHost l s.replies s.freeCtr true

theorem State.Inv.start (accepted : startAccepted s = true) (op : Op) (l : List HostOp) :
    (start op { s with script := l }).Inv := by
  obtain ⟨notFatal, idle, fits⟩ := startAccepted_iff.1 accepted
  obtain ⟨-, -, -, -, -, -, -, -, noOut, -⟩ := inv.idle idle
  have first : (1 : BitVec 4) ∈ op.phases := by cases op <;> decide
  exact {
    memWf := inv.memWf
    memInside := inv.memInside
    outLen := by
      show (0 : Word) = BitVec.ofNat 64 s.out.length
      rw [noOut]
      rfl
    outRd := inv.outRd
    idle := nofun
    busy := fun _ => ⟨first, notFatal, rfl, rfl, rfl, fits⟩
    inPtr := fun _ moved => absurd rfl moved
    fresh := fun _ _ _ => ⟨noOut, rfl⟩
    encodes := fun _ _ moved => absurd rfl moved
    decodes := fun _ _ moved => absurd rfl moved
    done := nofun
    error := nofun }

theorem State.Inv.acknowledge (accepted : clearAccepted s = true) (l : List HostOp) :
    (acknowledge { s with script := l }).Inv := by
  obtain ⟨notFatal, -⟩ := clearAccepted_iff.1 accepted
  exact {
    memWf := inv.memWf
    memInside := inv.memInside
    outLen := rfl
    outRd := Nat.zero_le _
    idle := fun _ => ⟨rfl, rfl, notFatal, rfl, rfl, rfl, rfl, rfl, rfl, rfl⟩
    busy := nofun
    inPtr := nofun
    fresh := nofun
    encodes := nofun
    decodes := nofun
    done := nofun
    error := nofun }

/-- A command that is rejected, starts or acknowledges (40_commands R124). -/
theorem State.Inv.command {v : Word} {i : Instr} {l : List HostOp} (dec : decodeCtrl v = .ok i)
    (run : exec i { s with script := l } = .next t) : t.Inv := by
  rcases command_cases dec run with ⟨-, rfl⟩ | ⟨-, rfl⟩ | ⟨-, accepted, op, rfl⟩ | ⟨-, accepted, rfl⟩
  · exact inv.withScript l
  · exact inv.reject l
  · exact inv.start accepted op l
  · exact inv.acknowledge accepted l

/-- `IN_LEN` is bounded by `IN_CAP` only while BUSY, when it cannot be written (20_memory R80). -/
theorem State.Inv.regWrite {r v : Word} (free : r.toNat = 4 → s.state ≠ .busy) (l : List HostOp) :
    (regWrite r v { s with script := l }).Inv := by
  by_cases inLen : r.toNat = 4
  · rw [regWrite_inLen inLen]
    have notBusy := free inLen
    exact { inv.withScript l with busy := fun busy => absurd busy notBusy }
  · rw [regWrite_of_ne_inLen inLen]
    exact inv.withScript l

theorem State.Inv.inWrite (a : Word) (b : Byte) (l : List HostOp) : (inWrite a b { s with script := l }).Inv := by
  rcases Nat.lt_or_ge a.toNat Config.inCap with inside | outside
  · rw [inWrite_of_lt inside]
    refine { inv.withScript l with memWf := Memory.wf_write _ _ inv.memWf, memInside := fun c mem => ?_ }
    rcases Memory.mem_write mem with rfl | old
    · exact inside
    · exact inv.memInside c old
  · rw [inWrite_of_ge outside]
    exact inv.withScript l

/-- A pop finds an unread byte, so the block is not idle, and `OUT_RD` moves by one at most up to the end of `OUT` (R59). -/
theorem State.Inv.outPop (l : List HostOp) (unread : s.outRd.toNat < s.out.length) :
    (outPop { s with script := l } unread).Inv := by
  refine { inv.withScript l with outRd := ?_, idle := fun idle => ?_ }
  · show (s.outRd + 1).toNat ≤ s.out.length
    have wraps : (s.outRd + 1).toNat ≤ s.outRd.toNat + 1 := by
      rw [BitVec.toNat_add]
      exact Nat.mod_le _ _
    omega
  · obtain ⟨-, -, -, -, -, -, -, -, noOut, -⟩ := inv.idle idle
    rw [noOut] at unread
    exact absurd unread (Nat.not_lt_zero _)

end

/-! ### The command that runs -/

/-- The clauses of the invariant about the phase that runs next and the registers it finds. -/
structure Running (s : State) : Prop where
  phase : s.phase ∈ s.op.phases
  inPtr : s.phase ≠ 1 → s.inPtr ≤ s.len
  fresh : s.phase ≠ 7 → s.phase ≠ 8 → s.out = [] ∧ s.bitCount = 0
  encodes : s.op = .encode → s.phase ≠ 1 → s.origLen = s.len
  decodes : s.op = .decode → s.phase ≠ 1 → s.rdNbits = 0 ∧ (s.phase = 9 → s.inPtr = 0) ∧ (s.phase ≠ 9 → s.inPtr = 2056)

theorem State.Inv.running {s : State} (inv : s.Inv) (busy : s.state = .busy) : Running s :=
  ⟨(inv.busy busy).1, inv.inPtr busy, inv.fresh busy, inv.encodes busy, inv.decodes busy⟩

section
variable {s t : State}

/-- What has to be shown of an ENCODE behind FC_CLEAR. -/
theorem Running.of_encode {p : BitVec 4} (op : s.op = .encode) (phase : s.phase = p) (mem : p ∈ Op.encode.phases)
    (inPtr : s.inPtr ≤ s.len) (fresh : p ≠ 7 → p ≠ 8 → s.out = [] ∧ s.bitCount = 0) (origLen : s.origLen = s.len) :
    Running s where
  phase := by rw [op, phase]; exact mem
  inPtr := fun _ => inPtr
  fresh := phase ▸ fresh
  encodes := fun _ _ => origLen
  decodes := fun decode => absurd (op.symm.trans decode) (by decide)

/-- What has to be shown of a DECODE behind FC_CLEAR. -/
theorem Running.of_decode {p : BitVec 4} (op : s.op = .decode) (phase : s.phase = p) (mem : p ∈ Op.decode.phases)
    (inPtr : s.inPtr ≤ s.len) (fresh : s.out = [] ∧ s.bitCount = 0) (noneHeld : s.rdNbits = 0)
    (start : p = 9 ∧ s.inPtr = 0 ∨ p ≠ 9 ∧ s.inPtr = 2056) : Running s where
  phase := by rw [op, phase]; exact mem
  inPtr := fun _ => inPtr
  fresh := fun _ _ => fresh
  encodes := fun encode => absurd (op.symm.trans encode) (by decide)
  decodes := fun _ _ => by
    rw [phase]
    rcases start with ⟨first, zero⟩ | ⟨later, behind⟩
    · exact ⟨noneHeld, fun _ => zero, fun later => absurd first later⟩
    · exact ⟨noneHeld, fun first => absurd first later, fun _ => behind⟩

section
variable (run : Running s)
include run

theorem Running.op_encode {p : BitVec 4} (phase : s.phase = p) (only : p ∉ Op.decode.phases) : s.op = .encode := by
  cases op : s.op with
  | encode => rfl
  | decode => exact absurd (phase ▸ op ▸ run.phase) only

theorem Running.op_decode {p : BitVec 4} (phase : s.phase = p) (only : p ∉ Op.encode.phases) : s.op = .decode := by
  cases op : s.op with
  | encode => exact absurd (phase ▸ op ▸ run.phase) only
  | decode => rfl

/-- The phases between the input and the output write tables only (41 to 43): what the next phase finds is what they found. -/
theorem Running.advance {p q : BitVec 4} (phase : s.phase = p) (mid : p ∉ [1, 7, 8, 9]) (next : q ∈ s.op.phases)
    (behind : q ≠ 9) (tree : TreeBuilder) (ct : CodeTable) (symCount : BitVec 9) (sum : BitVec 72) :
    Running { s with tree := tree, ct := ct, symCount := symCount, sum := sum, phase := q } := by
  simp only [List.mem_cons, List.not_mem_nil, or_false, not_or, ← phase] at mid
  obtain ⟨not1, not7, not8, not9⟩ := mid
  refine ⟨next, fun _ => run.inPtr not1, fun _ _ => run.fresh not7 not8, fun op _ => run.encodes op not1, fun op _ => ?_⟩
  obtain ⟨noneHeld, -, inPtr⟩ := run.decodes op not1
  exact ⟨noneHeld, fun first => absurd first behind, fun _ => inPtr not9⟩

/-! One lemma per phase that can go on. -/

theorem execFcClear_running (phase : s.phase = 1) (h : execFcClear s = .next t) : Running t := by
  rw [execFcClear_eq] at h
  obtain rfl := Host.Outcome.next.inj h
  have fresh := run.fresh (by rw [phase]; decide) (by rw [phase]; decide)
  cases op : s.op with
  | encode => exact .of_encode (p := 2) rfl rfl (by decide) (Nat.zero_le _) (fun _ _ => fresh) rfl
  | decode => exact .of_decode (p := 9) rfl rfl (by decide) (Nat.zero_le _) fresh rfl (.inl ⟨rfl, rfl⟩)

theorem execFcCount_running (phase : s.phase = 2) (h : execFcCount s = .next t) : Running t := by
  obtain ⟨bs, -, -, rfl⟩ := execFcCount_next h
  have op := run.op_encode phase (by decide)
  have next : (if s.len = 0 then 6 else 3) ∈ Op.encode.phases := by split <;> decide
  have inPtr : (if bs = [] then s.inPtr else s.len) ≤ s.len := by
    split
    · exact run.inPtr (by rw [phase]; decide)
    · exact BitVec.le_refl _
  exact .of_encode op rfl next inPtr (fun _ _ => run.fresh (by rw [phase]; decide) (by rw [phase]; decide))
    (run.encodes op (by rw [phase]; decide))

theorem execTbLeaves_running (phase : s.phase = 3) (h : execTbLeaves s = .next t) : Running t := by
  obtain ⟨u, -, leaves⟩ := execTbLeaves_eq s
  obtain rfl := Host.Outcome.next.inj (leaves.symm.trans h)
  have next : 4 ∈ s.op.phases := by cases s.op <;> decide
  exact run.advance phase (by decide) next (by decide) u s.ct _ s.sum

theorem execTbMerge_running (phase : s.phase = 4) (h : execTbMerge s = .next t) : Running t := by
  obtain ⟨u, -, rfl⟩ := execTbMerge_next h
  have next : (if s.op = .encode then 5 else 11) ∈ s.op.phases := by cases s.op <;> decide
  exact run.advance phase (by decide) next (by split <;> decide) u s.ct s.symCount s.sum

theorem execCtWalk_running (phase : s.phase = 5) (h : execCtWalk s = .next t) : Running t := by
  obtain ⟨c, -, rfl⟩ := execCtWalk_next h
  have next : 6 ∈ s.op.phases := by rw [run.op_encode phase (by decide)]; decide
  exact run.advance phase (by decide) next (by decide) s.tree c s.symCount s.sum

theorem execHdrEmit_running (phase : s.phase = 6) (h : execHdrEmit s = .next t) (goesOn : t.state = .busy) : Running t := by
  rw [execHdrEmit_eq] at h
  obtain rfl := Host.Outcome.next.inj h
  have op := run.op_encode phase (by decide)
  split at goesOn
  · cases goesOn
  · rename_i nonEmpty
    rw [if_neg nonEmpty]
    exact .of_encode (p := 7) op rfl (by decide) (Nat.zero_le _) (absurd rfl) (run.encodes op (by rw [phase]; decide))

theorem execEncBody_running (phase : s.phase = 7) (h : execEncBody s = .next t) (goesOn : t.state = .busy) : Running t := by
  have op := run.op_encode phase (by decide)
  rcases execEncBody_next h with ⟨bs, -, -, -, rfl⟩ | ⟨bs, b, -, -, -, -, rfl⟩
  · have inPtr : (if bs = [] then s.inPtr else s.len) ≤ s.len := by
      split
      · exact run.inPtr (by rw [phase]; decide)
      · exact BitVec.le_refl _
    rw [bwPutBits_frame]
    exact .of_encode (p := 8) op rfl (by decide) inPtr (fun _ => absurd rfl) (run.encodes op (by rw [phase]; decide))
  · cases goesOn

theorem execHdrParse_running (phase : s.phase = 9) (h : execHdrParse s = .next t) (goesOn : t.state = .busy) : Running t := by
  have op := run.op_decode phase (by decide)
  obtain ⟨noneHeld, -⟩ := run.decodes op (by rw [phase]; decide)
  rcases execHdrParse_next h with ⟨-, rfl⟩ | ⟨hdr, long, -, -, rfl⟩
  · cases goesOn
  · exact .of_decode (p := 10) op rfl (by decide) long (run.fresh (by rw [phase]; decide) (by rw [phase]; decide)) noneHeld
      (.inr ⟨by decide, rfl⟩)

theorem execHdrCheck_running (phase : s.phase = 10) (h : execHdrCheck s = .next t) (goesOn : t.state = .busy) : Running t := by
  rw [execHdrCheck_eq] at h
  obtain rfl := Host.Outcome.next.inj h
  have next : 3 ∈ s.op.phases := by rw [run.op_decode phase (by decide)]; decide
  split_ifs at goesOn ⊢
  · cases goesOn
  · cases goesOn
  · cases goesOn
  · exact run.advance phase (by decide) next (by decide) s.tree s.ct _ _

/-- A phase after which the command still runs leaves what the next phase needs. -/
theorem phase_running {i : Instr} (dec : decodePhase s.phase = .ok i) (h : exec i s = .next t) (goesOn : t.state = .busy) :
    Running t := by
  rcases decodePhase_ok dec with ⟨phase, rfl⟩ | ⟨phase, rfl⟩ | ⟨phase, rfl⟩ | ⟨phase, rfl⟩ | ⟨phase, rfl⟩ | ⟨phase, rfl⟩ |
    ⟨phase, rfl⟩ | ⟨phase, rfl⟩ | ⟨phase, rfl⟩ | ⟨phase, rfl⟩ | ⟨phase, rfl⟩
  · exact execFcClear_running run phase h
  · exact execFcCount_running run phase h
  · exact execTbLeaves_running run phase h
  · exact execTbMerge_running run phase h
  · exact execCtWalk_running run phase h
  · exact execHdrEmit_running run phase h goesOn
  · exact execEncBody_running run phase h goesOn
  · obtain ⟨-, ended, -⟩ := execBwFlush_finishes h
    exact absurd (ended.symm.trans goesOn) (by decide)
  · exact execHdrParse_running run phase h goesOn
  · exact execHdrCheck_running run phase h goesOn
  · rcases execDecWalk_ends h with ⟨-, ended, -⟩ | ⟨-, ended, -⟩ | ⟨-, ended, -⟩ <;>
      exact absurd (ended.symm.trans goesOn) (by decide)

end

/-! ### The phases -/

/-- The clauses of the invariant about `IN_BUF` and `OUT`, in every `STATE`. -/
structure Stored (s : State) : Prop where
  memWf : s.inBuf.wf = true
  memInside : ∀ c ∈ s.inBuf, c.1 < Config.inCap
  outLen : s.outLen = BitVec.ofNat 64 s.out.length
  outRd : s.outRd.toNat ≤ s.out.length

/-- A command that has ended has nothing but the clause of its end to meet. -/
theorem Stored.inv_of_ended (stored : Stored s) (ended : s.state = .done ∨ s.state = .error)
    (done : s.state = .done → s.fatal = false ∧ s.errPos = 0 ∧
      (s.cond = { code := .ok, sub := 0 } ∨ s.cond = { code := .emptyInput, sub := 0 }))
    (error : s.state = .error → s.cond ∈ s.op.errors ∧ (s.fatal = true ↔ s.cond.code = .invariantViolation)) : s.Inv :=
  have notIdle : s.state ≠ .idle := by rintro idle; simp [idle] at ended
  have notBusy : s.state ≠ .busy := by rintro busy; simp [busy] at ended
  { stored with
    idle := fun idle => absurd idle notIdle
    busy := fun busy => absurd busy notBusy
    inPtr := fun busy => absurd busy notBusy
    fresh := fun busy => absurd busy notBusy
    encodes := fun busy => absurd busy notBusy
    decodes := fun busy => absurd busy notBusy
    done := done
    error := error }

section
variable (inv : s.Inv)
include inv

/-- A phase stores nothing to `IN_BUF`, counts what it appends to `OUT` and pops nothing. -/
theorem State.Inv.stored_of_effect {i : Instr} (effect : PhaseEffect i s t) : Stored t := by
  obtain ⟨bs, out, outLen⟩ := effect.out
  refine ⟨effect.inBuf ▸ inv.memWf, effect.inBuf ▸ inv.memInside, ?_, ?_⟩
  · rw [outLen, inv.outLen, out, List.length_append, BitVec.ofNat_add]
  · rw [effect.outRd, out, List.length_append]
    exact Nat.le_add_right_of_le inv.outRd

theorem State.Inv.of_goesOn {i : Instr} (busy : s.state = .busy) (effect : PhaseEffect i s t) (running : Running t)
    (state : t.state = .busy) (fatal : t.fatal = s.fatal) (cond : t.cond = s.cond) (errPos : t.errPos = s.errPos) : t.Inv := by
  obtain ⟨-, notFatal, ok, zero, latched, fits⟩ := inv.busy busy
  exact { inv.stored_of_effect effect with
    idle := fun idle => absurd (state.symm.trans idle) (by decide)
    busy := fun _ => ⟨running.phase, fatal.trans notFatal, cond.trans ok, errPos.trans zero,
      effect.len.trans (latched.trans effect.inLen.symm), effect.len ▸ fits⟩
    inPtr := fun _ => running.inPtr
    fresh := fun _ => running.fresh
    encodes := fun _ => running.encodes
    decodes := fun _ => running.decodes
    done := fun done => absurd (state.symm.trans done) (by decide)
    error := fun error => absurd (state.symm.trans error) (by decide) }

variable (busy : s.state = .busy)
include busy

/-- A command ends in ERROR with a condition of its own (60_exceptions R236). -/
theorem ErrorTableRow.cond_mem_errors (row : ErrorTableRow s t) (failed : t.state = .error) : t.cond ∈ s.op.errors := by
  have decoding (phase : s.phase = 9 ∨ s.phase = 10 ∨ s.phase = 11) := inv.op_of_decoderPhase busy phase
  cases row with
  | ok state | emptyInput state => rw [state] at failed; cases failed
  | headerShort _ cond _ phase => rw [cond, decoding (.inl phase)]; decide
  | zeroSymbols _ cond _ phase | weightMismatch _ cond _ phase => rw [cond, decoding (.inr (.inl phase))]; decide
  | placeholderPath _ cond _ phase | truncatedBitstream _ cond _ phase => rw [cond, decoding (.inr (.inr phase))]; decide
  | codeAbsent _ cond _ phase => rw [cond, inv.op_of_encBody busy phase]; decide

/-- Whichever way a phase ends, the invariant holds after it. -/
theorem State.Inv.phase {i : Instr} (dec : decodePhase s.phase = .ok i) (run : exec i s = .next t) : t.Inv := by
  have effect := phase_effect dec run
  obtain ⟨-, notFatal, -⟩ := inv.busy busy
  have condOk (state : t.state = .error) : t.cond ∈ t.op.errors := by
    rw [effect.op]
    exact (phase_row inv busy dec run (by rw [state]; decide)).cond_mem_errors inv busy state
  cases effect.ends with
  | goesOn state fatal cond errPos =>
    have state := state.trans busy
    exact inv.of_goesOn busy effect (phase_running (inv.running busy) dec run state) state fatal cond errPos
  | finishes state _ fatal errPos cond =>
    exact (inv.stored_of_effect effect).inv_of_ended (.inl state) (fun _ => ⟨fatal.trans notFatal, errPos, cond⟩)
      fun error => absurd (state.symm.trans error) (by decide)
  | raises state _ fatal _ kind =>
    refine (inv.stored_of_effect effect).inv_of_ended (.inr state) (fun done => absurd (state.symm.trans done) (by decide))
      fun _ => ⟨condOk state, fun set => ?_, fun violation => absurd violation kind⟩
    rw [fatal, notFatal] at set
    cases set
  | violates state _ fatal _ _ cond =>
    exact (inv.stored_of_effect effect).inv_of_ended (.inr state) (fun done => absurd (state.symm.trans done) (by decide))
      fun _ => ⟨condOk state, fun _ => by rw [cond], fun _ => fatal⟩

end

end

/-- Settles O4: one lemma per kind of step. -/
theorem everyStepKeepsTheInvariant : Obligations.EveryStepKeepsTheInvariant := by
  intro s t inv h
  cases step_stepped h with
  | phase i s0 turn busy dec run =>
    obtain ⟨l, rfl⟩ := turn.fields
    exact (inv.withScript l).phase busy dec run
  | quiet s0 turn _ eq =>
    obtain ⟨l, rfl⟩ := turn.fields
    exact eq ▸ inv.withScript l
  | command r v rest i _ _ dec run => exact inv.command dec run
  | illegal r v rest e _ _ _ eq => exact eq ▸ inv.reject rest
  | regWrite r v rest _ _ free eq => exact eq ▸ inv.regWrite free rest
  | regRead r rest _ eq => exact eq ▸ inv.withHost rest _ _ s.cmdRej
  | inWrite a b rest _ _ eq => exact eq ▸ inv.inWrite a b rest
  | outPop rest _ unread eq => exact eq ▸ inv.outPop rest unread
  | drain rest _ eq => exact eq ▸ inv.withHost _ _ _ s.cmdRej
  | reset rest _ eq => exact eq ▸ resetHasTheInvariant.withHost rest s.replies s.freeCtr false

end Sys2Proof.Machine
end
